-- ==== Sys2Proof/Word.lean ====
section
/-! DEFINITION. The fixed widths of the HSC (spec/00_scope.md R6, R7): 32-bit registers, bytes, 9-bit symbols, 10-bit node indices. -/

namespace Sys2Proof

/-- A 32-bit register value, command word or RAM word (R6, R11). -/
abbrev Word := BitVec 32

/-- One byte of a stream. -/
abbrev Byte := BitVec 8

/-- The 9-bit symbol code of R7 and R107: 0 to 255 bytes, 256 EOS, 257 to 511 not symbols. -/
abbrev Sym := BitVec 9

/-- A node index, 10 bits (R6). -/
abbrev NodeIndex := BitVec 10

end Sys2Proof
end

