-- ==== Sys2Proof/Config.lean ====
section
/-! DEFINITION. What an implementation or a platform fixes (spec/00_scope.md R5) and the values the spec leaves open
(spec/93_implementation_defined.md U1, U2, spec/70_reset_and_hazards.md R203). -/

namespace Sys2Proof

/-- The parameters of R5. They stand in State and no step changes them (R41), so a statement about every state is a statement
about every parameter choice. -/
structure Params where
  /-- `N_NODES`, words of node RAM, 1 to 1024 -/
  nNodes : Nat
  /-- `IN_FIFO_DEPTH`, bytes the input FIFO holds, 1 to 65535 -/
  inDepth : Nat
  /-- `OUT_FIFO_DEPTH`, bytes the output FIFO holds, 1 to 65535 -/
  outDepth : Nat
  /-- `HSC_BASE`, the host address of offset 0x0000, any multiple of 32 KiB -/
  hscBase : Nat
  deriving DecidableEq, Repr

/-- The defaults R5 gives "for tests". DESIGN CHOICE (log 2), unsafe: State.reset stands at them; for HSC_BASE, which R5 leaves
OPEN, the value 0 is the model's (log 3). -/
def Params.testDefault : Params :=
  { nNodes := 513, inDepth := 16, outDepth := 16, hscBase := 0 }

/-- FREE VALUE (log 4): what node RAM word `i` holds after hardware reset number `epoch`, before its stored form is taken (R30, U1). -/
opaque Config.nodeReset (epoch i : Nat) : Word

/-- FREE VALUE (log 4): what CODE_CFG[s] holds after hardware reset number `epoch`, before its stored form is taken (R31, U2). -/
opaque Config.codeCfgReset (epoch s : Nat) : Word

/-- FREE VALUE (log 4): what CODE_BITS[s][k] holds after hardware reset number `epoch`; the key is 8 * s + k (R31, U2). -/
opaque Config.codeBitsReset (epoch key : Nat) : Word

end Sys2Proof
end

