-- ==== Sys2Proof/Syntax.lean ====
section
/-! DEFINITION. The commands of the HSC (spec/30_encoding.md R101): one constructor per row of spec/opcode_table.json. -/

namespace Sys2Proof

/-- A command. SYM is the only operand and ENCODE_SYMBOL the only command that uses it (R102). -/
inductive Instr where
  /-- VALIDATE_TREE, OP 1 (R120) -/
  | validateTree
  /-- DECODE_SYMBOL, OP 2 (R130) -/
  | decodeSymbol
  /-- ENCODE_SYMBOL, OP 3, with its operand SYM, any 9-bit value (R102, R140) -/
  | encodeSymbol (sym : Sym)
  /-- FLUSH, OP 4 (R141) -/
  | flush
  /-- DECOMPRESS, OP 5 (R150) -/
  | decompress
  /-- COMPRESS, OP 6 (R152) -/
  | compress
  deriving DecidableEq, Repr

end Sys2Proof
end

