-- ==== Sys2Proof/WellFormed.lean ====
section
/-! DEFINITION. The checks on what is given to the model from outside: the parameters (spec/00_scope.md R5) and the stored forms of
the words (spec/10_state.md R22, R30, R31). A command has no ill-formed operand: every 9-bit SYM is a legal encoding (R102). -/

namespace Sys2Proof

/-- Every command is well formed: its one operand is a 9-bit value and "SYM values 257 to 511 are legal encodings" (R102). -/
def Instr.wellFormed : Instr → Bool
  | .validateTree => true
  | .decodeSymbol => true
  | .encodeSymbol _ => true
  | .flush => true
  | .decompress => true
  | .compress => true

/-- The legal values of the parameters (R5). -/
def Params.wellFormed (p : Params) : Bool :=
  decide (1 ≤ p.nNodes) && decide (p.nNodes ≤ 1024) &&
  decide (1 ≤ p.inDepth) && decide (p.inDepth ≤ 65535) &&
  decide (1 ≤ p.outDepth) && decide (p.outDepth ≤ 65535) &&
  decide (p.hscBase % 0x8000 = 0)

/-- `w` is a word CMD can hold (R22). -/
def Word.isCommandForm (w : Word) : Bool := decide (w &&& 0x01FF000F#32 = w)

/-- `w` is a word a NODE can hold: the stored form of a Leaf or of a Branch (R30). -/
def Word.isNodeForm (w : Word) : Bool :=
  if w.getLsbD 31 then decide (w &&& 0x83FF03FF#32 = w) else decide (w &&& 0x000001FF#32 = w)

/-- `w` is a word a CODE_CFG can hold, and one RESULT can hold (R31, R32). -/
def Word.isCfgForm (w : Word) : Bool := decide (w &&& 0x800001FF#32 = w)

end Sys2Proof
end

