-- ==== Sys2Proof/Decode.lean ====
section
/-! DEFINITION. Decoding a command word, total and rejecting by name, and its encoder (spec/30_encoding.md R100 to R106). -/

namespace Sys2Proof

/-- Why a word is no command: its OP is illegal (R105). The step turns this into the fault ILLEGAL_CMD. -/
inductive DecodeReject where
  | illegalOp (op : BitVec 4)
  deriving DecidableEq, Repr

/-- OP = CMD[3:0] (R100). -/
def opField (w : Word) : BitVec 4 := w.extractLsb' 0 4

/-- SYM = CMD[24:16] (R100, R102). -/
def symField (w : Word) : Sym := w.extractLsb' 16 9

/-- What CMD stores of a written word: `{0000000, SYM, 00000000000, OP}` (R22, R67). -/
def commandForm (w : Word) : Word := w &&& 0x01FF000F#32

/-- The opcode map (R101), on the two fields of the command word. -/
def decodeFields (op : BitVec 4) (sym : Sym) : Except DecodeReject Instr :=
  if op = 0x1#4 then .ok .validateTree
  else if op = 0x2#4 then .ok .decodeSymbol
  else if op = 0x3#4 then .ok (.encodeSymbol sym)
  else if op = 0x4#4 then .ok .flush
  else if op = 0x5#4 then .ok .decompress
  else if op = 0x6#4 then .ok .compress
  else .error (.illegalOp op)

/-- Decoding a 32-bit command word. The ignored bits 15:4 and 31:25 may hold anything (R100, R105). -/
def decode (w : Word) : Except DecodeReject Instr := decodeFields (opField w) (symField w)

/-- The opcode of a command (R101). -/
def opcodeOf : Instr → BitVec 4
  | .validateTree => 0x1#4
  | .decodeSymbol => 0x2#4
  | .encodeSymbol _ => 0x3#4
  | .flush => 0x4#4
  | .decompress => 0x5#4
  | .compress => 0x6#4

/-- The SYM field of a command's word; 0 where the command has no operand (R109). -/
def operandOf : Instr → Sym
  | .validateTree => 0#9
  | .decodeSymbol => 0#9
  | .encodeSymbol sym => sym
  | .flush => 0#9
  | .decompress => 0#9
  | .compress => 0#9

/-- The command word of R109: `(SYM << 16) | OP`, every ignored bit 0. -/
def encode (i : Instr) : Word := 0#7 ++ operandOf i ++ 0#12 ++ opcodeOf i

/-- The bits of the word that the command reads: OP, and SYM for ENCODE_SYMBOL (R100). -/
def usedMask : Instr → Word
  | .validateTree => 0x0000000F#32
  | .decodeSymbol => 0x0000000F#32
  | .encodeSymbol _ => 0x01FF000F#32
  | .flush => 0x0000000F#32
  | .decompress => 0x0000000F#32
  | .compress => 0x0000000F#32

/-- The decoder on a table word: every command is one 32-bit word (R106), so a word of more bits is none. The register window carries
whole words and has no byte order (R64), so the bits are the table's. -/
def decodeTableWord (nbits w : Nat) : Option Instr :=
  if nbits ≤ 32 then
    match decode (BitVec.ofNat 32 (w % 2 ^ nbits)) with
    | .ok i => some i
    | .error _ => none
  else none

end Sys2Proof
end

