-- ==== Sys2Proof/Machine/State.lean ====
section
/-! DEFINITION. The state of the HSC as plain data (spec/10_state.md), the turns of its two agents (spec/00_scope.md R8, R9), the
reasons a step can stop, and the state right after a hardware reset (R45). -/

namespace Sys2Proof.Machine

/-- STATUS without BUSY (R23). BUSY is `State.current.isSome`, stored once (log 6); the reserved bits 31:12 are not stored. -/
structure Status where
  done : Bool
  fault : Bool
  eos : Bool
  eoi : Bool
  trunc : Bool
  treeOk : Bool
  inOvf : Bool
  accErr : Bool
  waitIn : Bool
  waitOut : Bool
  inEnd : Bool
  deriving DecidableEq, Repr

/-- The position of the block inside a command, with the values that live only there (R42, R43, R44). A position names the NEXT
micro-step. -/
inductive Pos where
  /-- the first micro-step of every command, "decode OP" -/
  | first
  /-- an iteration of TreeCheck with STACK (top first), VISITED (newest first) and EOS_SEEN (R43, R121) -/
  | check (stack visited : List NodeIndex) (eosSeen : Bool)
  /-- an iteration of DecodeSymbol with CUR and CONSUMED (R42, R132) -/
  | walk (cur : NodeIndex) (consumed : BitVec 10)
  /-- DECOMPRESS writes bit k of the decoded symbol (R150) -/
  | emit (sym : Sym) (k : Nat)
  /-- COMPRESS reads the next input byte (R152) -/
  | read
  /-- the lookup micro-step of EncodeSymbol (R142) -/
  | lookup (sym : Sym)
  /-- EncodeSymbol writes codeword bit j of L bits (R142) -/
  | code (sym : Sym) (len j : Nat)
  /-- COMPRESS has `left` padding bits to write (R152, R153) -/
  | pad (left : Nat)
  /-- the Flush micro-step (R83) -/
  | flush
  deriving DecidableEq, Repr

/-- The current command: CMD.OP and CMD.SYM as accepted, and the position (R44). -/
structure Command where
  op : BitVec 4
  sym : Sym
  pos : Pos
  deriving DecidableEq, Repr

/-- The input bit source (R38): the FIFO, oldest byte first; IN_SR; IN_BITS, 0 to 8. -/
structure InPath where
  fifo : List Byte
  sr : Byte
  bits : Nat
  deriving DecidableEq, Repr

/-- The output bit sink: the FIFO, oldest byte first (R37); OUT_ACC and OUT_BITS, 0 to 7 (R36); OUT_BITCOUNT (R34). -/
structure OutPath where
  fifo : List Byte
  acc : BitVec 7
  bits : Nat
  count : Word
  deriving DecidableEq, Repr

/-- A RAM: the words written since the last hardware reset, keyed by their number, in rising order (log 5). -/
abbrev Ram := List (Nat × Word)

/-- Node RAM (R30), the two parts of code RAM (R31; CODE_BITS[s][k] has the number 8 * s + k), and the model's own count of hardware
resets, which picks the free values of the words not written since the last one (log 4). -/
structure Rams where
  node : Ram
  cfg : Ram
  bits : Ram
  epoch : Nat
  deriving DecidableEq, Repr

/-- What a host access does (R60). -/
inductive AccessKind where
  | read
  | write (wdata : Word)
  deriving DecidableEq, Repr

/-- A host access: the tuple (offset, size in bytes, read or write, wdata) of R60. -/
structure Access where
  offset : BitVec 15
  size : Nat
  kind : AccessKind
  deriving DecidableEq, Repr

/-- Who moves next in the run (R9, U4, U10): the block, the host with one access, or the platform's hardware reset. -/
inductive Turn where
  | block
  | access (a : Access)
  | hardReset
  deriving DecidableEq, Repr

/-- The machine. `schedule` and `observed` are the model's own fields (log 1): the turns still to come, and the values the host's reads
returned so far, oldest first, which with the final state is the observation of R219. -/
structure State where
  params : Params
  cmd : Word
  current : Option Command
  status : Status
  faultInfo : Word
  result : Word
  symCount : Word
  rams : Rams
  input : InPath
  output : OutPath
  schedule : List Turn
  observed : List Word
  deriving DecidableEq, Repr

/-- Why a step stops. The spec gives the HSC no such case; both constructors are for states the spec does not have and no run reaches
(log 11). Safe: the model stops where the machine has no behaviour to miss. -/
inductive Fault where
  /-- Raised by every meaning when no command runs: no micro-step is enabled while BUSY = 0 (R10). `step` never calls a meaning then.
  Safe. -/
  | noCommand
  /-- Raised by a meaning at a position that is not in its command's list of micro-steps (R44). Safe. -/
  | positionNotOfCommand
  deriving DecidableEq, Repr

/-- Why an instruction is refused. -/
inductive Refusal where
  /-- Raised by `exec` for an instruction without a meaning. No arm of this model raises it. Safe. -/
  | notModelled (mnemonic : String)
  deriving DecidableEq, Repr

/-- STATUS with every field 0 (R23, R45). -/
def Status.zero : Status :=
  { done := false, fault := false, eos := false, eoi := false, trunc := false, treeOk := false,
    inOvf := false, accErr := false, waitIn := false, waitOut := false, inEnd := false }

/-- The empty input path (R38, R45). -/
def InPath.empty : InPath := { fifo := [], sr := 0#8, bits := 0 }

/-- The empty output path (R34, R36, R37, R45). -/
def OutPath.empty : OutPath := { fifo := [], acc := 0#7, bits := 0, count := 0#32 }

/-- The state after a hardware reset (R45) with given parameters: the RAMs list nothing, so each word holds a free value of its stored
form; no turn is scheduled and nothing was observed. -/
def State.resetWith (p : Params) : State :=
  { params := p
    cmd := 0#32
    current := none
    status := Status.zero
    faultInfo := 0#32
    result := 0#32
    symCount := 0#32
    rams := { node := [], cfg := [], bits := [], epoch := 0 }
    input := InPath.empty
    output := OutPath.empty
    schedule := []
    observed := [] }

/-- The machine right after a hardware reset (R45, R200, R202), at the test-default parameters (log 2, log 3). -/
def State.reset : State := State.resetWith Params.testDefault

end Sys2Proof.Machine
end

