-- ==== Sys2Proof/Machine/Flags.lean ====
section
/-! DEFINITION. Every computation on STATUS and its flags (spec/10_state.md R23 to R28) and the words of RESULT and FAULT_INFO. -/

namespace Sys2Proof.Machine

/-- The symbol EOS, 256 (R7). -/
def eosSym : Sym := 0x100#9

/-- The word a read of STATUS returns (R23). -/
def statusWord (busy : Bool) (st : Status) : Word :=
  0#20 ++ BitVec.ofBool st.inEnd ++ BitVec.ofBool st.waitOut ++ BitVec.ofBool st.waitIn ++ BitVec.ofBool st.accErr ++
    BitVec.ofBool st.inOvf ++ BitVec.ofBool st.treeOk ++ BitVec.ofBool st.trunc ++ BitVec.ofBool st.eoi ++
    BitVec.ofBool st.eos ++ BitVec.ofBool st.fault ++ BitVec.ofBool st.done ++ BitVec.ofBool busy

/-- The effect of a write of `w` on the W1C bits DONE, FAULT, IN_OVF and ACC_ERR; every other bit keeps its value (R23). -/
def Status.clearWritten (w : Word) (st : Status) : Status :=
  { st with
    done := st.done && !w.getLsbD 1
    fault := st.fault && !w.getLsbD 2
    inOvf := st.inOvf && !w.getLsbD 7
    accErr := st.accErr && !w.getLsbD 8 }

/-- An advancing micro-step leaves neither WAIT bit set (R23, 20_memory.md section 3; log 9). -/
def Status.noWait (st : Status) : Status := { st with waitIn := false, waitOut := false }

/-- The flags cleared at the acceptance of a command (R67). -/
def Status.accepted (st : Status) : Status :=
  { st with done := false, eos := false, eoi := false, trunc := false }

/-- The flags of a successful end (R182). -/
def Status.ended (st : Status) : Status := { st.noWait with done := true }

/-- The flags of the fault entry (R183); DONE is not written. -/
def Status.faulted (st : Status) : Status := { st.noWait with fault := true }

/-- The end-of-stream sentinel detector (R131): a decode that returns EOS sets STATUS.EOS. -/
def Status.detect (r : Sym) (st : Status) : Status := if r = eosSym then { st with eos := true } else st

/-- FAULT_INFO = {000000, data[9:0], 00000000, sub[3:0], code[3:0]} (R29, R183). -/
def faultWord (code sub : BitVec 4) (data : BitVec 10) : Word := 0#6 ++ data ++ 0#8 ++ sub ++ code

/-- RESULT = {1, 0...0, sym} (R32). -/
def resultWord (r : Sym) : Word := 1#1 ++ 0#22 ++ r

end Sys2Proof.Machine
end

