-- ==== Sys2Proof/Machine/Ops.lean ====
section
/-! DEFINITION. The named operations over the RAMs and over the state of a command: acceptance (spec/20_memory.md R67), advancing and
holding (spec/00_scope.md R9), the successful end and the fault entry and its exit (spec/60_exceptions.md R182, R183, R185), and the
two resets (spec/70_reset_and_hazards.md R200, R201). -/

namespace Sys2Proof.Machine

/-! ### RAM words -/

/-- The word written under number `k`, if one was. -/
def ramFind : Ram → Nat → Option Word
  | [], _ => none
  | (a, v) :: r, k => if a = k then some v else ramFind r k

/-- Writing word `w` under number `k`: the numbers stay in rising order. -/
def ramStore : Ram → Nat → Word → Ram
  | [], k, w => [(k, w)]
  | (a, v) :: r, k, w =>
    if k < a then (k, w) :: (a, v) :: r
    else if k = a then (k, w) :: r
    else (a, v) :: ramStore r k w

/-- The canonical form of a RAM (log 5): numbers strictly rising, each below `bound`, each word of its stored form. -/
def ramWf (bound : Nat) (form : Word → Bool) : Ram → Bool
  | [] => true
  | [(a, v)] => decide (a < bound) && form v
  | (a, v) :: (b, u) :: r => decide (a < b) && decide (a < bound) && form v && ramWf bound form ((b, u) :: r)

/-- The stored form of a node word: only the fields of R30 are kept. -/
def nodeForm (w : Word) : Word := if w.getLsbD 31 then w &&& 0x83FF03FF#32 else w &&& 0x000001FF#32

/-- The stored form of a CODE_CFG word (R31). -/
def cfgForm (w : Word) : Word := w &&& 0x800001FF#32

/-- NODE[i]: the word last written, or a free value of the stored form (R30, R203). -/
def readNode (r : Rams) (i : Nat) : Word := (ramFind r.node i).getD (nodeForm (Config.nodeReset r.epoch i))

/-- CODE_CFG[s] (R31, R203). -/
def readCfg (r : Rams) (s : Nat) : Word := (ramFind r.cfg s).getD (cfgForm (Config.codeCfgReset r.epoch s))

/-- CODE_BITS[s][k] (R31, R203). -/
def readBits (r : Rams) (s k : Nat) : Word := (ramFind r.bits (8 * s + k)).getD (Config.codeBitsReset r.epoch (8 * s + k))

/-- A stored NODE write (R70). -/
def writeNode (i : Nat) (w : Word) (r : Rams) : Rams := { r with node := ramStore r.node i (nodeForm w) }

/-- A stored CODE_CFG write (R71). -/
def writeCfg (s : Nat) (w : Word) (r : Rams) : Rams := { r with cfg := ramStore r.cfg s (cfgForm w) }

/-- A stored CODE_BITS write (R71). -/
def writeBits (s k : Nat) (w : Word) (r : Rams) : Rams := { r with bits := ramStore r.bits (8 * s + k) w }

/-! ### The life of a command -/

/-- STATUS.BUSY (R23): a command is current (log 6). -/
def State.busy (s : State) : Bool := s.current.isSome

/-- The acceptance of a command word (R67). OP is not decoded here. -/
def acceptCommand (w : Word) (s : State) : State :=
  { s with
    cmd := commandForm w
    current := some { op := opField w, sym := symField w, pos := .first }
    status := s.status.accepted }

/-- The micro-step advances to position `p` (R9). -/
def goTo (p : Pos) (s : State) : State :=
  { s with current := s.current.map (fun c => { c with pos := p }), status := s.status.noWait }

/-- The micro-step is held for input: nothing changes but WAIT_IN (R9, R80, R81). -/
def holdIn (s : State) : State := { s with status := { s.status with waitIn := true } }

/-- The micro-step is held for output space: nothing changes but WAIT_OUT (R9, R82, R83). -/
def holdOut (s : State) : State := { s with status := { s.status with waitOut := true } }

/-- `done`: the successful end of the command (R182). -/
def finish (s : State) : State := { s with current := none, status := s.status.ended }

/-- `raise Fault(code, sub, data)`: the fault entry (R183), the one exception of the HSC. -/
def raiseFault (code sub : BitVec 4) (data : BitVec 10) (s : State) : State :=
  { s with current := none, status := s.status.faulted, faultInfo := faultWord code sub data }

/-- A write of `w` to STATUS (R23); writing 1 to FAULT is the exit from a fault and also zeroes FAULT_INFO (R29, R185). -/
def writeStatus (w : Word) (s : State) : State :=
  { s with
    status := s.status.clearWritten w
    faultInfo := if w.getLsbD 2 then 0#32 else s.faultInfo }

/-! ### Single pieces of state -/

/-- STATUS.TREE_OK <- b (R26). -/
def setTreeOk (b : Bool) (s : State) : State := { s with status := { s.status with treeOk := b } }

/-- STATUS.EOI <- 1 (R25). -/
def setEoi (s : State) : State := { s with status := { s.status with eoi := true } }

/-- STATUS.TRUNC <- 1 (R25, R151). -/
def setTrunc (s : State) : State := { s with status := { s.status with trunc := true } }

/-- RESULT <- 0 (R32). -/
def clearResult (s : State) : State := { s with result := 0#32 }

/-- A decode returns symbol `r`: RESULT is written and the sentinel detector looks at `r` (R32, R131). -/
def returnSymbol (r : Sym) (s : State) : State := { s with result := resultWord r, status := s.status.detect r }

/-- SYM_COUNT <- 0 (R35). -/
def clearSymCount (s : State) : State := { s with symCount := 0#32 }

/-- SYM_COUNT <- (SYM_COUNT + 1) mod 2^32 (R35). -/
def countSymbol (s : State) : State := { s with symCount := s.symCount + 1#32 }

/-- The input path after a read (R80, R81). -/
def setInput (p : InPath) (s : State) : State := { s with input := p }

/-- The output path after a write (R82, R83). -/
def setOutput (p : OutPath) (s : State) : State := { s with output := p }

/-! ### Resets -/

/-- The soft reset (R201, R45): every piece of state but the RAMs takes its reset value; a command in progress is abandoned. -/
def softReset (s : State) : State :=
  { State.resetWith s.params with rams := s.rams, schedule := s.schedule, observed := s.observed }

/-- The hardware reset (R200, R45): as the soft reset, and the RAMs hold free values again (log 4, log 12). -/
def hardReset (s : State) : State :=
  { State.resetWith s.params with
    rams := { node := [], cfg := [], bits := [], epoch := s.rams.epoch + 1 }
    schedule := s.schedule
    observed := s.observed }

end Sys2Proof.Machine
end

