-- ==== Sys2Proof/Machine/Operands.lean ====
section
/-! DEFINITION. The operands the commands read: the fields of a node word (spec/30_encoding.md R103) and of a code slot (R104). -/

namespace Sys2Proof.Machine

/-- KIND = 1: the node is a Branch (R30, R103). -/
def nodeIsBranch (n : Word) : Bool := n.getLsbD 31

/-- SYM of a Leaf (R30, R103). -/
def nodeSym (n : Word) : Sym := n.extractLsb' 0 9

/-- LEFT of a Branch, the child reached by bit 0 (R30, R103). -/
def nodeLeft (n : Word) : NodeIndex := n.extractLsb' 16 10

/-- RIGHT of a Branch, the child reached by bit 1 (R30, R103). -/
def nodeRight (n : Word) : NodeIndex := n.extractLsb' 0 10

/-- The child that input bit `b` selects (R13, R132). -/
def nodeChild (n : Word) (b : Bool) : NodeIndex := if b then nodeRight n else nodeLeft n

/-- VALID of a code slot (R31, R104). -/
def cfgValid (c : Word) : Bool := c.getLsbD 31

/-- LEN of a code slot (R31, R104). -/
def cfgLen (c : Word) : Nat := (c.extractLsb' 0 9).toNat

/-- Codeword bit j of symbol s: CODE_BITS[s][j div 32][31 - (j mod 32)] (R31, R104). -/
def codeBit (r : Rams) (s : Sym) (j : Nat) : Bool := (readBits r s.toNat (j / 32)).getLsbD (31 - j % 32)

end Sys2Proof.Machine
end

