-- ==== Sys2Proof/Machine/Stream.lean ====
section
/-! DEFINITION. The bit stream primitives ReadBit, ReadBits8, WriteBit and Flush (spec/20_memory.md R80 to R84), on the input and output
paths alone. The WAIT bits of a held or advancing micro-step are set where the micro-step ends (Machine/Ops.lean). -/

namespace Sys2Proof.Machine

/-- The outcome of ReadBit: held, EndOfInput, or a bit and the path after it (R80). -/
inductive BitRead where
  | hold
  | eoi
  | bit (b : Bool) (p : InPath)
  deriving DecidableEq, Repr

/-- The outcome of ReadBits8 (R81). -/
inductive ByteRead where
  | hold
  | eoi
  | byte (v : Byte) (p : InPath)
  deriving DecidableEq, Repr

/-- The bit at the cursor of a path with IN_BITS > 0, and the path with that bit consumed (R80). -/
def takeBit (p : InPath) : Bool × InPath := (p.sr.getLsbD (p.bits - 1), { p with bits := p.bits - 1 })

/-- `ReadBit()` (R80); `ended` is STATUS.IN_END. -/
def readBit (ended : Bool) (p : InPath) : BitRead :=
  if p.bits = 0 then
    match p.fifo with
    | b :: rest =>
      let q := takeBit { fifo := rest, sr := b, bits := 8 }
      .bit q.1 q.2
    | [] => if ended then .eoi else .hold
  else
    let q := takeBit p
    .bit q.1 q.2

/-- The number of bits a path still holds (R81). -/
def availBits (p : InPath) : Nat := p.bits + 8 * p.fifo.length

/-- `repeat n times: v <- {v[6:0], ReadBit()}` (R81). Where the input held fewer than n bits it would stop early; ReadBits8 never asks for
that (log 24). -/
def gatherBits : Nat → Byte → InPath → Byte × InPath
  | 0, v, p => (v, p)
  | n + 1, v, p =>
    match readBit true p with
    | .bit b q => gatherBits n (v.shiftConcat b) q
    | .eoi => (v, p)
    | .hold => (v, p)

/-- `ReadBits8()`, all or nothing (R81). -/
def readBits8 (ended : Bool) (p : InPath) : ByteRead :=
  if availBits p < 8 then
    if ended then .eoi else .hold
  else
    let q := gatherBits 8 0#8 p
    .byte q.1 q.2

/-- `WriteBit(b)` (R82) with OUT_FIFO_DEPTH = `depth`; none where it is held. -/
def writeBit (depth : Nat) (b : Bool) (p : OutPath) : Option OutPath :=
  if p.bits = 7 then
    if p.fifo.length = depth then none
    else some { fifo := p.fifo ++ [p.acc ++ BitVec.ofBool b], acc := 0#7, bits := 0, count := p.count + 1#32 }
  else some { p with acc := p.acc.shiftConcat b, bits := p.bits + 1, count := p.count + 1#32 }

/-- The byte Flush appends: (OUT_ACC * 2^(8 - OUT_BITS)) mod 256 (R83). -/
def flushByte (p : OutPath) : Byte := (p.acc.setWidth 8) <<< (8 - p.bits)

/-- `Flush()` (R83) with OUT_FIFO_DEPTH = `depth`; none where it is held. -/
def flushOut (depth : Nat) (p : OutPath) : Option OutPath :=
  if p.bits = 0 then some p
  else if p.fifo.length = depth then none
  else some { fifo := p.fifo ++ [flushByte p], acc := 0#7, bits := 0, count := p.count + BitVec.ofNat 32 (8 - p.bits) }

/-- The padding count of COMPRESS, `(8 - totalBits mod 8) mod 8` with totalBits = OUT_BITCOUNT (R153). -/
def padCount (p : OutPath) : Nat := (8 - p.count.toNat % 8) % 8

end Sys2Proof.Machine
end

