-- ==== Sys2Proof/Machine/Steps.lean ====
section
/-! DEFINITION. The micro-steps that several commands share: an iteration of TreeCheck (spec/40_tree_check.md R121), an iteration of
DecodeSymbol (spec/41_symbol_decode.md R132), the lookup and the bits of EncodeSymbol (spec/42_symbol_encode.md R142) and Flush. What
follows the shared part differs by command and is an argument. -/

namespace Sys2Proof.Machine

/-- An outcome of the HSC's step and meanings. -/
abbrev Result := Host.Outcome State Fault Refusal

/-- Runs `f` at the position of the current command; no meaning runs without one (R10, log 11). -/
def atPos (s : State) (f : Pos → Result) : Result :=
  match s.current with
  | none => .fault .noCommand
  | some c => f c.pos

/-! ### TreeCheck -/

/-- How an iteration of TreeCheck ends (R121): a failure with its sub-code and DATA, the loop's next values, or success. -/
inductive CheckOut where
  | bad (sub : BitVec 4) (data : NodeIndex)
  | more (stack visited : List NodeIndex) (eosSeen : Bool)
  | passed
  deriving DecidableEq, Repr

/-- One iteration of the loop of TreeCheck (R121). -/
def checkIteration (p : Params) (r : Rams) (stack visited : List NodeIndex) (eosSeen : Bool) : CheckOut :=
  match stack with
  | [] => if eosSeen then .passed else .bad 5#4 0#10
  | i :: rest =>
    if p.nNodes ≤ i.toNat then .bad 1#4 i
    else if i ∈ visited then .bad 2#4 i
    else if nodeIsBranch (readNode r i.toNat) then
      .more (nodeLeft (readNode r i.toNat) :: nodeRight (readNode r i.toNat) :: rest) (i :: visited) eosSeen
    else if 256 < (nodeSym (readNode r i.toNat)).toNat then .bad 3#4 i
    else if nodeSym (readNode r i.toNat) = eosSym then
      if eosSeen then .bad 4#4 i else .more rest (i :: visited) true
    else .more rest (i :: visited) eosSeen

/-- The position at the start of TreeCheck: STACK = [0], VISITED = {}, EOS_SEEN = 0 (R121, log 8). -/
def checkStart : Pos := .check [0#10] [] false

/-- The micro-step of one iteration; `after` is what follows a passing check (R121). -/
def checkStep (after : State → State) (stack visited : List NodeIndex) (eosSeen : Bool) (s : State) : State :=
  match checkIteration s.params s.rams stack visited eosSeen with
  | .bad sub data => raiseFault 2#4 sub data (setTreeOk false s)
  | .more st vis e => goTo (.check st vis e) s
  | .passed => after (setTreeOk true s)

/-! ### DecodeSymbol -/

/-- The position at the start of DecodeSymbol: CUR = 0, CONSUMED = 0 (R132, log 8). -/
def walkStart : Pos := .walk 0#10 0#10

/-- How an iteration of DecodeSymbol ends (R132). -/
inductive WalkOut where
  | symbol (r : Sym)
  | eoi
  | hold
  | moved (cur : NodeIndex) (consumed : BitVec 10) (p : InPath)
  deriving DecidableEq, Repr

/-- One iteration of the loop of DecodeSymbol (R132). -/
def walkIteration (r : Rams) (ended : Bool) (p : InPath) (cur : NodeIndex) (consumed : BitVec 10) : WalkOut :=
  if nodeIsBranch (readNode r cur.toNat) then
    match readBit ended p with
    | .hold => .hold
    | .eoi => .eoi
    | .bit b q => .moved (nodeChild (readNode r cur.toNat) b) (consumed + 1#10) q
  else .symbol (nodeSym (readNode r cur.toNat))

/-- The micro-step of one iteration; `onSymbol` and `onEoi` are what the command does with the outcome (R130, R150). -/
def walkStep (onSymbol : Sym → State → State) (onEoi : BitVec 10 → State → State) (cur : NodeIndex) (consumed : BitVec 10)
    (s : State) : State :=
  match walkIteration s.rams s.status.inEnd s.input cur consumed with
  | .symbol r => onSymbol r (returnSymbol r s)
  | .eoi => onEoi consumed (setEoi s)
  | .hold => holdIn s
  | .moved cur' n q => goTo (.walk cur' n) (setInput q s)

/-- After the first micro-step of a decode command: the check, where TREE_OK = 0, else the walk (R130, R150). -/
def startDecode (s : State) : State := if s.status.treeOk then goTo walkStart s else goTo checkStart s

/-! ### EncodeSymbol -/

/-- The lookup micro-step of EncodeSymbol (R142); `after` is what follows the codeword, at once where LEN = 0. -/
def lookupStep (after : State → State) (sym : Sym) (s : State) : State :=
  if 256 < sym.toNat then raiseFault 3#4 0#4 (sym.setWidth 10) s
  else if cfgValid (readCfg s.rams sym.toNat) then
    if 256 < cfgLen (readCfg s.rams sym.toNat) then raiseFault 4#4 0#4 (sym.setWidth 10) s
    else if cfgLen (readCfg s.rams sym.toNat) = 0 then after s
    else goTo (.code sym (cfgLen (readCfg s.rams sym.toNat)) 0) s
  else raiseFault 3#4 0#4 (sym.setWidth 10) s

/-- A WriteBit micro-step: held, or `k` on the state with the bit written (R82). -/
def writeStep (b : Bool) (k : State → State) (s : State) : State :=
  match writeBit s.params.outDepth b s.output with
  | none => holdOut s
  | some q => k (setOutput q s)

/-- The micro-step that writes codeword bit j of L (R142); `after` follows the last one. -/
def codeStep (after : State → State) (sym : Sym) (len j : Nat) (s : State) : State :=
  writeStep (codeBit s.rams sym j) (fun t => if j + 1 < len then goTo (.code sym len (j + 1)) t else after t) s

/-! ### Flush -/

/-- The Flush micro-step, with which the command ends (R83, R141, R150, R152). -/
def flushStep (s : State) : State :=
  match flushOut s.params.outDepth s.output with
  | none => holdOut s
  | some q => finish (setOutput q s)

end Sys2Proof.Machine
end

