-- ==== Sys2Proof/Machine/StreamCodec.lean ====
section
/-! DEFINITION. The stream commands DECOMPRESS and COMPRESS (spec/43_stream.md). -/

namespace Sys2Proof.Machine

/-- What DECOMPRESS does with a decoded symbol (R150): EOS leaves the loop, any other symbol is written as 8 bits, bit 7 first. -/
def decompressSymbol (r : Sym) (s : State) : State := if r = eosSym then goTo .flush s else goTo (.emit r 7) s

/-- After WriteBit(r[k]): the next bit, or the count and the next decode (R150). -/
def afterEmit (r : Sym) (k : Nat) (s : State) : State :=
  if k = 0 then goTo walkStart (countSymbol s) else goTo (.emit r (k - 1)) s

/-- DECOMPRESS (R150); EndOfInput is TRUNC and no fault (R151). -/
def execDecompress (s : State) : Result :=
  atPos s fun
    | .first => .next (startDecode (clearSymCount (clearResult s)))
    | .check stack visited eosSeen => .next (checkStep (goTo walkStart) stack visited eosSeen s)
    | .walk cur consumed =>
      .next (walkStep decompressSymbol (fun _ t => goTo .flush (setTrunc t)) cur consumed s)
    | .emit r k => .next (writeStep (r.getLsbD k) (afterEmit r k) s)
    | .flush => .next (flushStep s)
    | _ => .fault .positionNotOfCommand

/-- After the terminator's codeword: P padding bits, or Flush where P = 0 (R152, R153). -/
def startPad (s : State) : State :=
  if padCount s.output = 0 then goTo .flush s else goTo (.pad (padCount s.output)) s

/-- After a codeword of COMPRESS: the next input byte, or, after EOS, the padding (R152; the terminator is the one symbol 256, log 14). -/
def afterCodeword (sym : Sym) (s : State) : State := if sym = eosSym then startPad s else goTo .read s

/-- The ReadBits8 micro-step of COMPRESS (R152). -/
def readStep (s : State) : State :=
  match readBits8 s.status.inEnd s.input with
  | .hold => holdIn s
  | .eoi => goTo (.lookup eosSym) (setEoi s)
  | .byte v q => goTo (.lookup (v.setWidth 9)) (countSymbol (setInput q s))

/-- After a padding bit: the next one, or Flush (R152). -/
def afterPad (left : Nat) (s : State) : State := if left ≤ 1 then goTo .flush s else goTo (.pad (left - 1)) s

/-- COMPRESS (R152). -/
def execCompress (s : State) : Result :=
  atPos s fun
    | .first => .next (goTo .read (clearSymCount s))
    | .read => .next (readStep s)
    | .lookup sym => .next (lookupStep (afterCodeword sym) sym s)
    | .code sym len j => .next (codeStep (afterCodeword sym) sym len j s)
    | .pad left => .next (writeStep false (afterPad left) s)
    | .flush => .next (flushStep s)
    | _ => .fault .positionNotOfCommand

end Sys2Proof.Machine
end

