-- ==== Sys2Proof/Machine/Symbol.lean ====
section
/-! DEFINITION. The single-symbol commands DECODE_SYMBOL (spec/41_symbol_decode.md), ENCODE_SYMBOL and FLUSH
(spec/42_symbol_encode.md). -/

namespace Sys2Proof.Machine

/-- DECODE_SYMBOL (R130): one decode; EndOfInput is the fault END_OF_INPUT with DATA = CONSUMED. -/
def execDecodeSymbol (s : State) : Result :=
  atPos s fun
    | .first => .next (startDecode (clearResult s))
    | .check stack visited eosSeen => .next (checkStep (goTo walkStart) stack visited eosSeen s)
    | .walk cur consumed => .next (walkStep (fun _ => finish) (raiseFault 5#4 0#4) cur consumed s)
    | _ => .fault .positionNotOfCommand

/-- ENCODE_SYMBOL (R140): one codeword from the table. -/
def execEncodeSymbol (sym : Sym) (s : State) : Result :=
  atPos s fun
    | .first => .next (goTo (.lookup sym) s)
    | .lookup x => .next (lookupStep finish x s)
    | .code x len j => .next (codeStep finish x len j s)
    | _ => .fault .positionNotOfCommand

/-- FLUSH (R141). -/
def execFlush (s : State) : Result :=
  atPos s fun
    | .first => .next (goTo .flush s)
    | .flush => .next (flushStep s)
    | _ => .fault .positionNotOfCommand

end Sys2Proof.Machine
end

