-- ==== Sys2Proof/Machine/Tree.lean ====
section
/-! DEFINITION. VALIDATE_TREE (spec/40_tree_check.md). -/

namespace Sys2Proof.Machine

/-- VALIDATE_TREE (R120): the tree check; DONE in its last iteration. -/
def execValidateTree (s : State) : Result :=
  atPos s fun
    | .first => .next (goTo checkStart s)
    | .check stack visited eosSeen => .next (checkStep finish stack visited eosSeen s)
    | _ => .fault .positionNotOfCommand

end Sys2Proof.Machine
end

