-- ==== Sys2Proof/Machine/Dispatch.lean ====
section
/-! DEFINITION. One micro-step of each command (spec/00_scope.md R9, spec/30_encoding.md R101). -/

namespace Sys2Proof.Machine

def exec (i : Instr) (s : State) : Host.Outcome State Fault Refusal :=
  match i with
  | .validateTree => Sys2Proof.Machine.execValidateTree s
  | .decodeSymbol => Sys2Proof.Machine.execDecodeSymbol s
  | .encodeSymbol sym => Sys2Proof.Machine.execEncodeSymbol sym s
  | .flush => Sys2Proof.Machine.execFlush s
  | .decompress => Sys2Proof.Machine.execDecompress s
  | .compress => Sys2Proof.Machine.execCompress s

end Sys2Proof.Machine
end

