-- ==== Sys2Proof/Machine/HostAccess.lean ====
section
/-! DEFINITION. The register window and the host's accesses (spec/20_memory.md R60 to R73, spec/10_state.md R22 to R41). -/

namespace Sys2Proof.Machine

/-- The registers and RAM words of the map (R61). -/
inductive Reg where
  | cmd | status | faultInfo | result | inData | ctrl | outData | fifoLevel | bitState | outBitcount | symCount | param0 | param1
  | node (i : Nat)
  | codeCfg (s : Nat)
  | codeBits (s k : Nat)
  deriving DecidableEq, Repr

/-- The registers below offset 0x1000, as R61 lists them. -/
def fixedMap : List (Nat × Reg) :=
  [(0x000, .cmd), (0x004, .status), (0x008, .faultInfo), (0x00C, .result), (0x010, .inData), (0x014, .ctrl), (0x018, .outData),
   (0x01C, .fifoLevel), (0x020, .bitState), (0x024, .outBitcount), (0x028, .symCount), (0x02C, .param0), (0x030, .param1)]

/-- The register at offset `off` of that list. -/
def findReg : List (Nat × Reg) → Nat → Option Reg
  | [], _ => none
  | (a, r) :: rest, off => if off = a then some r else findReg rest off

/-- The registers below offset 0x1000 (R61). -/
def fixedReg (off : Nat) : Option Reg := findReg fixedMap off

/-- What stands at word offset `off` (a multiple of 4), or nothing where the map has no register (R61). -/
def regAt (p : Params) (off : Nat) : Option Reg :=
  if off < 0x1000 then fixedReg off
  else if off < 0x2000 then
    if (off - 0x1000) / 4 < p.nNodes then some (.node ((off - 0x1000) / 4)) else none
  else if 256 < (off - 0x2000) / 64 then none
  else if (off - 0x2000) % 64 / 4 = 0 then some (.codeCfg ((off - 0x2000) / 64))
  else if (off - 0x2000) % 64 / 4 ≤ 8 then some (.codeBits ((off - 0x2000) / 64) ((off - 0x2000) % 64 / 4 - 1))
  else none

/-- The offset of a register (R61). -/
def regOffset : Reg → Nat
  | .cmd => 0x000
  | .status => 0x004
  | .faultInfo => 0x008
  | .result => 0x00C
  | .inData => 0x010
  | .ctrl => 0x014
  | .outData => 0x018
  | .fifoLevel => 0x01C
  | .bitState => 0x020
  | .outBitcount => 0x024
  | .symCount => 0x028
  | .param0 => 0x02C
  | .param1 => 0x030
  | .node i => 0x1000 + 4 * i
  | .codeCfg s => 0x2000 + 64 * s
  | .codeBits s k => 0x2000 + 64 * s + 4 + 4 * k

/-- A register that the machine with parameters `p` has (R61). -/
def regExists (p : Params) : Reg → Bool
  | .node i => decide (i < p.nNodes)
  | .codeCfg s => decide (s ≤ 256)
  | .codeBits s k => decide (s ≤ 256) && decide (k ≤ 7)
  | _ => true

/-- Rules (c) to (f) of R65: a write of `w` to a mapped register that is dropped in the present state. -/
def writeDropped (r : Reg) (w : Word) (s : State) : Bool :=
  match r with
  | .cmd => s.busy || s.status.fault
  | .node _ => s.busy
  | .codeCfg _ => s.busy
  | .codeBits _ _ => s.busy
  | .ctrl => s.busy && !w.getLsbD 31 && (w.getLsbD 1 || w.getLsbD 2)
  | .inData => s.status.inEnd
  | _ => false

/-- A write that is dropped; a read of a mapped register never is (R65). -/
def kindDropped (r : Reg) (k : AccessKind) (s : State) : Bool :=
  match k with
  | .read => false
  | .write w => writeDropped r w s

/-- The register an access reaches, or none where the access is dropped, checked in the order of R65. -/
def accessTarget (a : Access) (s : State) : Option Reg :=
  if a.size ≠ 4 ∨ a.offset.toNat % 4 ≠ 0 then none
  else
    match regAt s.params a.offset.toNat with
    | none => none
    | some r => if kindDropped r a.kind s then none else some r

/-- FIFO_LEVEL (R40). -/
def fifoLevelWord (s : State) : Word := BitVec.ofNat 16 s.output.fifo.length ++ BitVec.ofNat 16 s.input.fifo.length

/-- BIT_STATE (R40). -/
def bitStateWord (s : State) : Word := 0#21 ++ BitVec.ofNat 3 s.output.bits ++ 0#4 ++ BitVec.ofNat 4 s.input.bits

/-- PARAM0 (R41). -/
def param0Word (p : Params) : Word := 0#21 ++ BitVec.ofNat 11 p.nNodes

/-- PARAM1 (R41). -/
def param1Word (p : Params) : Word := BitVec.ofNat 16 p.outDepth ++ BitVec.ofNat 16 p.inDepth

/-- What a read of OUT_DATA returns: 0x00000100 OR the oldest output byte, or 0 (R39). -/
def outDataWord (p : OutPath) : Word :=
  match p.fifo with
  | [] => 0#32
  | b :: _ => 0x100#32 ||| b.setWidth 32

/-- The output path after a read of OUT_DATA: the oldest byte is removed (R39). -/
def popOut (p : OutPath) : OutPath := { p with fifo := p.fifo.tail }

/-- The value a read of register `r` returns (R66, R72). -/
def readReg (r : Reg) (s : State) : Word :=
  match r with
  | .cmd => s.cmd
  | .status => statusWord s.busy s.status
  | .faultInfo => s.faultInfo
  | .result => s.result
  | .inData => 0#32
  | .ctrl => 0#32
  | .outData => outDataWord s.output
  | .fifoLevel => fifoLevelWord s
  | .bitState => bitStateWord s
  | .outBitcount => s.output.count
  | .symCount => s.symCount
  | .param0 => param0Word s.params
  | .param1 => param1Word s.params
  | .node i => readNode s.rams i
  | .codeCfg x => readCfg s.rams x
  | .codeBits x k => readBits s.rams x k

/-- The state after a read of register `r`: only OUT_DATA has a side effect (R72). -/
def readEffect (r : Reg) (s : State) : State :=
  match r with
  | .outData => setOutput (popOut s.output) s
  | _ => s

/-- A write of `b` to IN_DATA (R68). -/
def offerByte (b : Byte) (s : State) : State :=
  if s.input.fifo.length < s.params.inDepth then setInput { s.input with fifo := s.input.fifo ++ [b] } s
  else { s with status := { s.status with inOvf := true } }

/-- CTRL.IN_CLEAR (R33, R69). -/
def clearIn (s : State) : State := { s with input := InPath.empty, status := { s.status with inEnd := false } }

/-- CTRL.IN_END_SET (R28, R33, R69). -/
def endInput (s : State) : State := { s with status := { s.status with inEnd := true } }

/-- CTRL.OUT_CLEAR (R33, R69). -/
def clearOut (s : State) : State := { s with output := OutPath.empty }

/-- A write of `w` to CTRL that is not dropped (R69): IN_CLEAR before IN_END_SET. -/
def writeCtrl (w : Word) (s : State) : State :=
  if w.getLsbD 31 then softReset s
  else
    let s1 := if w.getLsbD 1 then clearIn s else s
    let s2 := if w.getLsbD 0 then endInput s1 else s1
    if w.getLsbD 2 then clearOut s2 else s2

/-- A write of `w` to register `r` that is not dropped (R66 to R71). -/
def writeReg (r : Reg) (w : Word) (s : State) : State :=
  match r with
  | .cmd => acceptCommand w s
  | .status => writeStatus w s
  | .inData => offerByte (w.setWidth 8) s
  | .ctrl => writeCtrl w s
  | .node i => setTreeOk false { s with rams := writeNode i w s.rams }
  | .codeCfg x => { s with rams := writeCfg x w s.rams }
  | .codeBits x k => { s with rams := writeBits x k w s.rams }
  | .faultInfo => s
  | .result => s
  | .outData => s
  | .fifoLevel => s
  | .bitState => s
  | .outBitcount => s
  | .symCount => s
  | .param0 => s
  | .param1 => s

/-- The value of a read joins the host's observation (R219). -/
def observe (v : Word) (s : State) : State := { s with observed := s.observed ++ [v] }

/-- A dropped access sets ACC_ERR and nothing else (R65). -/
def setAccErr (s : State) : State := { s with status := { s.status with accErr := true } }

/-- A host access, atomic and never held (R73): dropped accesses set ACC_ERR and read 0 (R65). -/
def hostAccess (a : Access) (s : State) : State :=
  match accessTarget a s, a.kind with
  | none, .read => observe 0#32 (setAccErr s)
  | none, .write _ => setAccErr s
  | some r, .read => observe (readReg r s) (readEffect r s)
  | some r, .write w => writeReg r w s

/-- The window offset of a host address (R60): HSC_BASE to HSC_BASE + 0x7FFF; other addresses are the platform's (R62). -/
def windowOffset (p : Params) (addr : Nat) : Option (BitVec 15) :=
  if p.hscBase ≤ addr ∧ addr < p.hscBase + 0x8000 then some (BitVec.ofNat 15 (addr - p.hscBase)) else none

/-- The access that a host transfer at address `addr` is for the HSC, if it falls in the window (R60). -/
def accessAt (p : Params) (addr size : Nat) (k : AccessKind) : Option Access :=
  (windowOffset p addr).map fun off => { offset := off, size := size, kind := k }

end Sys2Proof.Machine
end

