-- ==== Sys2Proof/Machine/Turn.lean ====
section
/-! DEFINITION. Whose turn it is and what a turn does (spec/00_scope.md R8 to R10), and how a command word is placed to run. -/

namespace Sys2Proof.Machine

/-- The block's turn: one micro-step of the current command; nothing is enabled where none runs (R10). An illegal OP ends the command at
its first micro-step (R105). -/
def blockStep (s : State) : Result :=
  match s.current with
  | none => .next s
  | some c =>
    match decodeFields c.op c.sym with
    | .ok i => exec i s
    | .error (.illegalOp op) => .next (raiseFault 1#4 0#4 (op.setWidth 10) s)

/-- One turn of the run (R9): the head of the schedule, and the block's where nothing is scheduled (log 1). -/
def takeTurn (s : State) : Result :=
  match s.schedule with
  | [] => blockStep s
  | .block :: rest => blockStep { s with schedule := rest }
  | .access a :: rest => .next (hostAccess a { s with schedule := rest })
  | .hardReset :: rest => .next (hardReset { s with schedule := rest })

/-- The schedule in which the block moves next and nothing else is lost. -/
def blockNext (l : List Turn) : List Turn :=
  match l with
  | [] => []
  | .block :: rest => .block :: rest
  | .access a :: rest => .block :: .access a :: rest
  | .hardReset :: rest => .block :: .hardReset :: rest

/-- `s` with the command word `w` accepted as a host write to CMD accepts it (R67), and the block to move next (log 7). -/
def placeCommand (w : Word) (s : State) : State :=
  { acceptCommand w s with schedule := blockNext s.schedule }

/-- `n` micro-steps of the block with no host access between them. -/
def blockRun : Nat → State → Result
  | 0, s => .next s
  | n + 1, s =>
    match blockStep s with
    | .next t => blockRun n t
    | .fault f => .fault f
    | .refused r => .refused r

end Sys2Proof.Machine
end

