-- ==== Sys2Proof/Machine/Step.lean ====
section
/-! DEFINITION. The step: one turn of a run (spec/00_scope.md R9). -/

namespace Sys2Proof.Machine

/-- One step of the machine: a micro-step of the block, a host access or a hardware reset, as the schedule says. -/
def step (s : State) : Host.Outcome State Fault Refusal := takeTurn s

/-- `s` with the command word whose bits are `w` placed where the next step takes its command: the command is accepted as R67 says and
the block moves next (log 7). -/
def State.withFetchWord (s : State) (nbits w : Nat) : State := placeCommand (BitVec.ofNat 32 (w % 2 ^ nbits)) s

end Sys2Proof.Machine
end

