-- ==== Sys2Proof/Machine/HostTree.lean ====
section
/-! DEFINITION. The host reference of spec/44_host_tree_header.md: prefix trees, their header, their codewords and their canonical
layout in node RAM; and the file format of spec/43_stream.md R156. None of it is block behaviour; no step runs it. -/

namespace Sys2Proof.Machine

/-- The source's PrefixTree (R14): leaves hold symbols, internal nodes have exactly two children. -/
inductive PrefixTree where
  | leaf (s : Sym)
  | branch (l r : PrefixTree)
  deriving DecidableEq, Repr

/-- The number of nodes. -/
def treeSize : PrefixTree → Nat
  | .leaf _ => 1
  | .branch l r => 1 + treeSize l + treeSize r

/-- The number of leaves. -/
def leafCount : PrefixTree → Nat
  | .leaf _ => 1
  | .branch l r => leafCount l + leafCount r

/-- The leaves' symbols in pre-order. -/
def leafSyms : PrefixTree → List Sym
  | .leaf s => [s]
  | .branch l r => leafSyms l ++ leafSyms r

/-- The source's invariant of a well-formed tree: every leaf a symbol of R7, EOS at exactly one (R122 (c), (d)). -/
def treeWellFormed (t : PrefixTree) : Bool :=
  (leafSyms t).all (fun s => decide (s.toNat ≤ 256)) && decide ((leafSyms t).count 0x100#9 = 1)

/-- The 9 bits of a symbol, s[8] first (R170). -/
def symBits (s : Sym) : List Bool :=
  [s.getLsbD 8, s.getLsbD 7, s.getLsbD 6, s.getLsbD 5, s.getLsbD 4, s.getLsbD 3, s.getLsbD 2, s.getLsbD 1, s.getLsbD 0]

/-- WriteTreeBits (R170). -/
def writeTreeBits : PrefixTree → List Bool
  | .leaf s => false :: symBits s
  | .branch l r => true :: (writeTreeBits l ++ writeTreeBits r)

/-- The source's MalformedTree with its two causes (R172, C2). -/
inductive MalformedTree where
  /-- the data ended inside the tree -/
  | dataEnded
  /-- a 9-bit symbol value above 256 -/
  | notASymbol
  deriving DecidableEq, Repr

/-- The next 9 bits as a symbol, most significant first (R172). -/
def readSym : List Bool → Except MalformedTree (Sym × List Bool)
  | b8 :: b7 :: b6 :: b5 :: b4 :: b3 :: b2 :: b1 :: b0 :: rest =>
    let s : Sym := [b8, b7, b6, b5, b4, b3, b2, b1, b0].foldl (fun v b => v.shiftConcat b) 0#9
    if 256 < s.toNat then .error .notASymbol else .ok (s, rest)
  | _ => .error .dataEnded

/-- ReadTreeBits (R172). Every node takes at least one bit, so `fuel` above the number of bits never runs out. -/
def readTreeFuel : Nat → List Bool → Except MalformedTree (PrefixTree × List Bool)
  | 0, _ => .error .dataEnded
  | _ + 1, [] => .error .dataEnded
  | fuel + 1, true :: bits =>
    match readTreeFuel fuel bits with
    | .error e => .error e
    | .ok (l, bits1) =>
      match readTreeFuel fuel bits1 with
      | .error e => .error e
      | .ok (r, bits2) => .ok (.branch l r, bits2)
  | _ + 1, false :: bits =>
    match readSym bits with
    | .error e => .error e
    | .ok (s, bits1) => .ok (.leaf s, bits1)

/-- ReadTreeBits on a bit sequence (R172). -/
def readTreeBits (bits : List Bool) : Except MalformedTree (PrefixTree × List Bool) := readTreeFuel (bits.length + 1) bits

/-- The bits of a byte, bit 7 first (R84). -/
def byteBits (b : Byte) : List Bool :=
  [b.getLsbD 7, b.getLsbD 6, b.getLsbD 5, b.getLsbD 4, b.getLsbD 3, b.getLsbD 2, b.getLsbD 1, b.getLsbD 0]

/-- The bits of a byte sequence (R84). -/
def bytesBits (bs : List Byte) : List Bool := bs.flatMap byteBits

/-- Up to 8 bits as a byte, the first in bit 7, absent ones 0 (R84, R171). -/
def bitsByte (bits : List Bool) : Byte :=
  [0, 1, 2, 3, 4, 5, 6, 7].foldl (fun v j => v.shiftConcat (bits.getD j false)) 0#8

/-- `n` bytes packed from a bit sequence, padded with zero bits (R171). -/
def packBytes : Nat → List Bool → List Byte
  | 0, _ => []
  | n + 1, bits => bitsByte (bits.take 8) :: packBytes n (bits.drop 8)

/-- A bit sequence padded with zero bits to whole bytes (R171). -/
def packBits (bits : List Bool) : List Byte := packBytes ((bits.length + 7) / 8) bits

/-- The header of a tree (R170, R171). -/
def headerBytes (t : PrefixTree) : List Byte := packBits (writeTreeBits t)

/-- The host's header read: the tree and the payload, every byte after the header; the padding is not checked (R172). -/
def readHeader (file : List Byte) : Except MalformedTree (PrefixTree × List Byte) :=
  match readTreeBits (bytesBits file) with
  | .error e => .error e
  | .ok (t, rest) => .ok (t, file.drop (((bytesBits file).length - rest.length + 7) / 8))

/-- The source's file: the tree header, then the payload bytes (R156). -/
def fileBytes (t : PrefixTree) (payload : List Byte) : List Byte := headerBytes t ++ payload

/-- The codewords of a tree's leaves in pre-order, each a root-to-leaf path, 0 for left (R173). -/
def codewords : PrefixTree → List (Sym × List Bool)
  | .leaf s => [(s, [])]
  | .branch l r =>
    (codewords l).map (fun c => (c.1, false :: c.2)) ++ (codewords r).map (fun c => (c.1, true :: c.2))

/-- The word of a Leaf node (R174). -/
def leafWord (s : Sym) : Word := s.setWidth 32

/-- The word of a Branch node: 0x80000000 | (left << 16) | right (R174). -/
def branchWord (l r : NodeIndex) : Word := 0x80000000#32 ||| (l.setWidth 32 <<< 16) ||| r.setWidth 32

/-- The canonical node words of a tree whose root has index `k`: pre-order (R174). -/
def layoutFrom (k : Nat) : PrefixTree → List Word
  | .leaf s => [leafWord s]
  | .branch l r =>
    branchWord (BitVec.ofNat 10 (k + 1)) (BitVec.ofNat 10 (k + 1 + treeSize l)) ::
      (layoutFrom (k + 1) l ++ layoutFrom (k + 1 + treeSize l) r)

/-- The canonical node RAM layout (R174). -/
def layout (t : PrefixTree) : List Word := layoutFrom 0 t

/-- The CODE_CFG word of a codeword: VALID and its length (R104, R109). -/
def codewordCfg (bits : List Bool) : Word := 0x80000000#32 ||| BitVec.ofNat 32 bits.length

/-- The CODE_BITS word k of a codeword: its bits 32k to 32k + 31, the first in bit 31 (R104, R109). -/
def codewordWord (bits : List Bool) (k : Nat) : Word :=
  (List.range 32).foldl (fun w j => w.shiftConcat (bits.getD (32 * k + j) false)) 0#32

end Sys2Proof.Machine
end

