-- ==== Sys2Proof/Machine/HostProgram.lean ====
section
/-! DEFINITION. Host programs: the two operations and the pseudo-instructions of spec/30_encoding.md R108 and R109, with their exact
expansions into host accesses. A host program takes its turns in State.schedule. -/

namespace Sys2Proof.Machine

/-- A line of a host program: a target is a register or a numeric offset (R108, R109). WAIT_IDLE and DRAIN are loops of the host; here they carry the number of reads the loop makes
(log 22). -/
inductive HostLine where
  | wr (target : Reg) (value : Word)
  | rd (target : Reg)
  | wrAt (offset : BitVec 15) (value : Word)
  | rdAt (offset : BitVec 15)
  | validateTree
  | decodeSymbol
  | encodeSymbol (s : Sym)
  | flush
  | decompress
  | compress
  | push (bytes : List Byte)
  | endInput
  | clearIn
  | clearOut
  | softReset
  | clearFault
  | leaf (i : NodeIndex) (s : Sym)
  | branch (i l r : NodeIndex)
  | codeword (s : Sym) (bits : List Bool)
  | waitIdle (reads : Nat)
  | drain (reads : Nat)
  deriving DecidableEq, Repr

/-- `WR target, value`: a 32-bit host write (R108). DESIGN CHOICE (log 25): R61 has no node above 1023 and no slot above 256, and for a larger
index the model takes R108's offset modulo 0x8000, the size of the window. -/
def wrAccess (target : Reg) (value : Word) : Access :=
  { offset := BitVec.ofNat 15 (regOffset target), size := 4, kind := .write value }

/-- `RD target`: a 32-bit host read (R108); a larger index as in wrAccess (log 25). -/
def rdAccess (target : Reg) : Access := { offset := BitVec.ofNat 15 (regOffset target), size := 4, kind := .read }

/-- The expansion of a line (R109). -/
def expandLine : HostLine → List Access
  | .wr target value => [wrAccess target value]
  | .rd target => [rdAccess target]
  | .wrAt off value => [{ offset := off, size := 4, kind := .write value }]
  | .rdAt off => [{ offset := off, size := 4, kind := .read }]
  | .validateTree => [wrAccess .cmd 0x00000001#32]
  | .decodeSymbol => [wrAccess .cmd 0x00000002#32]
  | .encodeSymbol s => [wrAccess .cmd ((s.setWidth 32 <<< 16) ||| 0x3#32)]
  | .flush => [wrAccess .cmd 0x00000004#32]
  | .decompress => [wrAccess .cmd 0x00000005#32]
  | .compress => [wrAccess .cmd 0x00000006#32]
  | .push bytes => bytes.map (fun b => wrAccess .inData (b.setWidth 32))
  | .endInput => [wrAccess .ctrl 0x00000001#32]
  | .clearIn => [wrAccess .ctrl 0x00000002#32]
  | .clearOut => [wrAccess .ctrl 0x00000004#32]
  | .softReset => [wrAccess .ctrl 0x80000000#32]
  | .clearFault => [wrAccess .status 0x00000004#32]
  | .leaf i s => [wrAccess (.node i.toNat) (leafWord s)]
  | .branch i l r => [wrAccess (.node i.toNat) (branchWord l r)]
  | .codeword s bits =>
    wrAccess (.codeCfg s.toNat) (codewordCfg bits) ::
      (List.range 8).map (fun k => wrAccess (.codeBits s.toNat k) (codewordWord bits k))
  | .waitIdle reads => List.replicate reads (rdAccess .status)
  | .drain reads => List.replicate reads (rdAccess .outData)

/-- The accesses of a host program, in order (R86). -/
def expandProgram (lines : List HostLine) : List Access := lines.flatMap expandLine

/-- The host makes these accesses one after another, with no micro-step between them (one of the interleavings of R9). -/
def hostAccesses : List Access → State → State
  | [], s => s
  | a :: as, s => hostAccesses as (hostAccess a s)

/-- Loading words `ws` at NODE[k], NODE[k+1], ... (R174, R203 step 2). -/
def loadNodes : Nat → List Word → List Access
  | _, [] => []
  | k, w :: ws => wrAccess (.node k) w :: loadNodes (k + 1) ws

/-- Loading a tree in its canonical layout (R174). -/
def loadTree (t : PrefixTree) : List Access := loadNodes 0 (layout t)

/-! ### The host's loops, by the values their reads return -/

/-- WAIT_IDLE reads STATUS until BUSY, bit 0, is 0 (R109). -/
def endsWaitIdle (t : Word) : Bool := !t.getLsbD 0

/-- DRAIN reads OUT_DATA until VALID, bit 8, is 0 (R109). -/
def endsDrain (t : Word) : Bool := !t.getLsbD 8

/-- The values are those of one run of a loop: the last one ends it and no earlier one does. -/
def loopRun (ends : Word → Bool) : List Word → Bool
  | [] => false
  | [t] => ends t
  | t :: u :: rest => !ends t && loopRun ends (u :: rest)

/-- The bytes DRAIN lists: t[7:0] of every read that returned a byte (R109; log 22). -/
def drained (reads : List Word) : List Byte := (reads.filter (fun t => t.getLsbD 8)).map (fun t => t.setWidth 8)

/-! ### The host's part of the stream operations (R156, R203) -/

/-- Loading a table: a codeword for each of its symbols, VALID = 0 in every other slot (R203 step 3). -/
def loadTable (codes : List (Sym × List Bool)) : List Access :=
  (List.range 257).flatMap fun k =>
    match codes.find? (fun c => c.1.toNat = k) with
    | some c => expandLine (.codeword c.1 c.2)
    | none => [wrAccess (.codeCfg k) 0#32]

/-- Giving the input around a command, with at most `n` bytes before it. DESIGN CHOICE (log 26), since R218 lets the host set IN_END at any
time once the input is complete: where all bytes fit before the command, the end mark too comes before it (R156); otherwise the rest and
the end mark follow it (R203 step 5). -/
def feed (n : Nat) (command : HostLine) (bytes : List Byte) : List Access :=
  if bytes.length ≤ n then expandProgram [.push bytes, .endInput, command]
  else expandProgram [.push (bytes.take n), command, .push (bytes.drop n), .endInput]

/-- The host's accesses for a compression, but for its reads of OUT_DATA (R156). -/
def compressAccesses (codes : List (Sym × List Bool)) (n : Nat) (bytes : List Byte) : List Access :=
  loadTable codes ++ feed n .compress bytes

/-- The host's accesses for a decompression of a payload, but for its reads of OUT_DATA (R156). -/
def decompressAccesses (t : PrefixTree) (n : Nat) (payload : List Byte) : List Access :=
  loadTree t ++ feed n .decompress payload

end Sys2Proof.Machine
end

