-- ==== Sys2Proof/Safety.lean ====
section
/-! DEFINITION. What the claims are about: the bits of the two streams, the tree a node RAM holds, the table a code RAM holds, the rule
of dropped accesses read off the map, and the invariant of the machine. -/

namespace Sys2Proof.Machine

/-! ### Streams as bit sequences -/

/-- The low `n` bits of `v`, bit n - 1 first. -/
def lowBits {w : Nat} : Nat → BitVec w → List Bool
  | 0, _ => []
  | n + 1, v => v.getLsbD n :: lowBits n v

/-- The bits the input still holds, the next one first: IN_SR[IN_BITS-1:0], then the FIFO, MSB first (R38, R84). -/
def sourceBits (p : InPath) : List Bool := lowBits p.bits p.sr ++ bytesBits p.fifo

/-- The bits the output holds, the earliest first: the FIFO, MSB first, then OUT_ACC[OUT_BITS-1:0] (R36, R37, R84). -/
def sinkBits (p : OutPath) : List Bool := bytesBits p.fifo ++ lowBits p.bits p.acc

/-! ### Trees and tables in the RAMs -/

/-- Node RAM holds the tree at index `i` (R30, R103). -/
def storedAt (r : Rams) : NodeIndex → PrefixTree → Prop
  | i, .leaf s => nodeIsBranch (readNode r i.toNat) = false ∧ nodeSym (readNode r i.toNat) = s
  | i, .branch a b =>
    nodeIsBranch (readNode r i.toNat) = true ∧ storedAt r (nodeLeft (readNode r i.toNat)) a ∧
      storedAt r (nodeRight (readNode r i.toNat)) b

/-- The indices the tree at index `i` occupies, in pre-order. -/
def occupied (r : Rams) : NodeIndex → PrefixTree → List NodeIndex
  | i, .leaf _ => [i]
  | i, .branch a b =>
    i :: (occupied r (nodeLeft (readNode r i.toNat)) a ++ occupied r (nodeRight (readNode r i.toNat)) b)

/-- Node RAM holds the well-formed tree `t` at the root: indices in range, no node reached twice, symbols legal and EOS exactly once
(R122 (a) to (e)). -/
def holdsTree (p : Params) (r : Rams) (t : PrefixTree) : Prop :=
  storedAt r 0#10 t ∧ (occupied r 0#10 t).Nodup ∧ (∀ i ∈ occupied r 0#10 t, i.toNat < p.nNodes) ∧ treeWellFormed t = true

/-- `n` iterations of TreeCheck at most, and its verdict if it has one by then (R121). -/
def checkRun (p : Params) (r : Rams) : Nat → List NodeIndex → List NodeIndex → Bool → Option CheckOut
  | 0, _, _, _ => none
  | n + 1, stack, visited, eosSeen =>
    match checkIteration p r stack visited eosSeen with
    | .more st vis e => checkRun p r n st vis e
    | .bad sub data => some (.bad sub data)
    | .passed => some .passed

/-- The codeword code RAM holds for symbol `s`: LEN bits of its slot (R31, R104). -/
def slotCodeword (r : Rams) (s : Sym) : List Bool := (List.range (cfgLen (readCfg r s.toNat))).map (codeBit r s)

/-- Slot `s` is in the table, of a legal length (R31, R142). -/
def slotUsable (r : Rams) (s : Sym) : Prop :=
  s.toNat ≤ 256 ∧ cfgValid (readCfg r s.toNat) = true ∧ cfgLen (readCfg r s.toNat) ≤ 256

/-- Slot `s` holds, as R173 derives it from the tree, the codeword of a leaf of `t` that holds `s`. -/
def slotDerived (r : Rams) (t : PrefixTree) (s : Sym) : Prop :=
  slotUsable r s ∧ (s, slotCodeword r s) ∈ codewords t

/-- The code RAM is derived from tree `t` (R173): every slot with VALID = 1 holds the codeword of a leaf of `t` that holds its symbol. The
CODE_BITS words of a slot hold 256 bits, so a slot of a larger LEN holds no codeword. -/
def tableDerived (r : Rams) (t : PrefixTree) : Prop :=
  ∀ s : Sym, s.toNat ≤ 256 → cfgValid (readCfg r s.toNat) = true → slotDerived r t s

/-- Neither codeword begins with the other; so they differ (R173). -/
def prefixFree (a b : List Bool) : Prop := ¬ a <+: b ∧ ¬ b <+: a

/-- A byte as a symbol (R107). -/
def byteSym (b : Byte) : Sym := b.setWidth 9

/-- The bits COMPRESS writes before its padding: the codewords of the bytes, then the codeword of EOS (R152). -/
def compressedBits (r : Rams) (bytes : List Byte) : List Bool :=
  bytes.flatMap (fun b => slotCodeword r (byteSym b)) ++ slotCodeword r eosSym

/-! ### Dropped accesses, read off the map -/

/-- The offsets of the map (R61). -/
def mappedOffset (p : Params) (off : Nat) : Prop :=
  (off ≤ 0x030 ∧ off % 4 = 0) ∨ (∃ i, i < p.nNodes ∧ off = 0x1000 + 4 * i) ∨ (∃ s, s ≤ 256 ∧ off = 0x2000 + 64 * s) ∨
    (∃ s k, s ≤ 256 ∧ k ≤ 7 ∧ off = 0x2000 + 64 * s + 4 + 4 * k)

/-- A read of the word at offset `off` returns `w` to the host and changes nothing (R72). -/
def State.readsAt (s : State) (off : BitVec 15) (w : Word) : Prop :=
  hostAccess { offset := off, size := 4, kind := .read } s = { s with observed := s.observed ++ [w] }

/-- A RAM offset of the map (R61): NODE, CODE_CFG and CODE_BITS start at 0x1000. -/
def ramOffset (off : Nat) : Prop := 0x1000 ≤ off

/-- The rules (a) to (f) of R65. -/
def dropRule (a : Access) (s : State) : Prop :=
  a.size ≠ 4 ∨ a.offset.toNat % 4 ≠ 0 ∨ ¬ mappedOffset s.params a.offset.toNat ∨
    ∃ w, a.kind = .write w ∧
      ((a.offset.toNat = 0x000 ∧ (s.busy = true ∨ s.status.fault = true)) ∨
       (ramOffset a.offset.toNat ∧ s.busy = true) ∨
       (a.offset.toNat = 0x014 ∧ s.busy = true ∧ w.getLsbD 31 = false ∧ (w.getLsbD 1 = true ∨ w.getLsbD 2 = true)) ∨
       (a.offset.toNat = 0x010 ∧ s.status.inEnd = true))

/-! ### The invariant -/

/-- The values a check position can hold (R43). -/
def checkOk (p : Params) (stack visited : List NodeIndex) : Prop :=
  stack.length ≤ visited.length + 1 ∧ visited.Nodup ∧ ∀ i ∈ visited, i.toNat < p.nNodes

/-- The values a codeword position can hold (R142). -/
def codeOk (r : Rams) (sym : Sym) (len j : Nat) : Prop := slotUsable r sym ∧ cfgLen (readCfg r sym.toNat) = len ∧ j < len

/-- The positions of each command's micro-step list, with the values they can hold (R44, R120, R130, R140, R141, R150, R152). -/
def posOk (s : State) (i : Instr) (pos : Pos) : Prop :=
  match pos with
  | .first => True
  | .check stack visited _ =>
    (i = .validateTree ∨ i = .decodeSymbol ∨ i = .decompress) ∧ checkOk s.params stack visited
  | .walk _ _ => (i = .decodeSymbol ∨ i = .decompress) ∧ s.status.treeOk = true
  | .emit r k => i = .decompress ∧ s.status.treeOk = true ∧ r ≠ eosSym ∧ k ≤ 7
  | .read => i = .compress
  | .lookup x => i = .encodeSymbol x ∨ (i = .compress ∧ x.toNat ≤ 256)
  | .code x len j => (i = .encodeSymbol x ∨ i = .compress) ∧ codeOk s.rams x len j
  | .pad left => i = .compress ∧ 1 ≤ left ∧ s.output.bits + left = 8
  | .flush => i = .flush ∨ i = .decompress ∨ (i = .compress ∧ s.output.bits = 0)

/-- The current command is the one CMD holds, at one of its positions; an illegal one has not moved (R44, R67, R105). -/
def commandOk (s : State) (c : Command) : Prop :=
  c.op = opField s.cmd ∧ c.sym = symField s.cmd ∧
    match decodeFields c.op c.sym with
    | .ok i => posOk s i c.pos
    | .error _ => c.pos = .first

/-- A micro-step that reads input bits (R80, R81). -/
def readsInput : Pos → Bool
  | .walk _ _ => true
  | .read => true
  | .first => false
  | .check _ _ _ => false
  | .emit _ _ => false
  | .lookup _ => false
  | .code _ _ _ => false
  | .pad _ => false
  | .flush => false

/-- A micro-step that writes output bits (R82, R83). -/
def writesOutput : Pos → Bool
  | .emit _ _ => true
  | .code _ _ _ => true
  | .pad _ => true
  | .flush => true
  | .first => false
  | .check _ _ _ => false
  | .walk _ _ => false
  | .read => false
  | .lookup _ => false

/-- The fault records R180 lists: code 0 with nothing, or 1 to 5, a sub-code 1 to 5 with code 2 only, reserved bits 0. -/
def faultRecordOk (w : Word) : Bool :=
  decide (w &&& 0x03FF00FF#32 = w) &&
  (decide (w = 0#32) ||
   (decide (1 ≤ (w.extractLsb' 0 4).toNat) && decide ((w.extractLsb' 0 4).toNat ≤ 5) &&
    (if (w.extractLsb' 0 4).toNat = 2 then decide (1 ≤ (w.extractLsb' 4 4).toNat) && decide ((w.extractLsb' 4 4).toNat ≤ 5)
     else decide (w.extractLsb' 4 4 = 0#4))))

/-- The canonical form of the three RAMs (log 5), each word of its stored form (R30, R31). -/
def ramsOk (p : Params) (r : Rams) : Bool :=
  ramWf p.nNodes Word.isNodeForm r.node && ramWf 257 Word.isCfgForm r.cfg && ramWf 2056 (fun _ => true) r.bits

/-- The invariant of the machine: what every run keeps. -/
structure State.Inv (s : State) : Prop where
  /-- the parameters are legal (R5) -/
  params : s.params.wellFormed = true
  /-- the RAMs are in canonical form with stored forms (R30, R31) -/
  rams : ramsOk s.params s.rams = true
  /-- the input FIFO holds at most IN_FIFO_DEPTH bytes (R38) -/
  inFifo : s.input.fifo.length ≤ s.params.inDepth
  /-- IN_BITS is 0 to 8 (R38) -/
  inBits : s.input.bits ≤ 8
  /-- the output FIFO holds at most OUT_FIFO_DEPTH bytes (R37) -/
  outFifo : s.output.fifo.length ≤ s.params.outDepth
  /-- OUT_BITS is 0 to 7 (R36) -/
  outBits : s.output.bits ≤ 7
  /-- OUT_ACC[6:OUT_BITS] are 0 (R36) -/
  outAcc : s.output.acc.toNat < 2 ^ s.output.bits
  /-- OUT_BITCOUNT mod 8 = OUT_BITS (R34) -/
  outCount : s.output.count.toNat % 8 = s.output.bits
  /-- CMD holds a stored form (R22) -/
  cmdForm : s.cmd.isCommandForm = true
  /-- RESULT's reserved bits are 0 (R32) -/
  resultForm : s.result.isCfgForm = true
  /-- FAULT_INFO records a fault of R180 -/
  faultRecord : faultRecordOk s.faultInfo = true
  /-- FAULT = 1 exactly while a fault is recorded (R29, R183, R185) -/
  faultFlag : s.status.fault = true ↔ s.faultInfo ≠ 0#32
  /-- DONE and FAULT are not both 1 (R67, R183) -/
  oneEnd : ¬ (s.status.done = true ∧ s.status.fault = true)
  /-- TRUNC comes with EOI and without EOS (R150, R151) -/
  trunc : s.status.trunc = true → s.status.eoi = true ∧ s.status.eos = false
  /-- WAIT_IN and WAIT_OUT are not both 1 (R24) -/
  oneWait : ¬ (s.status.waitIn = true ∧ s.status.waitOut = true)
  /-- both WAIT bits are 0 while BUSY = 0 (R24) -/
  idleWait : s.current = none → s.status.waitIn = false ∧ s.status.waitOut = false
  /-- a running command is CMD's, at one of its positions (R44) -/
  command : ∀ c, s.current = some c → commandOk s c
  /-- DONE and FAULT are 0 while a command runs (R67, R186) -/
  running : s.current ≠ none → s.status.done = false ∧ s.status.fault = false
  /-- EOS and TRUNC are 0 while a command runs, but at the Flush of DECOMPRESS (R67, R131, R150, R151) -/
  endFlags : ∀ c, s.current = some c → c.pos ≠ .flush → s.status.eos = false ∧ s.status.trunc = false
  /-- WAIT_IN only at a micro-step that reads input (R80, R81) -/
  waitIn : s.status.waitIn = true → ∀ c, s.current = some c → readsInput c.pos = true
  /-- WAIT_OUT only at a micro-step that writes output (R82, R83) -/
  waitOut : s.status.waitOut = true → ∀ c, s.current = some c → writesOutput c.pos = true

/-- What TREE_OK = 1 promises (R26, R122): node RAM holds a well-formed tree; and a check under way that passes is right. -/
def State.TreeInv (s : State) : Prop :=
  (s.status.treeOk = true → ∃ t, holdsTree s.params s.rams t) ∧
    ∀ c stack visited eosSeen, s.current = some c → c.pos = .check stack visited eosSeen →
      ∀ n, checkRun s.params s.rams n stack visited eosSeen = some .passed → ∃ t, holdsTree s.params s.rams t

/-- The block starts command `i` at state `s`: accepted, nothing of it done yet (R67). -/
def startsCommand (i : Instr) (s : State) : Prop :=
  ∃ c, s.current = some c ∧ decodeFields c.op c.sym = .ok i ∧ c.pos = .first

end Sys2Proof.Machine
end

