-- ==== Sys2Proof/Certificates/Slice0/Obligations.lean ====
section
/-! DEFINITION. The statements about the HSC, from the numbered rules of spec/. A statement about every state is a statement about every
parameter choice, every RAM content and every interleaving of host accesses and micro-steps. -/

open Sys2Proof Sys2Proof.Machine

/-! ### Encoding -/

/-- The words of R109 and of R140's examples decode to their commands; three words, with OP 0, 7 and 15, are refused by name (R101, R105). -/
def Obligations.TableWordsDecode : Prop :=
  decode 0x00000001#32 = .ok .validateTree ∧ decode 0x00000002#32 = .ok .decodeSymbol ∧
  decode 0x00410003#32 = .ok (.encodeSymbol 0x41#9) ∧ decode 0x01000003#32 = .ok (.encodeSymbol 0x100#9) ∧
  decode 0x00000004#32 = .ok .flush ∧ decode 0x00000005#32 = .ok .decompress ∧ decode 0x00000006#32 = .ok .compress ∧
  decode 0x00000000#32 = .error (.illegalOp 0#4) ∧ decode 0x00000007#32 = .error (.illegalOp 7#4) ∧
  decode 0x0041000F#32 = .error (.illegalOp 15#4)

/-- A word is command i exactly when its OP, and for ENCODE_SYMBOL its SYM, are those of i; nothing else of the word matters
(R100, R101, R102). -/
def Obligations.DecodeReadsUsedBitsOnly : Prop :=
  ∀ (w : Word) (i : Instr), decode w = .ok i ↔
    w &&& (match i with | .encodeSymbol _ => 0x01FF000F#32 | _ => 0x0000000F#32) = encode i

/-- Decoding gives back every command, with every SYM, from its word, whatever the ignored bits hold (R100, R105). -/
def Obligations.DecodeOfEncode : Prop :=
  ∀ (i : Instr) (ignored : Word), decode (encode i ||| (ignored &&& ~~~ usedMask i)) = .ok i

/-- The illegal words are those with OP 0x0 or 0x7 to 0xF, and the refusal names their OP (R101, R105). -/
def Obligations.IllegalOpcodesRejected : Prop :=
  ∀ (w : Word) (op : BitVec 4), decode w = .error (.illegalOp op) ↔
    op = opField w ∧ (w.toNat % 16 = 0 ∨ 7 ≤ w.toNat % 16)

/-! ### Reset -/

/-- The reset state (R45, R202): every register and flag reads 0, both streams are empty, the block is idle, and each RAM word has its
stored form. The parameter values, the empty schedule and the empty observation are the model's (log 1, log 2). -/
def Obligations.ResetState : Prop :=
  State.reset.busy = false ∧
  (∀ r ∈ [Reg.cmd, .status, .faultInfo, .result, .inData, .ctrl, .outData, .fifoLevel, .bitState, .outBitcount, .symCount],
    readReg r State.reset = 0#32) ∧
  sourceBits State.reset.input = [] ∧ State.reset.input.sr = 0#8 ∧ sinkBits State.reset.output = [] ∧
  State.reset.output.acc = 0#7 ∧
  (∀ i, (readNode State.reset.rams i).isNodeForm = true) ∧ (∀ x, (readCfg State.reset.rams x).isCfgForm = true)

/-- A hardware reset, at any state (R200, R45): every piece of state takes its reset value, a command in progress is abandoned with no
fault recorded, and the RAMs hold words of their stored forms. -/
def Obligations.HardwareReset : Prop :=
  ∀ (s : State) (rest : List Turn), ∃ t, step { s with schedule := .hardReset :: rest } = .next t ∧
    t.current = none ∧ t.cmd = 0#32 ∧ statusWord t.busy t.status = 0#32 ∧ t.faultInfo = 0#32 ∧ t.result = 0#32 ∧
    t.symCount = 0#32 ∧ t.input = { fifo := [], sr := 0#8, bits := 0 } ∧
    t.output = { fifo := [], acc := 0#7, bits := 0, count := 0#32 } ∧ t.params = s.params ∧
    (∀ i, (readNode t.rams i).isNodeForm = true) ∧ (∀ x, (readCfg t.rams x).isCfgForm = true)

/-- A soft reset (R201, R69): accepted in any state, also while BUSY or FAULT; as a hardware reset, and the RAMs keep their contents. -/
def Obligations.SoftReset : Prop :=
  ∀ (s : State) (w : Word), w.getLsbD 31 = true →
    hostAccess { offset := 0x014#15, size := 4, kind := .write w } s =
      { params := s.params, cmd := 0#32, current := none,
        status :=
          { done := false, fault := false, eos := false, eoi := false, trunc := false, treeOk := false, inOvf := false,
            accErr := false, waitIn := false, waitOut := false, inEnd := false },
        faultInfo := 0#32, result := 0#32, symCount := 0#32, rams := s.rams, input := { fifo := [], sr := 0#8, bits := 0 },
        output := { fifo := [], acc := 0#7, bits := 0, count := 0#32 }, schedule := s.schedule, observed := s.observed }

/-! ### Host accesses -/

/-- An access that one of the rules (a) to (f) of R65 drops sets ACC_ERR and changes nothing else; a dropped read returns 0. -/
def Obligations.DroppedAccess : Prop :=
  ∀ (a : Access) (s : State), dropRule a s →
    hostAccess a s =
      { s with
        status := { s.status with accErr := true },
        observed := match a.kind with | .read => s.observed ++ [0#32] | .write _ => s.observed }

/-- An access that no rule of R65 drops reaches the register of the map at its offset (R61) and reads or writes it. -/
def Obligations.PerformedAccess : Prop :=
  ∀ (a : Access) (s : State), s.params.wellFormed = true → ¬ dropRule a s →
    ∃ r, regExists s.params r = true ∧ regOffset r = a.offset.toNat ∧
      hostAccess a s =
        match a.kind with
        | .read => { readEffect r s with observed := s.observed ++ [readReg r s] }
        | .write w => writeReg r w s

/-- The map of R61: at each literal offset its register, nothing at an offset that R61 does not list, and so every register that exists has
its own offset. -/
def Obligations.RegisterMap : Prop :=
  ∀ (p : Params), p.wellFormed = true →
    (∀ e ∈ [(0x000, Reg.cmd), (0x004, .status), (0x008, .faultInfo), (0x00C, .result), (0x010, .inData), (0x014, .ctrl),
        (0x018, .outData), (0x01C, .fifoLevel), (0x020, .bitState), (0x024, .outBitcount), (0x028, .symCount), (0x02C, .param0),
        (0x030, .param1)],
      regAt p e.1 = some e.2) ∧
    (∀ i, i < p.nNodes → regAt p (0x1000 + 4 * i) = some (.node i)) ∧
    (∀ x, x ≤ 256 → regAt p (0x2000 + 64 * x) = some (.codeCfg x)) ∧
    (∀ x k, x ≤ 256 → k ≤ 7 → regAt p (0x2000 + 64 * x + 4 + 4 * k) = some (.codeBits x k)) ∧
    (∀ off, off % 4 = 0 → ¬ mappedOffset p off → regAt p off = none) ∧
    ∀ (r : Reg), regExists p r = true → regOffset r < 0x8000 ∧ regOffset r % 4 = 0 ∧ regAt p (regOffset r) = some r

/-- Reads. A read of any register but OUT_DATA returns its value and changes nothing; a read of OUT_DATA removes and returns the oldest output
byte with VALID = bit 8, and returns 0 and changes nothing when the FIFO is empty (R72, R39). At each literal offset of R61 the word returned,
field by field for the views FIFO_LEVEL, BIT_STATE, PARAM0 and PARAM1 (R40, R41); the bounds assumed are those of R5 and R36 to R38, which
StepKeepsInvariant keeps. -/
def Obligations.ReadSideEffects : Prop :=
  (∀ (r : Reg) (s : State), s.params.wellFormed = true → regExists s.params r = true → r ≠ .outData →
    s.readsAt (BitVec.ofNat 15 (regOffset r)) (readReg r s)) ∧
  (∀ (s : State) (b : Byte) (rest : List Byte), s.output.fifo = b :: rest →
    hostAccess { offset := 0x018#15, size := 4, kind := .read } s =
      { s with
        output := { s.output with fifo := rest },
        observed := s.observed ++ [BitVec.ofNat 32 (0x100 + b.toNat)] }) ∧
  (∀ (s : State), s.output.fifo = [] → s.readsAt 0x018#15 0#32) ∧
  (∀ (s : State), s.readsAt 0x000#15 s.cmd ∧ s.readsAt 0x008#15 s.faultInfo ∧ s.readsAt 0x00C#15 s.result ∧
    s.readsAt 0x010#15 0#32 ∧ s.readsAt 0x014#15 0#32 ∧ s.readsAt 0x024#15 s.output.count ∧ s.readsAt 0x028#15 s.symCount) ∧
  (∀ (s : State), s.input.fifo.length ≤ 65535 → s.output.fifo.length ≤ 65535 →
    s.readsAt 0x01C#15 (BitVec.ofNat 32 (s.output.fifo.length * 0x10000 + s.input.fifo.length))) ∧
  (∀ (s : State), s.input.bits ≤ 8 → s.output.bits ≤ 7 →
    s.readsAt 0x020#15 (BitVec.ofNat 32 (s.output.bits * 0x100 + s.input.bits))) ∧
  ∀ (s : State), s.params.wellFormed = true →
    s.readsAt 0x02C#15 (BitVec.ofNat 32 s.params.nNodes) ∧
    s.readsAt 0x030#15 (BitVec.ofNat 32 (s.params.outDepth * 0x10000 + s.params.inDepth)) ∧
    (∀ i, i < s.params.nNodes → s.readsAt (BitVec.ofNat 15 (0x1000 + 4 * i)) (readNode s.rams i)) ∧
    (∀ x, x ≤ 256 → s.readsAt (BitVec.ofNat 15 (0x2000 + 64 * x)) (readCfg s.rams x)) ∧
    ∀ x k, x ≤ 256 → k ≤ 7 → s.readsAt (BitVec.ofNat 15 (0x2000 + 64 * x + 4 + 4 * k)) (readBits s.rams x k)

/-- The STATUS register. A read, in any state, gives each flag at its bit and 0 in the reserved bits 31:12; a write, in any state, clears the
W1C bits DONE, FAULT, IN_OVF and ACC_ERR whose wdata bit is 1, zeroes FAULT_INFO with FAULT, and changes nothing else (R23, R29, R185). -/
def Obligations.StatusRegister : Prop :=
  ∀ (s : State),
    (∃ w, hostAccess { offset := 0x004#15, size := 4, kind := .read } s = { s with observed := s.observed ++ [w] } ∧
      w.getLsbD 0 = s.current.isSome ∧ w.getLsbD 1 = s.status.done ∧ w.getLsbD 2 = s.status.fault ∧
      w.getLsbD 3 = s.status.eos ∧ w.getLsbD 4 = s.status.eoi ∧ w.getLsbD 5 = s.status.trunc ∧
      w.getLsbD 6 = s.status.treeOk ∧ w.getLsbD 7 = s.status.inOvf ∧ w.getLsbD 8 = s.status.accErr ∧
      w.getLsbD 9 = s.status.waitIn ∧ w.getLsbD 10 = s.status.waitOut ∧ w.getLsbD 11 = s.status.inEnd ∧
      ∀ k, 12 ≤ k → w.getLsbD k = false) ∧
    ∀ (w : Word), hostAccess { offset := 0x004#15, size := 4, kind := .write w } s =
      { s with
        status :=
          { s.status with
            done := if w.getLsbD 1 then false else s.status.done,
            fault := if w.getLsbD 2 then false else s.status.fault,
            inOvf := if w.getLsbD 7 then false else s.status.inOvf,
            accErr := if w.getLsbD 8 then false else s.status.accErr },
        faultInfo := if w.getLsbD 2 then 0#32 else s.faultInfo }

/-- A write to an RO register changes nothing and sets no ACC_ERR; a read of a WO register returns 0 (R66). -/
def Obligations.ReadOnlyAndWriteOnly : Prop :=
  ∀ (s : State) (w : Word),
    (∀ off ∈ [0x008#15, 0x00C#15, 0x018#15, 0x01C#15, 0x020#15, 0x024#15, 0x028#15, 0x02C#15, 0x030#15],
      hostAccess { offset := off, size := 4, kind := .write w } s = s) ∧
    (∀ off ∈ [0x010#15, 0x014#15],
      hostAccess { offset := off, size := 4, kind := .read } s = { s with observed := s.observed ++ [0#32] })

/-- A write to CMD is accepted while BUSY = 0 and FAULT = 0: CMD keeps OP and SYM, the flags of the last command are cleared and the
command starts at its first micro-step; OP is not decoded. While BUSY = 1 the write is dropped: no command is queued (R67, R22, R65). -/
def Obligations.CommandAccepted : Prop :=
  ∀ (s : State) (w : Word),
    (s.current = none → s.status.fault = false →
      hostAccess { offset := 0x000#15, size := 4, kind := .write w } s =
        { s with
          cmd := w &&& 0x01FF000F#32,
          status := { s.status with done := false, eos := false, eoi := false, trunc := false },
          current :=
            some { op := BitVec.ofNat 4 w.toNat, sym := BitVec.ofNat 9 (w.toNat / 0x10000), pos := .first } }) ∧
    (s.current ≠ none →
      hostAccess { offset := 0x000#15, size := 4, kind := .write w } s = { s with status := { s.status with accErr := true } })

/-- A write to IN_DATA that is not dropped appends wdata[7:0] where the FIFO has room and otherwise sets IN_OVF; BUSY does not matter
(R68, R39). -/
def Obligations.InDataWrite : Prop :=
  ∀ (s : State) (w : Word), s.status.inEnd = false →
    hostAccess { offset := 0x010#15, size := 4, kind := .write w } s =
      if s.input.fifo.length < s.params.inDepth then
        { s with input := { s.input with fifo := s.input.fifo ++ [BitVec.ofNat 8 w.toNat] } }
      else { s with status := { s.status with inOvf := true } }

/-- A write to CTRL without SOFT_RESET that is not dropped: IN_CLEAR, then IN_END_SET, then OUT_CLEAR (R69, R33). -/
def Obligations.ControlWrite : Prop :=
  ∀ (s : State) (w : Word), w.getLsbD 31 = false →
    (s.current = none ∨ (w.getLsbD 1 = false ∧ w.getLsbD 2 = false)) →
    hostAccess { offset := 0x014#15, size := 4, kind := .write w } s =
      { s with
        input := if w.getLsbD 1 then { fifo := [], sr := 0#8, bits := 0 } else s.input,
        status := { s.status with inEnd := w.getLsbD 0 || (s.status.inEnd && !w.getLsbD 1) },
        output := if w.getLsbD 2 then { fifo := [], acc := 0#7, bits := 0, count := 0#32 } else s.output }

/-- A NODE write while BUSY = 0 stores the stored form of R30 in that word alone and clears TREE_OK (R70, R30). -/
def Obligations.NodeWrite : Prop :=
  ∀ (s : State) (i : Nat) (w : Word), s.params.wellFormed = true → i < s.params.nNodes → s.current = none →
    ∃ t, hostAccess { offset := BitVec.ofNat 15 (0x1000 + 4 * i), size := 4, kind := .write w } s = t ∧
      readNode t.rams i = (if w.getLsbD 31 then w &&& 0x83FF03FF#32 else w &&& 0x000001FF#32) ∧
      (∀ j, j ≠ i → readNode t.rams j = readNode s.rams j) ∧ (∀ x, readCfg t.rams x = readCfg s.rams x) ∧
      (∀ x k, readBits t.rams x k = readBits s.rams x k) ∧
      t = { s with status := { s.status with treeOk := false }, rams := t.rams }

/-- A code RAM write while BUSY = 0 stores wdata AND 0x800001FF in a CODE_CFG and wdata in a CODE_BITS word, in that word alone; TREE_OK is
not changed (R71, R31). -/
def Obligations.CodeWrite : Prop :=
  ∀ (s : State) (x k : Nat) (w : Word), x ≤ 256 → k ≤ 7 → s.current = none →
    (∃ t, hostAccess { offset := BitVec.ofNat 15 (0x2000 + 64 * x), size := 4, kind := .write w } s = t ∧
      readCfg t.rams x = w &&& 0x800001FF#32 ∧ (∀ y, y ≠ x → readCfg t.rams y = readCfg s.rams y) ∧
      (∀ j, readNode t.rams j = readNode s.rams j) ∧ (∀ y j, readBits t.rams y j = readBits s.rams y j) ∧
      t = { s with rams := t.rams }) ∧
    (∃ t, hostAccess { offset := BitVec.ofNat 15 (0x2000 + 64 * x + 4 + 4 * k), size := 4, kind := .write w } s = t ∧
      readBits t.rams x k = w ∧ (∀ y j, j ≤ 7 → (y ≠ x ∨ j ≠ k) → readBits t.rams y j = readBits s.rams y j) ∧
      (∀ j, readNode t.rams j = readNode s.rams j) ∧ (∀ y, readCfg t.rams y = readCfg s.rams y) ∧
      t = { s with rams := t.rams })

/-! ### Stream primitives -/

/-- ReadBit takes the first bit of the source, or is held or returns EOI where the source is empty (R80, R84). -/
def Obligations.ReadBitTakesFirstBit : Prop :=
  ∀ (ended : Bool) (p : InPath),
    (sourceBits p = [] → readBit ended p = if ended then .eoi else .hold) ∧
    (∀ b rest, sourceBits p = b :: rest → ∃ q, readBit ended p = .bit b q ∧ sourceBits q = rest)

/-- ReadBits8 takes the first 8 bits, the first as bit 7, or none at all: with fewer than 8 it is held, or returns EOI where the input has
ended (R81, R84). With IN_BITS = 0 it returns the oldest byte. -/
def Obligations.ReadByteAllOrNothing : Prop :=
  ∀ (ended : Bool) (p : InPath),
    ((sourceBits p).length < 8 → readBits8 ended p = if ended then .eoi else .hold) ∧
    (∀ v rest, sourceBits p = byteBits v ++ rest → ∃ q, readBits8 ended p = .byte v q ∧ sourceBits q = rest) ∧
    (∀ b bs, p.bits = 0 → p.fifo = b :: bs → ∃ q, readBits8 ended p = .byte b q ∧ q.fifo = bs ∧ q.bits = 0)

/-- WriteBit appends one bit to the sink and counts it; only a bit that completes a byte waits, for a FIFO place (R82, R84). -/
def Obligations.WriteBitAppends : Prop :=
  ∀ (depth : Nat) (b : Bool) (p : OutPath), p.bits ≤ 7 →
    (writeBit depth b p = none ↔ p.bits = 7 ∧ p.fifo.length = depth) ∧
    ∀ q, writeBit depth b p = some q →
      sinkBits q = sinkBits p ++ [b] ∧ q.count = p.count + 1#32 ∧ q.bits = (p.bits + 1) % 8 ∧
      q.fifo.length = p.fifo.length + (p.bits + 1) / 8

/-- Flush completes the partial byte with zero bits, which it counts; with no partial byte it does nothing (R83). -/
def Obligations.FlushPads : Prop :=
  ∀ (depth : Nat) (p : OutPath), p.bits ≤ 7 → p.acc.toNat < 2 ^ p.bits →
    (flushOut depth p = none ↔ p.bits ≠ 0 ∧ p.fifo.length = depth) ∧
    (p.bits = 0 → flushOut depth p = some p) ∧
    ∀ q, p.bits ≠ 0 → flushOut depth p = some q →
      sinkBits q = sinkBits p ++ List.replicate (8 - p.bits) false ∧ q.bits = 0 ∧ q.acc = 0#7 ∧
      q.count = p.count + BitVec.ofNat 32 (8 - p.bits) ∧ q.fifo.length = p.fifo.length + 1

/-! ### The step -/

/-- One step is one turn: the block's turn runs one micro-step of the decoded current command on the state whose turn was taken, a host
turn is one access; where no command runs, nothing is enabled and the block's turn leaves the state (R9, R10, R21). -/
def Obligations.StepRunsTheCommand : Prop :=
  ∀ (s : State) (rest : List Turn),
    (∀ c i, s.current = some c → decodeFields c.op c.sym = .ok i →
      (s.schedule = [] → step s = exec i s) ∧
      (s.schedule = .block :: rest → step s = exec i { s with schedule := rest })) ∧
    (s.current = none →
      (s.schedule = [] → step s = .next s) ∧ (s.schedule = .block :: rest → step s = .next { s with schedule := rest })) ∧
    (∀ a, s.schedule = .access a :: rest → step s = .next (hostAccess a { s with schedule := rest }))

/-- A command with an illegal OP ends at its first micro-step with fault ILLEGAL_CMD and DATA = OP, changing no other state
(R105, R180, R183); so does the step whose turn is the block's, scheduled or by an empty schedule, which is the model's choice (log 1). -/
def Obligations.IllegalCommandFaults : Prop :=
  ∀ (s : State) (c : Command) (rest : List Turn), s.current = some c → (c.op = 0#4 ∨ 7 ≤ c.op.toNat) →
    ∃ t, t =
      { s with
        current := none,
        faultInfo := BitVec.ofNat 32 (c.op.toNat * 0x10000 + 1),
        status := { s.status with fault := true, waitIn := false, waitOut := false } } ∧
    blockStep s = .next t ∧ (s.schedule = [] → step s = .next t) ∧
    (s.schedule = .block :: rest → step s = .next { t with schedule := rest })

/-! ### The micro-steps of the commands -/

/-- The first micro-step of each command and the state it clears; the decode commands check the tree where TREE_OK = 0
(R120, R130, R140, R141, R150, R152). That the loop's initial values and the test of TREE_OK belong to this micro-step is the model's
reading (log 8). -/
def Obligations.FirstMicroSteps : Prop :=
  ∀ (s : State) (op : BitVec 4) (y x : Sym), s.current = some { op := op, sym := y, pos := .first } →
    ∃ st, st = { s.status with waitIn := false, waitOut := false } ∧
    exec .validateTree s = .next
      { s with current := some { op := op, sym := y, pos := .check [0#10] [] false }, status := st } ∧
    exec .decodeSymbol s = .next
      { s with
        current := some { op := op, sym := y, pos := if s.status.treeOk then .walk 0#10 0#10 else .check [0#10] [] false },
        status := st, result := 0#32 } ∧
    exec (.encodeSymbol x) s = .next
      { s with current := some { op := op, sym := y, pos := .lookup x }, status := st } ∧
    exec .flush s = .next { s with current := some { op := op, sym := y, pos := .flush }, status := st } ∧
    exec .decompress s = .next
      { s with
        current := some { op := op, sym := y, pos := if s.status.treeOk then .walk 0#10 0#10 else .check [0#10] [] false },
        status := st, result := 0#32, symCount := 0#32 } ∧
    exec .compress s = .next
      { s with current := some { op := op, sym := y, pos := .read }, status := st, symCount := 0#32 }

/-- The check's last iteration, on an empty STACK with EOS seen: TREE_OK is set; VALIDATE_TREE ends DONE, the decode commands go on to the
root (R120, R121, R130, R150, R182), with the walk's initial values set in this micro-step by the model's reading (log 8). -/
def Obligations.TreeCheckPasses : Prop :=
  ∀ (s : State) (op : BitVec 4) (y : Sym) (visited : List NodeIndex),
    s.current = some { op := op, sym := y, pos := .check [] visited true } →
    exec .validateTree s = .next
      { s with
        current := none,
        status := { s.status with treeOk := true, done := true, waitIn := false, waitOut := false } } ∧
    ∀ i ∈ [Instr.decodeSymbol, .decompress], exec i s = .next
      { s with
        current := some { op := op, sym := y, pos := .walk 0#10 0#10 },
        status := { s.status with treeOk := true, waitIn := false, waitOut := false } }

/-- The check's failures, in its order, in each of the three commands that check: TREE_INVALID with the sub-code and DATA of R121, TREE_OK
cleared, the command ended (R121, R180, R183). -/
def Obligations.TreeCheckFailures : Prop :=
  ∀ (s : State) (op : BitVec 4) (y : Sym) (stack visited : List NodeIndex) (eosSeen : Bool) (sub : Nat) (data : NodeIndex),
    s.current = some { op := op, sym := y, pos := .check stack visited eosSeen } →
    ((stack = [] ∧ eosSeen = false ∧ sub = 5 ∧ data = 0#10) ∨
     (∃ rest, stack = data :: rest ∧
       ((s.params.nNodes ≤ data.toNat ∧ sub = 1) ∨
        (data.toNat < s.params.nNodes ∧ data ∈ visited ∧ sub = 2) ∨
        (data.toNat < s.params.nNodes ∧ data ∉ visited ∧ (readNode s.rams data.toNat).getLsbD 31 = false ∧
          ((256 < (readNode s.rams data.toNat).toNat % 512 ∧ sub = 3) ∨
           ((readNode s.rams data.toNat).toNat % 512 = 256 ∧ eosSeen = true ∧ sub = 4)))))) →
    ∀ i ∈ [Instr.validateTree, .decodeSymbol, .decompress], exec i s = .next
      { s with
        current := none,
        faultInfo := BitVec.ofNat 32 (data.toNat * 0x10000 + sub * 0x10 + 2),
        status := { s.status with treeOk := false, fault := true, waitIn := false, waitOut := false } }

/-- The check's other iterations, in each of the three commands that check: the node is marked visited; a Branch pushes RIGHT and then
LEFT, a Leaf with EOS is remembered (R121). -/
def Obligations.TreeCheckAdvances : Prop :=
  ∀ (s : State) (op : BitVec 4) (y : Sym) (j : NodeIndex) (rest visited : List NodeIndex) (eosSeen : Bool),
    s.current = some { op := op, sym := y, pos := .check (j :: rest) visited eosSeen } →
    j.toNat < s.params.nNodes → j ∉ visited →
    ∃ n, n = readNode s.rams j.toNat ∧
    ∀ i ∈ [Instr.validateTree, .decodeSymbol, .decompress], ∀ pos,
      ((n.getLsbD 31 = true ∧
          pos = .check (BitVec.ofNat 10 (n.toNat / 0x10000) :: BitVec.ofNat 10 n.toNat :: rest) (j :: visited) eosSeen) ∨
       (n.getLsbD 31 = false ∧ n.toNat % 512 < 256 ∧ pos = .check rest (j :: visited) eosSeen) ∨
       (n.getLsbD 31 = false ∧ n.toNat % 512 = 256 ∧ eosSeen = false ∧ pos = .check rest (j :: visited) true)) →
      exec i s = .next
        { s with
          current := some { op := op, sym := y, pos := pos },
          status := { s.status with waitIn := false, waitOut := false } }

/-- DECODE_SYMBOL at a Leaf returns its symbol and ends: RESULT has VALID and the symbol, and the sentinel detector sets EOS exactly on
256 (R130, R131, R132, R182). -/
def Obligations.DecodeSymbolReturns : Prop :=
  ∀ (s : State) (op : BitVec 4) (y : Sym) (cur : NodeIndex) (consumed : BitVec 10) (r : Nat),
    s.current = some { op := op, sym := y, pos := .walk cur consumed } →
    (readNode s.rams cur.toNat).getLsbD 31 = false → r = (readNode s.rams cur.toNat).toNat % 512 →
    exec .decodeSymbol s = .next
      { s with
        current := none,
        result := BitVec.ofNat 32 (0x80000000 + r),
        status :=
          { s.status with
            done := true, waitIn := false, waitOut := false, eos := if r = 256 then true else s.status.eos } }

/-- At a Branch the walk reads one bit and descends, LEFT on 0 and RIGHT on 1, in both decode commands; IN_SR is refilled from the FIFO
where it is empty (R132, R80, R13). -/
def Obligations.WalkReadsBit : Prop :=
  ∀ (s : State) (op : BitVec 4) (y : Sym) (cur : NodeIndex) (consumed : BitVec 10) (b : Bool) (p : InPath),
    s.current = some { op := op, sym := y, pos := .walk cur consumed } →
    (readNode s.rams cur.toNat).getLsbD 31 = true →
    ((s.input.bits ≠ 0 ∧ b = s.input.sr.getLsbD (s.input.bits - 1) ∧ p = { s.input with bits := s.input.bits - 1 }) ∨
     (s.input.bits = 0 ∧ ∃ x rest, s.input.fifo = x :: rest ∧ b = x.getLsbD 7 ∧ p = { fifo := rest, sr := x, bits := 7 })) →
    ∀ i ∈ [Instr.decodeSymbol, .decompress], exec i s = .next
      { s with
        current := some
          { op := op, sym := y,
            pos := .walk
              (if b then BitVec.ofNat 10 (readNode s.rams cur.toNat).toNat
               else BitVec.ofNat 10 ((readNode s.rams cur.toNat).toNat / 0x10000))
              (consumed + 1#10) },
        input := p,
        status := { s.status with waitIn := false, waitOut := false } }

/-- DECODE_SYMBOL at the end of the input inside a codeword: EOI, and the fault END_OF_INPUT with DATA = CONSUMED
(R130, R80, R180, R183). -/
def Obligations.DecodeSymbolEndOfInput : Prop :=
  ∀ (s : State) (op : BitVec 4) (y : Sym) (cur : NodeIndex) (consumed : BitVec 10),
    s.current = some { op := op, sym := y, pos := .walk cur consumed } →
    (readNode s.rams cur.toNat).getLsbD 31 = true → s.input.bits = 0 → s.input.fifo = [] → s.status.inEnd = true →
    exec .decodeSymbol s = .next
      { s with
        current := none,
        faultInfo := BitVec.ofNat 32 (consumed.toNat * 0x10000 + 5),
        status := { s.status with eoi := true, fault := true, waitIn := false, waitOut := false } }

/-- A held micro-step changes nothing but the WAIT bit of what it waits for. WAIT_IN: the decode commands at a Branch with no bit, COMPRESS
with fewer than 8 bits, where the input has not ended. WAIT_OUT: a bit that would complete a byte, or a Flush of a partial byte, with
the output FIFO full (R9, R80 to R83). -/
def Obligations.HeldMicroSteps : Prop :=
  ∀ (s : State) (op : BitVec 4) (y : Sym) (pos : Pos) (i : Instr), s.current = some { op := op, sym := y, pos := pos } →
    (s.status.inEnd = false →
      ((∃ cur consumed, pos = .walk cur consumed ∧ (readNode s.rams cur.toNat).getLsbD 31 = true ∧ s.input.bits = 0 ∧
          s.input.fifo = [] ∧ i ∈ [Instr.decodeSymbol, .decompress]) ∨
       (pos = .read ∧ s.input.bits + 8 * s.input.fifo.length < 8 ∧ i = .compress)) →
      exec i s = .next { s with status := { s.status with waitIn := true } }) ∧
    (s.output.fifo.length = s.params.outDepth →
      ((s.output.bits = 7 ∧
          ((∃ x z len j, i = .encodeSymbol z ∧ pos = .code x len j) ∨ (∃ x k, i = .decompress ∧ pos = .emit x k) ∨
           (∃ x len j, i = .compress ∧ pos = .code x len j) ∨ (∃ n, i = .compress ∧ pos = .pad n))) ∨
       (s.output.bits ≠ 0 ∧ pos = .flush ∧ i ∈ [Instr.flush, .decompress, .compress])) →
      exec i s = .next { s with status := { s.status with waitOut := true } })

/-- The lookup's faults, in its order, in both encode commands: UNKNOWN_SYMBOL for a symbol above 256 or not in the table, BAD_CODE_LEN for a
LEN above 256, DATA = the symbol; no bit is written (R142, R180, R183). -/
def Obligations.LookupFaults : Prop :=
  ∀ (s : State) (op : BitVec 4) (y x z : Sym) (code : Nat),
    s.current = some { op := op, sym := y, pos := .lookup x } →
    ((256 < x.toNat ∧ code = 3) ∨ (x.toNat ≤ 256 ∧ (readCfg s.rams x.toNat).getLsbD 31 = false ∧ code = 3) ∨
     (x.toNat ≤ 256 ∧ (readCfg s.rams x.toNat).getLsbD 31 = true ∧ 256 < (readCfg s.rams x.toNat).toNat % 512 ∧ code = 4)) →
    ∀ i ∈ [Instr.encodeSymbol z, .compress], exec i s = .next
      { s with
        current := none,
        faultInfo := BitVec.ofNat 32 (x.toNat * 0x10000 + code),
        status := { s.status with fault := true, waitIn := false, waitOut := false } }

/-- The lookup of a usable slot: with LEN > 0 the codeword's first bit is next, in both encode commands; with LEN = 0 nothing is written and
ENCODE_SYMBOL ends (R142, R140). -/
def Obligations.LookupStartsCodeword : Prop :=
  ∀ (s : State) (op : BitVec 4) (y x z : Sym) (len : Nat),
    s.current = some { op := op, sym := y, pos := .lookup x } → x.toNat ≤ 256 →
    (readCfg s.rams x.toNat).getLsbD 31 = true → len = (readCfg s.rams x.toNat).toNat % 512 → len ≤ 256 →
    (len = 0 → exec (.encodeSymbol z) s = .next
      { s with current := none, status := { s.status with done := true, waitIn := false, waitOut := false } }) ∧
    (0 < len → ∀ i ∈ [Instr.encodeSymbol z, .compress], exec i s = .next
      { s with
        current := some { op := op, sym := y, pos := .code x len 0 },
        status := { s.status with waitIn := false, waitOut := false } })

/-- ENCODE_SYMBOL writes codeword bit j, CODE_BITS[x][j div 32][31 - (j mod 32)], and ends with the last one (R140, R142, R104). -/
def Obligations.EncodeSymbolWritesBit : Prop :=
  ∀ (s : State) (op : BitVec 4) (y x z : Sym) (len j : Nat) (q : OutPath),
    s.current = some { op := op, sym := y, pos := .code x len j } →
    writeBit s.params.outDepth ((readBits s.rams x.toNat (j / 32)).getLsbD (31 - j % 32)) s.output = some q →
    (j + 1 < len → exec (.encodeSymbol z) s = .next
      { s with
        current := some { op := op, sym := y, pos := .code x len (j + 1) },
        output := q,
        status := { s.status with waitIn := false, waitOut := false } }) ∧
    (len ≤ j + 1 → exec (.encodeSymbol z) s = .next
      { s with
        current := none,
        output := q,
        status := { s.status with done := true, waitIn := false, waitOut := false } })

/-- The Flush micro-step ends FLUSH, DECOMPRESS and COMPRESS: a partial byte is completed with zero bits and appended, and the command is
DONE (R141, R83, R150, R152, R182). -/
def Obligations.FlushEndsCommand : Prop :=
  ∀ (s : State) (op : BitVec 4) (y : Sym), s.current = some { op := op, sym := y, pos := .flush } →
    (s.output.bits = 0 ∨ s.output.fifo.length ≠ s.params.outDepth) →
    ∀ i ∈ [Instr.flush, .decompress, .compress], exec i s = .next
      { s with
        current := none,
        output :=
          if s.output.bits = 0 then s.output
          else
            { fifo := s.output.fifo ++ [BitVec.ofNat 8 (s.output.acc.toNat * 2 ^ (8 - s.output.bits))],
              acc := 0#7, bits := 0, count := s.output.count + BitVec.ofNat 32 (8 - s.output.bits) },
        status := { s.status with done := true, waitIn := false, waitOut := false } }

/-- DECOMPRESS at a Leaf: EOS is detected and the loop ends at Flush; any other symbol is written as bits 7 down to 0, and SYM_COUNT
counts it with the last bit (R150, R131, R82). The next walk's initial values are set with that bit by the model's reading (log 8). -/
def Obligations.DecompressSymbol : Prop :=
  ∀ (s : State) (op : BitVec 4) (y : Sym),
    (∀ cur consumed r, s.current = some { op := op, sym := y, pos := .walk cur consumed } →
      (readNode s.rams cur.toNat).getLsbD 31 = false → r = BitVec.ofNat 9 (readNode s.rams cur.toNat).toNat →
      exec .decompress s = .next
        { s with
          current := some { op := op, sym := y, pos := if r = 256#9 then .flush else .emit r 7 },
          result := BitVec.ofNat 32 (0x80000000 + r.toNat),
          status :=
            { s.status with waitIn := false, waitOut := false, eos := if r = 256#9 then true else s.status.eos } }) ∧
    (∀ r k q, s.current = some { op := op, sym := y, pos := .emit r k } →
      writeBit s.params.outDepth (r.getLsbD k) s.output = some q →
      exec .decompress s = .next
        { s with
          current := some { op := op, sym := y, pos := if k = 0 then .walk 0#10 0#10 else .emit r (k - 1) },
          output := q,
          symCount := if k = 0 then s.symCount + 1#32 else s.symCount,
          status := { s.status with waitIn := false, waitOut := false } })

/-- DECOMPRESS at the end of the input does not fault: it sets EOI and TRUNC and goes on to Flush (R151, R150). -/
def Obligations.DecompressTruncates : Prop :=
  ∀ (s : State) (op : BitVec 4) (y : Sym) (cur : NodeIndex) (consumed : BitVec 10),
    s.current = some { op := op, sym := y, pos := .walk cur consumed } →
    (readNode s.rams cur.toNat).getLsbD 31 = true → s.input.bits = 0 → s.input.fifo = [] → s.status.inEnd = true →
    exec .decompress s = .next
      { s with
        current := some { op := op, sym := y, pos := .flush },
        status := { s.status with eoi := true, trunc := true, waitIn := false, waitOut := false } }

/-- COMPRESS reads 8 bits as the next symbol and counts it, or, at the end of the input, sets EOI and looks EOS up; fewer than 8 bits stay
unconsumed (R152, R81). -/
def Obligations.CompressReads : Prop :=
  ∀ (s : State) (op : BitVec 4) (y : Sym), s.current = some { op := op, sym := y, pos := .read } →
    (∀ v q, readBits8 s.status.inEnd s.input = .byte v q →
      exec .compress s = .next
        { s with
          current := some { op := op, sym := y, pos := .lookup (BitVec.ofNat 9 v.toNat) },
          input := q, symCount := s.symCount + 1#32,
          status := { s.status with waitIn := false, waitOut := false } }) ∧
    (s.input.bits + 8 * s.input.fifo.length < 8 → s.status.inEnd = true →
      exec .compress s = .next
        { s with
          current := some { op := op, sym := y, pos := .lookup 256#9 },
          status := { s.status with eoi := true, waitIn := false, waitOut := false } })

/-- COMPRESS writes a codeword bit by bit; after a byte's codeword it reads on, after the terminator's it pads with
(8 - OUT_BITCOUNT mod 8) mod 8 zero bits and flushes (R152, R153, R142). The terminator is known by its symbol 256 (log 14). -/
def Obligations.CompressWritesAndPads : Prop :=
  ∀ (s : State) (op : BitVec 4) (y : Sym) (b : Bool) (q : OutPath), writeBit s.params.outDepth b s.output = some q →
    (∀ x len j, s.current = some { op := op, sym := y, pos := .code x len j } →
      b = (readBits s.rams x.toNat (j / 32)).getLsbD (31 - j % 32) →
      exec .compress s = .next
        { s with
          current := some
            { op := op, sym := y,
              pos :=
                if j + 1 < len then .code x len (j + 1)
                else if x ≠ 256#9 then .read
                else if (8 - q.count.toNat % 8) % 8 = 0 then .flush
                else .pad ((8 - q.count.toNat % 8) % 8) },
          output := q,
          status := { s.status with waitIn := false, waitOut := false } }) ∧
    (∀ left, s.current = some { op := op, sym := y, pos := .pad left } → b = false →
      exec .compress s = .next
        { s with
          current := some { op := op, sym := y, pos := if left ≤ 1 then .flush else .pad (left - 1) },
          output := q,
          status := { s.status with waitIn := false, waitOut := false } })

/-! ### Frames -/

/-- What no micro-step of any command changes: the parameters, CMD, every RAM word, the flags of the host interface and of the input's end,
the turns to come and the values read; FAULT_INFO changes only with FAULT set (R27, R28, R89, R181, R183). -/
def Obligations.FrameOfEveryCommand : Prop :=
  ∀ (i : Instr) (s t : State), exec i s = .next t →
    t.params = s.params ∧ t.cmd = s.cmd ∧ (∀ j, readNode t.rams j = readNode s.rams j) ∧
    (∀ x, readCfg t.rams x = readCfg s.rams x) ∧ (∀ x k, readBits t.rams x k = readBits s.rams x k) ∧ t.rams = s.rams ∧
    t.status.inOvf = s.status.inOvf ∧ t.status.accErr = s.status.accErr ∧ t.status.inEnd = s.status.inEnd ∧
    t.schedule = s.schedule ∧ t.observed = s.observed ∧
    (t.status.fault = s.status.fault → t.faultInfo = s.faultInfo ∨ s.status.fault = true) ∧
    (t.status.fault ≠ s.status.fault → t.status.fault = true ∧ t.current = none ∧ t.status.done = s.status.done)

/-- VALIDATE_TREE touches no stream, no result, no counter and no flag of a decode; DECODE_SYMBOL touches neither the output nor SYM_COUNT nor
TRUNC (R120, R130). -/
def Obligations.FrameValidateTreeAndDecodeSymbol : Prop :=
  ∀ (s t : State),
    (exec .validateTree s = .next t →
      t.input = s.input ∧ t.output = s.output ∧ t.result = s.result ∧ t.symCount = s.symCount ∧
      t.status.eos = s.status.eos ∧ t.status.eoi = s.status.eoi ∧ t.status.trunc = s.status.trunc) ∧
    (exec .decodeSymbol s = .next t →
      t.output = s.output ∧ t.symCount = s.symCount ∧ t.status.trunc = s.status.trunc)

/-- ENCODE_SYMBOL and FLUSH touch neither the input nor RESULT, SYM_COUNT and the flags of decodes; FLUSH never faults (R140, R141). -/
def Obligations.FrameEncodeSymbolAndFlush : Prop :=
  ∀ (s t : State),
    (∀ x, exec (.encodeSymbol x) s = .next t →
      t.input = s.input ∧ t.result = s.result ∧ t.symCount = s.symCount ∧ t.status.eos = s.status.eos ∧
      t.status.eoi = s.status.eoi ∧ t.status.trunc = s.status.trunc ∧ t.status.treeOk = s.status.treeOk) ∧
    (exec .flush s = .next t →
      t.input = s.input ∧ t.result = s.result ∧ t.symCount = s.symCount ∧ t.status.eos = s.status.eos ∧
      t.status.eoi = s.status.eoi ∧ t.status.trunc = s.status.trunc ∧ t.status.treeOk = s.status.treeOk ∧
      t.status.fault = s.status.fault ∧ t.faultInfo = s.faultInfo)

/-- DECOMPRESS and COMPRESS change at most one of the two streams in a micro-step, and a fault leaves both and SYM_COUNT; COMPRESS touches
neither RESULT nor EOS, TRUNC and TREE_OK (R150, R152, R155). -/
def Obligations.FrameStreamCommands : Prop :=
  ∀ (s t : State),
    (exec .decompress s = .next t →
      (t.input = s.input ∨ t.output = s.output) ∧
      (t.status.fault ≠ s.status.fault →
        t.input = s.input ∧ t.output = s.output ∧ t.symCount = s.symCount ∧ t.result = s.result)) ∧
    (exec .compress s = .next t →
      t.result = s.result ∧ t.status.eos = s.status.eos ∧ t.status.trunc = s.status.trunc ∧
      t.status.treeOk = s.status.treeOk ∧ (t.input = s.input ∨ t.output = s.output) ∧
      (t.status.fault ≠ s.status.fault → t.input = s.input ∧ t.output = s.output ∧ t.symCount = s.symCount))

/-- Which command raises which fault code (R180); FLUSH raises none, and DECOMPRESS never raises END_OF_INPUT (R154 (e)). -/
def Obligations.FaultsOfEachCommand : Prop :=
  ∀ (i : Instr) (s t : State), exec i s = .next t → s.status.fault = false → t.status.fault = true →
    match i with
    | .validateTree => t.faultInfo.toNat % 16 = 2
    | .decodeSymbol => t.faultInfo.toNat % 16 = 2 ∨ t.faultInfo.toNat % 16 = 5
    | .encodeSymbol _ => t.faultInfo.toNat % 16 = 3 ∨ t.faultInfo.toNat % 16 = 4
    | .flush => False
    | .decompress => t.faultInfo.toNat % 16 = 2
    | .compress => t.faultInfo.toNat % 16 = 3 ∨ t.faultInfo.toNat % 16 = 4

/-- While a command runs no host access changes a RAM word, a parameter, or the command but by a soft reset (R89, R210, R41). -/
def Obligations.RamsFixedWhileBusy : Prop :=
  ∀ (s : State) (a : Access), s.busy = true →
    (hostAccess a s).rams = s.rams ∧ (hostAccess a s).params = s.params ∧
    ((hostAccess a s).current = s.current ∨ hostAccess a s = softReset s)

/-! ### Invariants -/

/-- The invariant, and the promise of TREE_OK, hold at reset, whatever the legal parameters (R45, R5); so they do at State.reset, whose
parameters are the model's choice (log 2). The canonical form of the RAMs is the model's (log 5). -/
def Obligations.ResetMeetsInvariant : Prop :=
  (∀ (p : Params), p.wellFormed = true → (State.resetWith p).Inv ∧ (State.resetWith p).TreeInv) ∧
    State.reset.Inv ∧ State.reset.TreeInv

/-- Every step keeps the invariant: the RAMs stay in stored form and in the model's canonical form (log 5), the FIFOs within their depths, OUT_BITCOUNT mod 8 = OUT_BITS,
no command runs with FAULT or DONE set, the WAIT bits agree with the position (R24, R30, R31, R34, R36 to R38, R44, R186). -/
def Obligations.StepKeepsInvariant : Prop := ∀ (s t : State), s.Inv → step s = .next t → t.Inv

/-- From every state that meets the invariant a step answers a next state: the machine never stops, and no access is refused
(R9, R73). Where no command runs, R10 enables no micro-step, and that the block's turn then leaves the state, and that an empty schedule
gives it the turn, are the model's choices (log 10, log 1). -/
def Obligations.StepAlwaysAnswers : Prop := ∀ (s : State), s.Inv → ∃ t, step s = .next t

/-- TREE_OK = 1 means that node RAM holds a well-formed tree, along every run (R26, R122). -/
def Obligations.TreeOkMeansTree : Prop :=
  ∀ (s t : State), s.Inv → s.TreeInv → step s = .next t → t.TreeInv

/-! ### Headline results -/

/-- VALIDATE_TREE decides well-formedness within N_NODES + 2 micro-steps: it ends DONE with TREE_OK = 1 where node RAM holds a well-formed
tree, and with the fault TREE_INVALID where it does not (R120 to R123). The count of micro-steps is by the model's boundaries (log 8). -/
def Obligations.ValidateTreeDecides : Prop :=
  ∀ (s : State), startsCommand .validateTree s → s.status.done = false → s.status.fault = false →
    ∃ n t, n ≤ s.params.nNodes + 2 ∧ blockRun n s = .next t ∧ t.current = none ∧ t.rams = s.rams ∧
      ((t.status.done = true ∧ t.status.fault = false ∧ t.status.treeOk = true ∧ ∃ tree, holdsTree s.params s.rams tree) ∨
       (t.status.done = false ∧ t.status.fault = true ∧ t.status.treeOk = false ∧ t.faultInfo.toNat % 16 = 2 ∧
         ¬ ∃ tree, holdsTree s.params s.rams tree))

/-- The micro-steps of a passing check: R + 1 for a tree of R nodes, no fewer (R123). -/
def Obligations.CheckMicroStepCount : Prop :=
  ∀ (p : Params) (r : Rams) (tree : PrefixTree), holdsTree p r tree →
    checkRun p r (treeSize tree + 1) [0#10] [] false = some .passed ∧ checkRun p r (treeSize tree) [0#10] [] false = none

/-- DECODE_SYMBOL decodes: with a tree in node RAM and a codeword of one of its leaves at the head of the input, it consumes exactly that
codeword and returns that leaf's symbol (R130 to R133, R173). The count of micro-steps is by the model's boundaries (log 8). -/
def Obligations.DecodeSymbolDecodes : Prop :=
  ∀ (s : State) (tree : PrefixTree) (x : Sym) (word rest : List Bool),
    startsCommand .decodeSymbol s → s.status.treeOk = true → s.status.eos = false → storedAt s.rams 0#10 tree →
    (x, word) ∈ codewords tree → sourceBits s.input = word ++ rest →
    ∃ t, blockRun (word.length + 2) s = .next t ∧ t.current = none ∧ t.status.done = true ∧
      t.status.fault = s.status.fault ∧ t.result = BitVec.ofNat 32 (0x80000000 + x.toNat) ∧
      (t.status.eos = true ↔ x = 256#9) ∧ sourceBits t.input = rest ∧ t.output = s.output

/-- ENCODE_SYMBOL encodes: with a usable slot and output room it appends exactly the slot's codeword to the output and counts its bits
(R140, R142, R82). -/
def Obligations.EncodeSymbolEncodes : Prop :=
  ∀ (s : State) (x : Sym), startsCommand (.encodeSymbol x) s → slotUsable s.rams x → s.output.bits ≤ 7 →
    s.output.fifo.length + (s.output.bits + (slotCodeword s.rams x).length) / 8 ≤ s.params.outDepth →
    ∃ t, blockRun ((slotCodeword s.rams x).length + 2) s = .next t ∧ t.current = none ∧ t.status.done = true ∧
      t.status.fault = s.status.fault ∧ sinkBits t.output = sinkBits s.output ++ slotCodeword s.rams x ∧
      t.output.count = s.output.count + BitVec.ofNat 32 (slotCodeword s.rams x).length ∧ t.input = s.input

/-- COMPRESS: it reads every byte, writes their codewords and the terminator's, pads to a byte boundary with fewer than 8 zero bits and
ends DONE (R152, R153, R154 (b)). -/
def Obligations.CompressOutput : Prop :=
  ∀ (s : State) (bytes : List Byte),
    startsCommand .compress s → s.input.bits = 0 → s.input.fifo = bytes → s.status.inEnd = true → s.output.bits ≤ 7 →
    s.output.count.toNat % 8 = s.output.bits → (∀ b ∈ bytes, slotUsable s.rams (byteSym b)) → slotUsable s.rams eosSym →
    s.output.fifo.length + (s.output.bits + (compressedBits s.rams bytes).length + 7) / 8 ≤ s.params.outDepth →
    ∃ n t k, blockRun n s = .next t ∧ t.current = none ∧ t.status.done = true ∧ t.status.fault = s.status.fault ∧
      t.status.eoi = true ∧ t.symCount = BitVec.ofNat 32 bytes.length ∧ sourceBits t.input = [] ∧ t.output.bits = 0 ∧ k < 8 ∧
      sinkBits t.output = sinkBits s.output ++ compressedBits s.rams bytes ++ List.replicate k false

/-- DECOMPRESS: from a source of codewords of byte leaves followed by the codeword of EOS it writes exactly those bytes, stops at EOS and
leaves the rest unread (R150, R131, R154 (c)). -/
def Obligations.DecompressOutput : Prop :=
  ∀ (s : State) (tree : PrefixTree) (msg : List (Byte × List Bool)) (eosWord rest : List Bool),
    startsCommand .decompress s → s.status.treeOk = true → s.status.eos = false → storedAt s.rams 0#10 tree →
    (∀ m ∈ msg, (byteSym m.1, m.2) ∈ codewords tree) → (eosSym, eosWord) ∈ codewords tree →
    sourceBits s.input = msg.flatMap (fun m => m.2) ++ eosWord ++ rest → s.output.bits = 0 →
    s.output.fifo.length + msg.length ≤ s.params.outDepth →
    ∃ n t, blockRun n s = .next t ∧ t.current = none ∧ t.status.done = true ∧ t.status.fault = s.status.fault ∧
      t.status.eos = true ∧ t.status.trunc = s.status.trunc ∧ t.result = 0x80000100#32 ∧
      t.symCount = BitVec.ofNat 32 msg.length ∧ sourceBits t.input = rest ∧ t.output.bits = 0 ∧
      t.output.fifo = s.output.fifo ++ msg.map (fun m => m.1)

/-- The round trip of R154 (a): COMPRESS of bytes B with a table derived from a well-formed tree, and then DECOMPRESS of its output with that
tree, gives B back, with EOS = 1 and TRUNC = 0; the two commands start with empty output and room for theirs. -/
def Obligations.RoundTrip : Prop :=
  ∀ (s u : State) (tree : PrefixTree) (bytes : List Byte),
    holdsTree s.params s.rams tree → (∀ b ∈ bytes, slotDerived s.rams tree (byteSym b)) → slotDerived s.rams tree eosSym →
    startsCommand .compress s → s.input.bits = 0 → s.input.fifo = bytes → s.status.inEnd = true → s.status.fault = false →
    s.output = { fifo := [], acc := 0#7, bits := 0, count := 0#32 } →
    ((compressedBits s.rams bytes).length + 7) / 8 ≤ s.params.outDepth →
    ∃ n t, blockRun n s = .next t ∧ t.status.done = true ∧ t.status.fault = false ∧
      (startsCommand .decompress u → u.params = s.params → u.rams = s.rams → u.status.eos = false → u.status.trunc = false →
        u.status.fault = false → u.input.fifo = t.output.fifo → u.input.bits = 0 →
        u.output = { fifo := [], acc := 0#7, bits := 0, count := 0#32 } → bytes.length ≤ u.params.outDepth →
        ∃ m v, blockRun m u = .next v ∧ v.status.done = true ∧ v.status.fault = false ∧ v.status.eos = true ∧
          v.status.trunc = false ∧ v.output.fifo = bytes)

/-- The tree round trip of R175: ReadTreeBits gives back every tree whose leaves are symbols and consumes exactly its 11L - 1 header bits;
the file read gives back the tree and the payload (R171, R172, R156). -/
def Obligations.HeaderRoundTrip : Prop :=
  ∀ (tree : PrefixTree), (∀ x ∈ leafSyms tree, x.toNat ≤ 256) →
    (writeTreeBits tree).length + 1 = 11 * leafCount tree ∧
    (∀ rest, readTreeBits (writeTreeBits tree ++ rest) = .ok (tree, rest)) ∧
    ∀ payload, readHeader (fileBytes tree payload) = .ok (tree, payload)

/-- Loading a tree in its canonical layout while idle puts that tree into node RAM, at rising indices from the root (R174, R203 step 2). -/
def Obligations.CanonicalLayoutStored : Prop :=
  ∀ (s : State) (tree : PrefixTree), s.params.wellFormed = true → s.current = none → treeSize tree ≤ s.params.nNodes →
    ∃ t, hostAccesses (loadTree tree) s = t ∧ storedAt t.rams 0#10 tree ∧
      occupied t.rams 0#10 tree = (List.range (treeSize tree)).map (BitVec.ofNat 10)

/-- The table. Loading a codeword of at most 256 bits while idle makes its slot usable and its codeword those bits (R104, R109). The
codewords of distinct leaves of a tree are prefix-free, none beginning with another; so are those of two symbols in a code RAM derived
from a tree, every usable slot of which holds a leaf's codeword (R173). -/
def Obligations.CodewordLoaded : Prop :=
  (∀ (s : State) (x : Sym) (bits : List Bool), s.current = none → x.toNat ≤ 256 → bits.length ≤ 256 →
    ∃ t, hostAccesses (expandLine (.codeword x bits)) s = t ∧ slotUsable t.rams x ∧ slotCodeword t.rams x = bits) ∧
  (∀ (tree : PrefixTree), ((codewords tree).map (fun c => c.2)).Pairwise prefixFree) ∧
  ∀ (r : Rams) (tree : PrefixTree) (x y : Sym), tableDerived r tree → x.toNat ≤ 256 → y.toNat ≤ 256 → x ≠ y →
    (readCfg r x.toNat).getLsbD 31 = true → (readCfg r y.toNat).getLsbD 31 = true →
      prefixFree (slotCodeword r x) (slotCodeword r y)
end

