-- ==== Sys2Proof/Laws/Ram.lean ====
section
/-! SUPPORT. Laws of the RAMs: a read after a write, other words left alone, and the canonical form, which every operation keeps
(spec/10_state.md R30, R31; log 5). -/

namespace Sys2Proof.Machine

@[simp] theorem ramFind_nil (k : Nat) : ramFind [] k = none := rfl

theorem ramFind_store_same (r : Ram) (k : Nat) (w : Word) : ramFind (ramStore r k w) k = some w := by
  induction r with
  | nil => simp [ramStore, ramFind]
  | cons e r ih =>
    obtain ⟨a, v⟩ := e
    unfold ramStore
    split
    · simp [ramFind]
    · split
      · simp [ramFind]
      · have hne : a ≠ k := by omega
        simp [ramFind, hne, ih]

theorem ramFind_store_other (r : Ram) (k j : Nat) (w : Word) (h : j ≠ k) : ramFind (ramStore r k w) j = ramFind r j := by
  have hkj : ¬ k = j := fun e => h e.symm
  induction r with
  | nil => simp [ramStore, ramFind, hkj]
  | cons e r ih =>
    obtain ⟨a, v⟩ := e
    unfold ramStore
    split
    · simp [ramFind, hkj]
    · split
      · next hk => subst hk; simp [ramFind, hkj]
      · simp [ramFind, ih]

@[simp] theorem readNode_writeNode_same (r : Rams) (i : Nat) (w : Word) : readNode (writeNode i w r) i = nodeForm w := by
  simp [readNode, writeNode, ramFind_store_same]

theorem readNode_writeNode_other (r : Rams) (i j : Nat) (w : Word) (h : j ≠ i) :
    readNode (writeNode i w r) j = readNode r j := by
  simp [readNode, writeNode, ramFind_store_other _ _ _ _ h]

@[simp] theorem readCfg_writeNode (r : Rams) (i s : Nat) (w : Word) : readCfg (writeNode i w r) s = readCfg r s := rfl
@[simp] theorem readBits_writeNode (r : Rams) (i s k : Nat) (w : Word) : readBits (writeNode i w r) s k = readBits r s k := rfl
@[simp] theorem readNode_writeCfg (r : Rams) (i s : Nat) (w : Word) : readNode (writeCfg s w r) i = readNode r i := rfl
@[simp] theorem readBits_writeCfg (r : Rams) (x s k : Nat) (w : Word) : readBits (writeCfg x w r) s k = readBits r s k := rfl
@[simp] theorem readNode_writeBits (r : Rams) (i s k : Nat) (w : Word) : readNode (writeBits s k w r) i = readNode r i := rfl
@[simp] theorem readCfg_writeBits (r : Rams) (x s k : Nat) (w : Word) : readCfg (writeBits s k w r) x = readCfg r x := rfl

@[simp] theorem readCfg_writeCfg_same (r : Rams) (s : Nat) (w : Word) : readCfg (writeCfg s w r) s = cfgForm w := by
  simp [readCfg, writeCfg, ramFind_store_same]

theorem readCfg_writeCfg_other (r : Rams) (s x : Nat) (w : Word) (h : x ≠ s) :
    readCfg (writeCfg s w r) x = readCfg r x := by
  simp [readCfg, writeCfg, ramFind_store_other _ _ _ _ h]

@[simp] theorem readBits_writeBits_same (r : Rams) (s k : Nat) (w : Word) : readBits (writeBits s k w r) s k = w := by
  simp [readBits, writeBits, ramFind_store_same]

theorem readBits_writeBits_other (r : Rams) (s k x j : Nat) (w : Word) (h : 8 * x + j ≠ 8 * s + k) :
    readBits (writeBits s k w r) x j = readBits r x j := by
  simp [readBits, writeBits, ramFind_store_other _ _ _ _ h]

/-! ### Canonical form -/

theorem ramWf_cons (bound : Nat) (form : Word → Bool) (a : Nat) (v : Word) (r : Ram) :
    ramWf bound form ((a, v) :: r) = true ↔
      a < bound ∧ form v = true ∧ (∀ e ∈ r.head?, a < e.1) ∧ ramWf bound form r = true := by
  cases r with
  | nil => simp [ramWf]
  | cons e r => obtain ⟨b, u⟩ := e; simp [ramWf]; tauto

theorem ramStore_head (r : Ram) (k : Nat) (w : Word) :
    ∀ e ∈ (ramStore r k w).head?, e.1 = k ∨ ∃ f ∈ r.head?, e.1 = f.1 := by
  cases r with
  | nil => simp [ramStore]
  | cons e r => obtain ⟨a, v⟩ := e; unfold ramStore; split <;> (try split) <;> simp

theorem ramWf_store (bound : Nat) (form : Word → Bool) (r : Ram) (k : Nat) (w : Word)
    (hr : ramWf bound form r = true) (hk : k < bound) (hw : form w = true) : ramWf bound form (ramStore r k w) = true := by
  induction r with
  | nil => simp [ramStore, ramWf, hk, hw]
  | cons e r ih =>
    obtain ⟨a, v⟩ := e
    obtain ⟨ha, hv, hh, hr'⟩ := (ramWf_cons ..).1 hr
    unfold ramStore
    split
    · next hka => exact (ramWf_cons ..).2 ⟨hk, hw, by simpa using hka, hr⟩
    · split
      · next hka => subst hka; exact (ramWf_cons ..).2 ⟨ha, hw, hh, hr'⟩
      · next h1 h2 =>
        refine (ramWf_cons ..).2 ⟨ha, hv, ?_, ih hr'⟩
        intro e he
        rcases ramStore_head r k w e he with h | ⟨f, hf, h⟩
        · omega
        · rw [h]; exact hh f hf

theorem ramWf_nil (bound : Nat) (form : Word → Bool) : ramWf bound form [] = true := rfl

/-- What a listed word of a canonical RAM is: in range and of its stored form. -/
theorem ramWf_find (bound : Nat) (form : Word → Bool) (r : Ram) (k : Nat) (w : Word)
    (hr : ramWf bound form r = true) (h : ramFind r k = some w) : k < bound ∧ form w = true := by
  induction r with
  | nil => simp [ramFind] at h
  | cons e r ih =>
    obtain ⟨a, v⟩ := e
    obtain ⟨ha, hv, -, hr'⟩ := (ramWf_cons ..).1 hr
    unfold ramFind at h
    split at h
    · next hk => cases h; subst hk; exact ⟨ha, hv⟩
    · exact ih hr' h

/-- The stored forms are forms (R30, R31). -/
theorem isNodeForm_nodeForm (w : Word) : (nodeForm w).isNodeForm = true := by
  unfold nodeForm Word.isNodeForm
  cases h : w.getLsbD 31 <;> simp [h, BitVec.and_assoc]

theorem isCfgForm_cfgForm (w : Word) : (cfgForm w).isCfgForm = true := by
  simp [cfgForm, Word.isCfgForm, BitVec.and_assoc]

end Sys2Proof.Machine
end

