-- ==== Sys2Proof/Laws/State.lean ====
section
/-! SUPPORT. One lemma per field per update of State, true by definition, so that no proof unfolds a record update. -/

namespace Sys2Proof.Machine

variable (s : State)

/-! ### acceptCommand -/

@[simp] theorem acceptCommand_params (w : Word) : (acceptCommand w s).params = s.params := rfl
@[simp] theorem acceptCommand_cmd (w : Word) : (acceptCommand w s).cmd = commandForm w := rfl
@[simp] theorem acceptCommand_current (w : Word) : (acceptCommand w s).current = some { op := opField w, sym := symField w, pos := .first } := rfl
@[simp] theorem acceptCommand_status (w : Word) : (acceptCommand w s).status = s.status.accepted := rfl
@[simp] theorem acceptCommand_faultInfo (w : Word) : (acceptCommand w s).faultInfo = s.faultInfo := rfl
@[simp] theorem acceptCommand_result (w : Word) : (acceptCommand w s).result = s.result := rfl
@[simp] theorem acceptCommand_symCount (w : Word) : (acceptCommand w s).symCount = s.symCount := rfl
@[simp] theorem acceptCommand_rams (w : Word) : (acceptCommand w s).rams = s.rams := rfl
@[simp] theorem acceptCommand_input (w : Word) : (acceptCommand w s).input = s.input := rfl
@[simp] theorem acceptCommand_output (w : Word) : (acceptCommand w s).output = s.output := rfl
@[simp] theorem acceptCommand_schedule (w : Word) : (acceptCommand w s).schedule = s.schedule := rfl
@[simp] theorem acceptCommand_observed (w : Word) : (acceptCommand w s).observed = s.observed := rfl

/-! ### goTo -/

@[simp] theorem goTo_params (p : Pos) : (goTo p s).params = s.params := rfl
@[simp] theorem goTo_cmd (p : Pos) : (goTo p s).cmd = s.cmd := rfl
@[simp] theorem goTo_current (p : Pos) : (goTo p s).current = s.current.map (fun c => { c with pos := p }) := rfl
@[simp] theorem goTo_status (p : Pos) : (goTo p s).status = s.status.noWait := rfl
@[simp] theorem goTo_faultInfo (p : Pos) : (goTo p s).faultInfo = s.faultInfo := rfl
@[simp] theorem goTo_result (p : Pos) : (goTo p s).result = s.result := rfl
@[simp] theorem goTo_symCount (p : Pos) : (goTo p s).symCount = s.symCount := rfl
@[simp] theorem goTo_rams (p : Pos) : (goTo p s).rams = s.rams := rfl
@[simp] theorem goTo_input (p : Pos) : (goTo p s).input = s.input := rfl
@[simp] theorem goTo_output (p : Pos) : (goTo p s).output = s.output := rfl
@[simp] theorem goTo_schedule (p : Pos) : (goTo p s).schedule = s.schedule := rfl
@[simp] theorem goTo_observed (p : Pos) : (goTo p s).observed = s.observed := rfl

/-! ### holdIn -/

@[simp] theorem holdIn_params : (holdIn s).params = s.params := rfl
@[simp] theorem holdIn_cmd : (holdIn s).cmd = s.cmd := rfl
@[simp] theorem holdIn_current : (holdIn s).current = s.current := rfl
@[simp] theorem holdIn_status : (holdIn s).status = { s.status with waitIn := true } := rfl
@[simp] theorem holdIn_faultInfo : (holdIn s).faultInfo = s.faultInfo := rfl
@[simp] theorem holdIn_result : (holdIn s).result = s.result := rfl
@[simp] theorem holdIn_symCount : (holdIn s).symCount = s.symCount := rfl
@[simp] theorem holdIn_rams : (holdIn s).rams = s.rams := rfl
@[simp] theorem holdIn_input : (holdIn s).input = s.input := rfl
@[simp] theorem holdIn_output : (holdIn s).output = s.output := rfl
@[simp] theorem holdIn_schedule : (holdIn s).schedule = s.schedule := rfl
@[simp] theorem holdIn_observed : (holdIn s).observed = s.observed := rfl

/-! ### holdOut -/

@[simp] theorem holdOut_params : (holdOut s).params = s.params := rfl
@[simp] theorem holdOut_cmd : (holdOut s).cmd = s.cmd := rfl
@[simp] theorem holdOut_current : (holdOut s).current = s.current := rfl
@[simp] theorem holdOut_status : (holdOut s).status = { s.status with waitOut := true } := rfl
@[simp] theorem holdOut_faultInfo : (holdOut s).faultInfo = s.faultInfo := rfl
@[simp] theorem holdOut_result : (holdOut s).result = s.result := rfl
@[simp] theorem holdOut_symCount : (holdOut s).symCount = s.symCount := rfl
@[simp] theorem holdOut_rams : (holdOut s).rams = s.rams := rfl
@[simp] theorem holdOut_input : (holdOut s).input = s.input := rfl
@[simp] theorem holdOut_output : (holdOut s).output = s.output := rfl
@[simp] theorem holdOut_schedule : (holdOut s).schedule = s.schedule := rfl
@[simp] theorem holdOut_observed : (holdOut s).observed = s.observed := rfl

/-! ### finish -/

@[simp] theorem finish_params : (finish s).params = s.params := rfl
@[simp] theorem finish_cmd : (finish s).cmd = s.cmd := rfl
@[simp] theorem finish_current : (finish s).current = none := rfl
@[simp] theorem finish_status : (finish s).status = s.status.ended := rfl
@[simp] theorem finish_faultInfo : (finish s).faultInfo = s.faultInfo := rfl
@[simp] theorem finish_result : (finish s).result = s.result := rfl
@[simp] theorem finish_symCount : (finish s).symCount = s.symCount := rfl
@[simp] theorem finish_rams : (finish s).rams = s.rams := rfl
@[simp] theorem finish_input : (finish s).input = s.input := rfl
@[simp] theorem finish_output : (finish s).output = s.output := rfl
@[simp] theorem finish_schedule : (finish s).schedule = s.schedule := rfl
@[simp] theorem finish_observed : (finish s).observed = s.observed := rfl

/-! ### raiseFault -/

@[simp] theorem raiseFault_params (code sub : BitVec 4) (data : BitVec 10) : (raiseFault code sub data s).params = s.params := rfl
@[simp] theorem raiseFault_cmd (code sub : BitVec 4) (data : BitVec 10) : (raiseFault code sub data s).cmd = s.cmd := rfl
@[simp] theorem raiseFault_current (code sub : BitVec 4) (data : BitVec 10) : (raiseFault code sub data s).current = none := rfl
@[simp] theorem raiseFault_status (code sub : BitVec 4) (data : BitVec 10) : (raiseFault code sub data s).status = s.status.faulted := rfl
@[simp] theorem raiseFault_faultInfo (code sub : BitVec 4) (data : BitVec 10) : (raiseFault code sub data s).faultInfo = faultWord code sub data := rfl
@[simp] theorem raiseFault_result (code sub : BitVec 4) (data : BitVec 10) : (raiseFault code sub data s).result = s.result := rfl
@[simp] theorem raiseFault_symCount (code sub : BitVec 4) (data : BitVec 10) : (raiseFault code sub data s).symCount = s.symCount := rfl
@[simp] theorem raiseFault_rams (code sub : BitVec 4) (data : BitVec 10) : (raiseFault code sub data s).rams = s.rams := rfl
@[simp] theorem raiseFault_input (code sub : BitVec 4) (data : BitVec 10) : (raiseFault code sub data s).input = s.input := rfl
@[simp] theorem raiseFault_output (code sub : BitVec 4) (data : BitVec 10) : (raiseFault code sub data s).output = s.output := rfl
@[simp] theorem raiseFault_schedule (code sub : BitVec 4) (data : BitVec 10) : (raiseFault code sub data s).schedule = s.schedule := rfl
@[simp] theorem raiseFault_observed (code sub : BitVec 4) (data : BitVec 10) : (raiseFault code sub data s).observed = s.observed := rfl

/-! ### writeStatus -/

@[simp] theorem writeStatus_params (w : Word) : (writeStatus w s).params = s.params := rfl
@[simp] theorem writeStatus_cmd (w : Word) : (writeStatus w s).cmd = s.cmd := rfl
@[simp] theorem writeStatus_current (w : Word) : (writeStatus w s).current = s.current := rfl
@[simp] theorem writeStatus_status (w : Word) : (writeStatus w s).status = s.status.clearWritten w := rfl
@[simp] theorem writeStatus_faultInfo (w : Word) : (writeStatus w s).faultInfo = if w.getLsbD 2 then 0#32 else s.faultInfo := rfl
@[simp] theorem writeStatus_result (w : Word) : (writeStatus w s).result = s.result := rfl
@[simp] theorem writeStatus_symCount (w : Word) : (writeStatus w s).symCount = s.symCount := rfl
@[simp] theorem writeStatus_rams (w : Word) : (writeStatus w s).rams = s.rams := rfl
@[simp] theorem writeStatus_input (w : Word) : (writeStatus w s).input = s.input := rfl
@[simp] theorem writeStatus_output (w : Word) : (writeStatus w s).output = s.output := rfl
@[simp] theorem writeStatus_schedule (w : Word) : (writeStatus w s).schedule = s.schedule := rfl
@[simp] theorem writeStatus_observed (w : Word) : (writeStatus w s).observed = s.observed := rfl

/-! ### setTreeOk -/

@[simp] theorem setTreeOk_params (b : Bool) : (setTreeOk b s).params = s.params := rfl
@[simp] theorem setTreeOk_cmd (b : Bool) : (setTreeOk b s).cmd = s.cmd := rfl
@[simp] theorem setTreeOk_current (b : Bool) : (setTreeOk b s).current = s.current := rfl
@[simp] theorem setTreeOk_status (b : Bool) : (setTreeOk b s).status = { s.status with treeOk := b } := rfl
@[simp] theorem setTreeOk_faultInfo (b : Bool) : (setTreeOk b s).faultInfo = s.faultInfo := rfl
@[simp] theorem setTreeOk_result (b : Bool) : (setTreeOk b s).result = s.result := rfl
@[simp] theorem setTreeOk_symCount (b : Bool) : (setTreeOk b s).symCount = s.symCount := rfl
@[simp] theorem setTreeOk_rams (b : Bool) : (setTreeOk b s).rams = s.rams := rfl
@[simp] theorem setTreeOk_input (b : Bool) : (setTreeOk b s).input = s.input := rfl
@[simp] theorem setTreeOk_output (b : Bool) : (setTreeOk b s).output = s.output := rfl
@[simp] theorem setTreeOk_schedule (b : Bool) : (setTreeOk b s).schedule = s.schedule := rfl
@[simp] theorem setTreeOk_observed (b : Bool) : (setTreeOk b s).observed = s.observed := rfl

/-! ### setEoi -/

@[simp] theorem setEoi_params : (setEoi s).params = s.params := rfl
@[simp] theorem setEoi_cmd : (setEoi s).cmd = s.cmd := rfl
@[simp] theorem setEoi_current : (setEoi s).current = s.current := rfl
@[simp] theorem setEoi_status : (setEoi s).status = { s.status with eoi := true } := rfl
@[simp] theorem setEoi_faultInfo : (setEoi s).faultInfo = s.faultInfo := rfl
@[simp] theorem setEoi_result : (setEoi s).result = s.result := rfl
@[simp] theorem setEoi_symCount : (setEoi s).symCount = s.symCount := rfl
@[simp] theorem setEoi_rams : (setEoi s).rams = s.rams := rfl
@[simp] theorem setEoi_input : (setEoi s).input = s.input := rfl
@[simp] theorem setEoi_output : (setEoi s).output = s.output := rfl
@[simp] theorem setEoi_schedule : (setEoi s).schedule = s.schedule := rfl
@[simp] theorem setEoi_observed : (setEoi s).observed = s.observed := rfl

/-! ### setTrunc -/

@[simp] theorem setTrunc_params : (setTrunc s).params = s.params := rfl
@[simp] theorem setTrunc_cmd : (setTrunc s).cmd = s.cmd := rfl
@[simp] theorem setTrunc_current : (setTrunc s).current = s.current := rfl
@[simp] theorem setTrunc_status : (setTrunc s).status = { s.status with trunc := true } := rfl
@[simp] theorem setTrunc_faultInfo : (setTrunc s).faultInfo = s.faultInfo := rfl
@[simp] theorem setTrunc_result : (setTrunc s).result = s.result := rfl
@[simp] theorem setTrunc_symCount : (setTrunc s).symCount = s.symCount := rfl
@[simp] theorem setTrunc_rams : (setTrunc s).rams = s.rams := rfl
@[simp] theorem setTrunc_input : (setTrunc s).input = s.input := rfl
@[simp] theorem setTrunc_output : (setTrunc s).output = s.output := rfl
@[simp] theorem setTrunc_schedule : (setTrunc s).schedule = s.schedule := rfl
@[simp] theorem setTrunc_observed : (setTrunc s).observed = s.observed := rfl

/-! ### clearResult -/

@[simp] theorem clearResult_params : (clearResult s).params = s.params := rfl
@[simp] theorem clearResult_cmd : (clearResult s).cmd = s.cmd := rfl
@[simp] theorem clearResult_current : (clearResult s).current = s.current := rfl
@[simp] theorem clearResult_status : (clearResult s).status = s.status := rfl
@[simp] theorem clearResult_faultInfo : (clearResult s).faultInfo = s.faultInfo := rfl
@[simp] theorem clearResult_result : (clearResult s).result = 0#32 := rfl
@[simp] theorem clearResult_symCount : (clearResult s).symCount = s.symCount := rfl
@[simp] theorem clearResult_rams : (clearResult s).rams = s.rams := rfl
@[simp] theorem clearResult_input : (clearResult s).input = s.input := rfl
@[simp] theorem clearResult_output : (clearResult s).output = s.output := rfl
@[simp] theorem clearResult_schedule : (clearResult s).schedule = s.schedule := rfl
@[simp] theorem clearResult_observed : (clearResult s).observed = s.observed := rfl

/-! ### returnSymbol -/

@[simp] theorem returnSymbol_params (r : Sym) : (returnSymbol r s).params = s.params := rfl
@[simp] theorem returnSymbol_cmd (r : Sym) : (returnSymbol r s).cmd = s.cmd := rfl
@[simp] theorem returnSymbol_current (r : Sym) : (returnSymbol r s).current = s.current := rfl
@[simp] theorem returnSymbol_status (r : Sym) : (returnSymbol r s).status = s.status.detect r := rfl
@[simp] theorem returnSymbol_faultInfo (r : Sym) : (returnSymbol r s).faultInfo = s.faultInfo := rfl
@[simp] theorem returnSymbol_result (r : Sym) : (returnSymbol r s).result = resultWord r := rfl
@[simp] theorem returnSymbol_symCount (r : Sym) : (returnSymbol r s).symCount = s.symCount := rfl
@[simp] theorem returnSymbol_rams (r : Sym) : (returnSymbol r s).rams = s.rams := rfl
@[simp] theorem returnSymbol_input (r : Sym) : (returnSymbol r s).input = s.input := rfl
@[simp] theorem returnSymbol_output (r : Sym) : (returnSymbol r s).output = s.output := rfl
@[simp] theorem returnSymbol_schedule (r : Sym) : (returnSymbol r s).schedule = s.schedule := rfl
@[simp] theorem returnSymbol_observed (r : Sym) : (returnSymbol r s).observed = s.observed := rfl

/-! ### clearSymCount -/

@[simp] theorem clearSymCount_params : (clearSymCount s).params = s.params := rfl
@[simp] theorem clearSymCount_cmd : (clearSymCount s).cmd = s.cmd := rfl
@[simp] theorem clearSymCount_current : (clearSymCount s).current = s.current := rfl
@[simp] theorem clearSymCount_status : (clearSymCount s).status = s.status := rfl
@[simp] theorem clearSymCount_faultInfo : (clearSymCount s).faultInfo = s.faultInfo := rfl
@[simp] theorem clearSymCount_result : (clearSymCount s).result = s.result := rfl
@[simp] theorem clearSymCount_symCount : (clearSymCount s).symCount = 0#32 := rfl
@[simp] theorem clearSymCount_rams : (clearSymCount s).rams = s.rams := rfl
@[simp] theorem clearSymCount_input : (clearSymCount s).input = s.input := rfl
@[simp] theorem clearSymCount_output : (clearSymCount s).output = s.output := rfl
@[simp] theorem clearSymCount_schedule : (clearSymCount s).schedule = s.schedule := rfl
@[simp] theorem clearSymCount_observed : (clearSymCount s).observed = s.observed := rfl

/-! ### countSymbol -/

@[simp] theorem countSymbol_params : (countSymbol s).params = s.params := rfl
@[simp] theorem countSymbol_cmd : (countSymbol s).cmd = s.cmd := rfl
@[simp] theorem countSymbol_current : (countSymbol s).current = s.current := rfl
@[simp] theorem countSymbol_status : (countSymbol s).status = s.status := rfl
@[simp] theorem countSymbol_faultInfo : (countSymbol s).faultInfo = s.faultInfo := rfl
@[simp] theorem countSymbol_result : (countSymbol s).result = s.result := rfl
@[simp] theorem countSymbol_symCount : (countSymbol s).symCount = s.symCount + 1#32 := rfl
@[simp] theorem countSymbol_rams : (countSymbol s).rams = s.rams := rfl
@[simp] theorem countSymbol_input : (countSymbol s).input = s.input := rfl
@[simp] theorem countSymbol_output : (countSymbol s).output = s.output := rfl
@[simp] theorem countSymbol_schedule : (countSymbol s).schedule = s.schedule := rfl
@[simp] theorem countSymbol_observed : (countSymbol s).observed = s.observed := rfl

/-! ### setInput -/

@[simp] theorem setInput_params (p : InPath) : (setInput p s).params = s.params := rfl
@[simp] theorem setInput_cmd (p : InPath) : (setInput p s).cmd = s.cmd := rfl
@[simp] theorem setInput_current (p : InPath) : (setInput p s).current = s.current := rfl
@[simp] theorem setInput_status (p : InPath) : (setInput p s).status = s.status := rfl
@[simp] theorem setInput_faultInfo (p : InPath) : (setInput p s).faultInfo = s.faultInfo := rfl
@[simp] theorem setInput_result (p : InPath) : (setInput p s).result = s.result := rfl
@[simp] theorem setInput_symCount (p : InPath) : (setInput p s).symCount = s.symCount := rfl
@[simp] theorem setInput_rams (p : InPath) : (setInput p s).rams = s.rams := rfl
@[simp] theorem setInput_input (p : InPath) : (setInput p s).input = p := rfl
@[simp] theorem setInput_output (p : InPath) : (setInput p s).output = s.output := rfl
@[simp] theorem setInput_schedule (p : InPath) : (setInput p s).schedule = s.schedule := rfl
@[simp] theorem setInput_observed (p : InPath) : (setInput p s).observed = s.observed := rfl

/-! ### setOutput -/

@[simp] theorem setOutput_params (p : OutPath) : (setOutput p s).params = s.params := rfl
@[simp] theorem setOutput_cmd (p : OutPath) : (setOutput p s).cmd = s.cmd := rfl
@[simp] theorem setOutput_current (p : OutPath) : (setOutput p s).current = s.current := rfl
@[simp] theorem setOutput_status (p : OutPath) : (setOutput p s).status = s.status := rfl
@[simp] theorem setOutput_faultInfo (p : OutPath) : (setOutput p s).faultInfo = s.faultInfo := rfl
@[simp] theorem setOutput_result (p : OutPath) : (setOutput p s).result = s.result := rfl
@[simp] theorem setOutput_symCount (p : OutPath) : (setOutput p s).symCount = s.symCount := rfl
@[simp] theorem setOutput_rams (p : OutPath) : (setOutput p s).rams = s.rams := rfl
@[simp] theorem setOutput_input (p : OutPath) : (setOutput p s).input = s.input := rfl
@[simp] theorem setOutput_output (p : OutPath) : (setOutput p s).output = p := rfl
@[simp] theorem setOutput_schedule (p : OutPath) : (setOutput p s).schedule = s.schedule := rfl
@[simp] theorem setOutput_observed (p : OutPath) : (setOutput p s).observed = s.observed := rfl

/-! ### softReset -/

@[simp] theorem softReset_params : (softReset s).params = s.params := rfl
@[simp] theorem softReset_cmd : (softReset s).cmd = 0#32 := rfl
@[simp] theorem softReset_current : (softReset s).current = none := rfl
@[simp] theorem softReset_status : (softReset s).status = Status.zero := rfl
@[simp] theorem softReset_faultInfo : (softReset s).faultInfo = 0#32 := rfl
@[simp] theorem softReset_result : (softReset s).result = 0#32 := rfl
@[simp] theorem softReset_symCount : (softReset s).symCount = 0#32 := rfl
@[simp] theorem softReset_rams : (softReset s).rams = s.rams := rfl
@[simp] theorem softReset_input : (softReset s).input = InPath.empty := rfl
@[simp] theorem softReset_output : (softReset s).output = OutPath.empty := rfl
@[simp] theorem softReset_schedule : (softReset s).schedule = s.schedule := rfl
@[simp] theorem softReset_observed : (softReset s).observed = s.observed := rfl

/-! ### hardReset -/

@[simp] theorem hardReset_params : (hardReset s).params = s.params := rfl
@[simp] theorem hardReset_cmd : (hardReset s).cmd = 0#32 := rfl
@[simp] theorem hardReset_current : (hardReset s).current = none := rfl
@[simp] theorem hardReset_status : (hardReset s).status = Status.zero := rfl
@[simp] theorem hardReset_faultInfo : (hardReset s).faultInfo = 0#32 := rfl
@[simp] theorem hardReset_result : (hardReset s).result = 0#32 := rfl
@[simp] theorem hardReset_symCount : (hardReset s).symCount = 0#32 := rfl
@[simp] theorem hardReset_rams : (hardReset s).rams = { node := [], cfg := [], bits := [], epoch := s.rams.epoch + 1 } := rfl
@[simp] theorem hardReset_input : (hardReset s).input = InPath.empty := rfl
@[simp] theorem hardReset_output : (hardReset s).output = OutPath.empty := rfl
@[simp] theorem hardReset_schedule : (hardReset s).schedule = s.schedule := rfl
@[simp] theorem hardReset_observed : (hardReset s).observed = s.observed := rfl

/-! ### clearIn -/

@[simp] theorem clearIn_params : (clearIn s).params = s.params := rfl
@[simp] theorem clearIn_cmd : (clearIn s).cmd = s.cmd := rfl
@[simp] theorem clearIn_current : (clearIn s).current = s.current := rfl
@[simp] theorem clearIn_status : (clearIn s).status = { s.status with inEnd := false } := rfl
@[simp] theorem clearIn_faultInfo : (clearIn s).faultInfo = s.faultInfo := rfl
@[simp] theorem clearIn_result : (clearIn s).result = s.result := rfl
@[simp] theorem clearIn_symCount : (clearIn s).symCount = s.symCount := rfl
@[simp] theorem clearIn_rams : (clearIn s).rams = s.rams := rfl
@[simp] theorem clearIn_input : (clearIn s).input = InPath.empty := rfl
@[simp] theorem clearIn_output : (clearIn s).output = s.output := rfl
@[simp] theorem clearIn_schedule : (clearIn s).schedule = s.schedule := rfl
@[simp] theorem clearIn_observed : (clearIn s).observed = s.observed := rfl

/-! ### endInput -/

@[simp] theorem endInput_params : (endInput s).params = s.params := rfl
@[simp] theorem endInput_cmd : (endInput s).cmd = s.cmd := rfl
@[simp] theorem endInput_current : (endInput s).current = s.current := rfl
@[simp] theorem endInput_status : (endInput s).status = { s.status with inEnd := true } := rfl
@[simp] theorem endInput_faultInfo : (endInput s).faultInfo = s.faultInfo := rfl
@[simp] theorem endInput_result : (endInput s).result = s.result := rfl
@[simp] theorem endInput_symCount : (endInput s).symCount = s.symCount := rfl
@[simp] theorem endInput_rams : (endInput s).rams = s.rams := rfl
@[simp] theorem endInput_input : (endInput s).input = s.input := rfl
@[simp] theorem endInput_output : (endInput s).output = s.output := rfl
@[simp] theorem endInput_schedule : (endInput s).schedule = s.schedule := rfl
@[simp] theorem endInput_observed : (endInput s).observed = s.observed := rfl

/-! ### clearOut -/

@[simp] theorem clearOut_params : (clearOut s).params = s.params := rfl
@[simp] theorem clearOut_cmd : (clearOut s).cmd = s.cmd := rfl
@[simp] theorem clearOut_current : (clearOut s).current = s.current := rfl
@[simp] theorem clearOut_status : (clearOut s).status = s.status := rfl
@[simp] theorem clearOut_faultInfo : (clearOut s).faultInfo = s.faultInfo := rfl
@[simp] theorem clearOut_result : (clearOut s).result = s.result := rfl
@[simp] theorem clearOut_symCount : (clearOut s).symCount = s.symCount := rfl
@[simp] theorem clearOut_rams : (clearOut s).rams = s.rams := rfl
@[simp] theorem clearOut_input : (clearOut s).input = s.input := rfl
@[simp] theorem clearOut_output : (clearOut s).output = OutPath.empty := rfl
@[simp] theorem clearOut_schedule : (clearOut s).schedule = s.schedule := rfl
@[simp] theorem clearOut_observed : (clearOut s).observed = s.observed := rfl

/-! ### observe -/

@[simp] theorem observe_params (v : Word) : (observe v s).params = s.params := rfl
@[simp] theorem observe_cmd (v : Word) : (observe v s).cmd = s.cmd := rfl
@[simp] theorem observe_current (v : Word) : (observe v s).current = s.current := rfl
@[simp] theorem observe_status (v : Word) : (observe v s).status = s.status := rfl
@[simp] theorem observe_faultInfo (v : Word) : (observe v s).faultInfo = s.faultInfo := rfl
@[simp] theorem observe_result (v : Word) : (observe v s).result = s.result := rfl
@[simp] theorem observe_symCount (v : Word) : (observe v s).symCount = s.symCount := rfl
@[simp] theorem observe_rams (v : Word) : (observe v s).rams = s.rams := rfl
@[simp] theorem observe_input (v : Word) : (observe v s).input = s.input := rfl
@[simp] theorem observe_output (v : Word) : (observe v s).output = s.output := rfl
@[simp] theorem observe_schedule (v : Word) : (observe v s).schedule = s.schedule := rfl
@[simp] theorem observe_observed (v : Word) : (observe v s).observed = s.observed ++ [v] := rfl

/-! ### setAccErr -/

@[simp] theorem setAccErr_params : (setAccErr s).params = s.params := rfl
@[simp] theorem setAccErr_cmd : (setAccErr s).cmd = s.cmd := rfl
@[simp] theorem setAccErr_current : (setAccErr s).current = s.current := rfl
@[simp] theorem setAccErr_status : (setAccErr s).status = { s.status with accErr := true } := rfl
@[simp] theorem setAccErr_faultInfo : (setAccErr s).faultInfo = s.faultInfo := rfl
@[simp] theorem setAccErr_result : (setAccErr s).result = s.result := rfl
@[simp] theorem setAccErr_symCount : (setAccErr s).symCount = s.symCount := rfl
@[simp] theorem setAccErr_rams : (setAccErr s).rams = s.rams := rfl
@[simp] theorem setAccErr_input : (setAccErr s).input = s.input := rfl
@[simp] theorem setAccErr_output : (setAccErr s).output = s.output := rfl
@[simp] theorem setAccErr_schedule : (setAccErr s).schedule = s.schedule := rfl
@[simp] theorem setAccErr_observed : (setAccErr s).observed = s.observed := rfl

variable (st : Status)

/-! ### Status.accepted -/

@[simp] theorem accepted_done : st.accepted.done = false := rfl
@[simp] theorem accepted_fault : st.accepted.fault = st.fault := rfl
@[simp] theorem accepted_eos : st.accepted.eos = false := rfl
@[simp] theorem accepted_eoi : st.accepted.eoi = false := rfl
@[simp] theorem accepted_trunc : st.accepted.trunc = false := rfl
@[simp] theorem accepted_treeOk : st.accepted.treeOk = st.treeOk := rfl
@[simp] theorem accepted_inOvf : st.accepted.inOvf = st.inOvf := rfl
@[simp] theorem accepted_accErr : st.accepted.accErr = st.accErr := rfl
@[simp] theorem accepted_waitIn : st.accepted.waitIn = st.waitIn := rfl
@[simp] theorem accepted_waitOut : st.accepted.waitOut = st.waitOut := rfl
@[simp] theorem accepted_inEnd : st.accepted.inEnd = st.inEnd := rfl

/-! ### Status.noWait -/

@[simp] theorem noWait_done : st.noWait.done = st.done := rfl
@[simp] theorem noWait_fault : st.noWait.fault = st.fault := rfl
@[simp] theorem noWait_eos : st.noWait.eos = st.eos := rfl
@[simp] theorem noWait_eoi : st.noWait.eoi = st.eoi := rfl
@[simp] theorem noWait_trunc : st.noWait.trunc = st.trunc := rfl
@[simp] theorem noWait_treeOk : st.noWait.treeOk = st.treeOk := rfl
@[simp] theorem noWait_inOvf : st.noWait.inOvf = st.inOvf := rfl
@[simp] theorem noWait_accErr : st.noWait.accErr = st.accErr := rfl
@[simp] theorem noWait_waitIn : st.noWait.waitIn = false := rfl
@[simp] theorem noWait_waitOut : st.noWait.waitOut = false := rfl
@[simp] theorem noWait_inEnd : st.noWait.inEnd = st.inEnd := rfl

/-! ### Status.ended -/

@[simp] theorem ended_done : st.ended.done = true := rfl
@[simp] theorem ended_fault : st.ended.fault = st.fault := rfl
@[simp] theorem ended_eos : st.ended.eos = st.eos := rfl
@[simp] theorem ended_eoi : st.ended.eoi = st.eoi := rfl
@[simp] theorem ended_trunc : st.ended.trunc = st.trunc := rfl
@[simp] theorem ended_treeOk : st.ended.treeOk = st.treeOk := rfl
@[simp] theorem ended_inOvf : st.ended.inOvf = st.inOvf := rfl
@[simp] theorem ended_accErr : st.ended.accErr = st.accErr := rfl
@[simp] theorem ended_waitIn : st.ended.waitIn = false := rfl
@[simp] theorem ended_waitOut : st.ended.waitOut = false := rfl
@[simp] theorem ended_inEnd : st.ended.inEnd = st.inEnd := rfl

/-! ### Status.faulted -/

@[simp] theorem faulted_done : st.faulted.done = st.done := rfl
@[simp] theorem faulted_fault : st.faulted.fault = true := rfl
@[simp] theorem faulted_eos : st.faulted.eos = st.eos := rfl
@[simp] theorem faulted_eoi : st.faulted.eoi = st.eoi := rfl
@[simp] theorem faulted_trunc : st.faulted.trunc = st.trunc := rfl
@[simp] theorem faulted_treeOk : st.faulted.treeOk = st.treeOk := rfl
@[simp] theorem faulted_inOvf : st.faulted.inOvf = st.inOvf := rfl
@[simp] theorem faulted_accErr : st.faulted.accErr = st.accErr := rfl
@[simp] theorem faulted_waitIn : st.faulted.waitIn = false := rfl
@[simp] theorem faulted_waitOut : st.faulted.waitOut = false := rfl
@[simp] theorem faulted_inEnd : st.faulted.inEnd = st.inEnd := rfl

/-! ### Status.clearWritten -/

@[simp] theorem clearWritten_done (w : Word) : (st.clearWritten w).done = (st.done && !w.getLsbD 1) := rfl
@[simp] theorem clearWritten_fault (w : Word) : (st.clearWritten w).fault = (st.fault && !w.getLsbD 2) := rfl
@[simp] theorem clearWritten_eos (w : Word) : (st.clearWritten w).eos = st.eos := rfl
@[simp] theorem clearWritten_eoi (w : Word) : (st.clearWritten w).eoi = st.eoi := rfl
@[simp] theorem clearWritten_trunc (w : Word) : (st.clearWritten w).trunc = st.trunc := rfl
@[simp] theorem clearWritten_treeOk (w : Word) : (st.clearWritten w).treeOk = st.treeOk := rfl
@[simp] theorem clearWritten_inOvf (w : Word) : (st.clearWritten w).inOvf = (st.inOvf && !w.getLsbD 7) := rfl
@[simp] theorem clearWritten_accErr (w : Word) : (st.clearWritten w).accErr = (st.accErr && !w.getLsbD 8) := rfl
@[simp] theorem clearWritten_waitIn (w : Word) : (st.clearWritten w).waitIn = st.waitIn := rfl
@[simp] theorem clearWritten_waitOut (w : Word) : (st.clearWritten w).waitOut = st.waitOut := rfl
@[simp] theorem clearWritten_inEnd (w : Word) : (st.clearWritten w).inEnd = st.inEnd := rfl

/-! ### Status.detect: only EOS can change (R131) -/

@[simp] theorem detect_done (r : Sym) : (st.detect r).done = st.done := by
  unfold Status.detect; split <;> rfl
@[simp] theorem detect_fault (r : Sym) : (st.detect r).fault = st.fault := by
  unfold Status.detect; split <;> rfl
@[simp] theorem detect_eos (r : Sym) : (st.detect r).eos = (decide (r = eosSym) || st.eos) := by
  unfold Status.detect; split <;> simp_all
@[simp] theorem detect_eoi (r : Sym) : (st.detect r).eoi = st.eoi := by
  unfold Status.detect; split <;> rfl
@[simp] theorem detect_trunc (r : Sym) : (st.detect r).trunc = st.trunc := by
  unfold Status.detect; split <;> rfl
@[simp] theorem detect_treeOk (r : Sym) : (st.detect r).treeOk = st.treeOk := by
  unfold Status.detect; split <;> rfl
@[simp] theorem detect_inOvf (r : Sym) : (st.detect r).inOvf = st.inOvf := by
  unfold Status.detect; split <;> rfl
@[simp] theorem detect_accErr (r : Sym) : (st.detect r).accErr = st.accErr := by
  unfold Status.detect; split <;> rfl
@[simp] theorem detect_waitIn (r : Sym) : (st.detect r).waitIn = st.waitIn := by
  unfold Status.detect; split <;> rfl
@[simp] theorem detect_waitOut (r : Sym) : (st.detect r).waitOut = st.waitOut := by
  unfold Status.detect; split <;> rfl
@[simp] theorem detect_inEnd (r : Sym) : (st.detect r).inEnd = st.inEnd := by
  unfold Status.detect; split <;> rfl

end Sys2Proof.Machine
end

