-- ==== Sys2Proof/Laws/Access.lean ====
section
/-! SUPPORT. What a host access can do, said once (spec/20_memory.md R61, R65, R72). -/

namespace Sys2Proof.Machine

/-- What a register list gives stands in the list. -/
theorem findReg_mem (l : List (Nat × Reg)) (off : Nat) (r : Reg) (h : findReg l off = some r) : (off, r) ∈ l := by
  induction l with
  | nil => exact absurd h (by simp [findReg])
  | cons e rest ih =>
    obtain ⟨a, q⟩ := e
    unfold findReg at h
    by_cases ha : off = a
    · rw [if_pos ha] at h
      injection h with h; subst h; subst ha
      exact List.mem_cons_self
    · rw [if_neg ha] at h
      exact List.mem_cons_of_mem _ (ih h)

/-- A register below 0x1000 stands at its own offset and is no RAM word (R61). -/
theorem fixedReg_offset (off : Nat) (r : Reg) (h : fixedReg off = some r) :
    regOffset r = off ∧ off ≤ 0x030 ∧ off % 4 = 0 ∧ ∀ p, regExists p r = true := by
  have hm := findReg_mem _ _ _ h
  have key : ∀ e ∈ fixedMap, regOffset e.2 = e.1 ∧ e.1 ≤ 0x030 ∧ e.1 % 4 = 0 := by decide
  have hx : ∀ e ∈ fixedMap, ∀ p, regExists p e.2 = true := by
    intro e he p
    simp only [fixedMap, List.mem_cons, List.not_mem_nil, or_false] at he
    rcases he with rfl | rfl | rfl | rfl | rfl | rfl | rfl | rfl | rfl | rfl | rfl | rfl | rfl <;> rfl
  obtain ⟨h1, h2, h3⟩ := key _ hm
  exact ⟨h1, h2, h3, hx _ hm⟩

/-- What the map has at an aligned offset stands at that offset and exists (R61). -/
theorem regAt_offset (p : Params) (off : Nat) (r : Reg) (h4 : off % 4 = 0) (h : regAt p off = some r) :
    regOffset r = off ∧ regExists p r = true := by
  unfold regAt at h
  by_cases h1 : off < 0x1000
  · rw [if_pos h1] at h
    obtain ⟨e, -, -, x⟩ := fixedReg_offset off r h
    exact ⟨e, x p⟩
  rw [if_neg h1] at h
  by_cases h2 : off < 0x2000
  · rw [if_pos h2] at h
    by_cases h3 : (off - 0x1000) / 4 < p.nNodes
    · rw [if_pos h3] at h
      injection h with h; subst h
      exact ⟨by simp only [regOffset]; omega, by simpa [regExists] using h3⟩
    · rw [if_neg h3] at h; exact absurd h (by simp)
  rw [if_neg h2] at h
  by_cases h3 : 256 < (off - 0x2000) / 64
  · rw [if_pos h3] at h; exact absurd h (by simp)
  rw [if_neg h3] at h
  by_cases h5 : (off - 0x2000) % 64 / 4 = 0
  · rw [if_pos h5] at h
    injection h with h; subst h
    exact ⟨by simp only [regOffset]; omega, by simp [regExists]; omega⟩
  rw [if_neg h5] at h
  by_cases h6 : (off - 0x2000) % 64 / 4 ≤ 8
  · rw [if_pos h6] at h
    injection h with h; subst h
    exact ⟨by simp only [regOffset]; omega, by simp [regExists]; omega⟩
  · rw [if_neg h6] at h; exact absurd h (by simp)

/-- The register an access reaches: the access is a whole aligned word, mapped, and not dropped in this state (R65). -/
theorem accessTarget_some (a : Access) (s : State) (r : Reg) (h : accessTarget a s = some r) :
    a.size = 4 ∧ a.offset.toNat % 4 = 0 ∧ regAt s.params a.offset.toNat = some r ∧ kindDropped r a.kind s = false := by
  unfold accessTarget at h
  by_cases h1 : a.size ≠ 4 ∨ a.offset.toNat % 4 ≠ 0
  · rw [if_pos h1] at h; exact absurd h (by simp)
  rw [if_neg h1] at h
  cases hr : regAt s.params a.offset.toNat with
  | none => rw [hr] at h; exact absurd h (by simp)
  | some r' =>
    simp only [hr] at h
    cases hk : kindDropped r' a.kind s with
    | true => rw [hk] at h; exact absurd h (by simp)
    | false =>
      rw [hk] at h
      injection h with h; subst h
      exact ⟨by omega, by omega, rfl, hk⟩

/-- A write at the offset of a register that does not drop it writes the register. -/
theorem hostAccess_write (off : BitVec 15) (r : Reg) (w : Word) (s : State) (h1 : off.toNat % 4 = 0)
    (h2 : regAt s.params off.toNat = some r) (h3 : writeDropped r w s = false) :
    hostAccess { offset := off, size := 4, kind := .write w } s = writeReg r w s := by
  simp [hostAccess, accessTarget, h1, h2, kindDropped, h3]

/-- A read at the offset of a register reads the register. -/
theorem hostAccess_read (off : BitVec 15) (r : Reg) (s : State) (h1 : off.toNat % 4 = 0)
    (h2 : regAt s.params off.toNat = some r) :
    hostAccess { offset := off, size := 4, kind := .read } s = observe (readReg r s) (readEffect r s) := by
  simp [hostAccess, accessTarget, h1, h2, kindDropped]

/-- Everything an access can do: set ACC_ERR (and read 0), read a register, or write one that does not drop the write (R65, R73). -/
theorem hostAccess_cases (a : Access) (s : State) :
    hostAccess a s = setAccErr s ∨ hostAccess a s = observe 0#32 (setAccErr s) ∨
      (∃ r, regExists s.params r = true ∧ hostAccess a s = observe (readReg r s) (readEffect r s)) ∨
      (∃ r w, regExists s.params r = true ∧ writeDropped r w s = false ∧ hostAccess a s = writeReg r w s) := by
  unfold hostAccess
  cases ht : accessTarget a s with
  | none => cases hk : a.kind <;> simp
  | some r =>
    obtain ⟨-, h4, hr, hd⟩ := accessTarget_some a s r ht
    obtain ⟨-, he⟩ := regAt_offset _ _ _ h4 hr
    cases hk : a.kind with
    | read => exact .inr (.inr (.inl ⟨r, he, rfl⟩))
    | write w => rw [hk] at hd; exact .inr (.inr (.inr ⟨r, w, he, hd, rfl⟩))

/-- A read keeps everything but the output path and the observation (R72). -/
theorem readEffect_cases (r : Reg) (s : State) : readEffect r s = s ∨ readEffect r s = setOutput (popOut s.output) s := by
  cases r <;> simp [readEffect]

/-- Everything a write to a register can do (R66 to R71). -/
theorem writeReg_cases (r : Reg) (w : Word) (s : State) :
    writeReg r w s = s ∨ (r = .cmd ∧ writeReg r w s = acceptCommand w s) ∨ (r = .status ∧ writeReg r w s = writeStatus w s) ∨
      (r = .inData ∧ writeReg r w s = offerByte (w.setWidth 8) s) ∨ (r = .ctrl ∧ writeReg r w s = writeCtrl w s) ∨
      (∃ i, r = .node i ∧ writeReg r w s = setTreeOk false { s with rams := writeNode i w s.rams }) ∨
      (∃ x, r = .codeCfg x ∧ writeReg r w s = { s with rams := writeCfg x w s.rams }) ∨
      (∃ x k, r = .codeBits x k ∧ writeReg r w s = { s with rams := writeBits x k w s.rams }) := by
  cases r <;> simp [writeReg]

end Sys2Proof.Machine
end

