-- ==== Sys2Proof/Laws/Exec.lean ====
section
/-! SUPPORT. Everything a micro-step can do, said once: one lemma per shared micro-step and one per command. -/

namespace Sys2Proof.Machine

/-! ### The shared micro-steps -/

/-- An iteration of the check (R121): a failure is a fault with TREE_OK cleared, another iteration follows, or the check passed. -/
theorem checkStep_cases (after : State → State) (stack visited : List NodeIndex) (e : Bool) (s : State) :
    (∃ sub data, checkIteration s.params s.rams stack visited e = .bad sub data ∧
      checkStep after stack visited e s = raiseFault 2#4 sub data (setTreeOk false s)) ∨
    (∃ st vis e', checkIteration s.params s.rams stack visited e = .more st vis e' ∧
      checkStep after stack visited e s = goTo (.check st vis e') s) ∨
    (checkIteration s.params s.rams stack visited e = .passed ∧
      checkStep after stack visited e s = after (setTreeOk true s)) := by
  unfold checkStep
  cases h : checkIteration s.params s.rams stack visited e with
  | bad sub data => exact .inl ⟨sub, data, rfl, rfl⟩
  | more st vis e' => exact .inr (.inl ⟨st, vis, e', rfl, rfl⟩)
  | passed => exact .inr (.inr ⟨rfl, rfl⟩)

/-- The failures of an iteration (R121): the sub-code is 1 to 5. -/
theorem checkIteration_bad (p : Params) (r : Rams) (stack visited : List NodeIndex) (e : Bool) (sub : BitVec 4) (data : NodeIndex)
    (h : checkIteration p r stack visited e = .bad sub data) :
    sub = 1#4 ∨ sub = 2#4 ∨ sub = 3#4 ∨ sub = 4#4 ∨ sub = 5#4 := by
  unfold checkIteration at h
  cases stack with
  | nil => cases e <;> simp at h; simp [← h.1]
  | cons i rest =>
    simp only at h
    split_ifs at h <;> simp at h <;> simp [← h.1]

/-- An iteration that goes on took an index in range and not visited, and marked it visited; the stack grows by one at most (R121). -/
theorem checkIteration_more (p : Params) (r : Rams) (stack visited st vis : List NodeIndex) (e e' : Bool)
    (h : checkIteration p r stack visited e = .more st vis e') :
    ∃ i rest, stack = i :: rest ∧ i.toNat < p.nNodes ∧ i ∉ visited ∧ vis = i :: visited ∧
      ((nodeIsBranch (readNode r i.toNat) = true ∧
          st = nodeLeft (readNode r i.toNat) :: nodeRight (readNode r i.toNat) :: rest ∧ e' = e) ∨
       (nodeIsBranch (readNode r i.toNat) = false ∧ (nodeSym (readNode r i.toNat)).toNat ≤ 256 ∧ st = rest ∧
         ((nodeSym (readNode r i.toNat) = eosSym ∧ e = false ∧ e' = true) ∨
          (nodeSym (readNode r i.toNat) ≠ eosSym ∧ e' = e)))) := by
  unfold checkIteration at h
  cases stack with
  | nil => cases e <;> simp at h
  | cons i rest =>
    simp only at h
    refine ⟨i, rest, rfl, ?_⟩
    split_ifs at h with h1 h2 h3 h4 h5 h6
    · injection h with a b c
      exact ⟨by omega, h2, b.symm, .inl ⟨h3, a.symm, c.symm⟩⟩
    · injection h with a b c
      exact ⟨by omega, h2, b.symm, .inr ⟨by simpa using h3, by omega, a.symm, .inl ⟨h5, by simpa using h6, c.symm⟩⟩⟩
    · injection h with a b c
      exact ⟨by omega, h2, b.symm, .inr ⟨by simpa using h3, by omega, a.symm, .inr ⟨h5, c.symm⟩⟩⟩

/-- An iteration that passes found the stack empty and EOS seen (R121). -/
theorem checkIteration_passed (p : Params) (r : Rams) (stack visited : List NodeIndex) (e : Bool)
    (h : checkIteration p r stack visited e = .passed) : stack = [] ∧ e = true := by
  unfold checkIteration at h
  cases stack with
  | nil => cases e <;> simp_all
  | cons i rest =>
    simp only at h
    split_ifs at h

/-- An iteration of the walk (R132): a leaf's symbol, the end of the input, a hold, or one bit further. -/
theorem walkStep_cases (onSymbol : Sym → State → State) (onEoi : BitVec 10 → State → State) (cur : NodeIndex)
    (n : BitVec 10) (s : State) :
    (nodeIsBranch (readNode s.rams cur.toNat) = false ∧
      walkStep onSymbol onEoi cur n s =
        onSymbol (nodeSym (readNode s.rams cur.toNat)) (returnSymbol (nodeSym (readNode s.rams cur.toNat)) s)) ∨
    (nodeIsBranch (readNode s.rams cur.toNat) = true ∧ readBit s.status.inEnd s.input = .eoi ∧
      walkStep onSymbol onEoi cur n s = onEoi n (setEoi s)) ∨
    (nodeIsBranch (readNode s.rams cur.toNat) = true ∧ readBit s.status.inEnd s.input = .hold ∧
      walkStep onSymbol onEoi cur n s = holdIn s) ∨
    (∃ b q, nodeIsBranch (readNode s.rams cur.toNat) = true ∧ readBit s.status.inEnd s.input = .bit b q ∧
      walkStep onSymbol onEoi cur n s =
        goTo (.walk (nodeChild (readNode s.rams cur.toNat) b) (n + 1#10)) (setInput q s)) := by
  unfold walkStep walkIteration
  cases hb : nodeIsBranch (readNode s.rams cur.toNat) with
  | false => exact .inl ⟨rfl, by simp⟩
  | true =>
    cases hr : readBit s.status.inEnd s.input with
    | hold => exact .inr (.inr (.inl ⟨rfl, rfl, by simp⟩))
    | eoi => exact .inr (.inl ⟨rfl, rfl, by simp⟩)
    | bit b q => exact .inr (.inr (.inr ⟨b, q, rfl, rfl, by simp⟩))

/-- The lookup (R142): a fault with code 3 or 4, an empty codeword, or the first bit of a codeword of 1 to 256 bits. -/
theorem lookupStep_cases (after : State → State) (x : Sym) (s : State) :
    (∃ code : BitVec 4, (code = 3#4 ∨ code = 4#4) ∧ lookupStep after x s = raiseFault code 0#4 (x.setWidth 10) s) ∨
    (x.toNat ≤ 256 ∧ cfgValid (readCfg s.rams x.toNat) = true ∧ cfgLen (readCfg s.rams x.toNat) ≤ 256 ∧
      ((cfgLen (readCfg s.rams x.toNat) = 0 ∧ lookupStep after x s = after s) ∨
       (0 < cfgLen (readCfg s.rams x.toNat) ∧
         lookupStep after x s = goTo (.code x (cfgLen (readCfg s.rams x.toNat)) 0) s))) := by
  unfold lookupStep
  by_cases h1 : 256 < x.toNat
  · exact .inl ⟨3#4, .inl rfl, by rw [if_pos h1]⟩
  by_cases h2 : cfgValid (readCfg s.rams x.toNat) = true
  · by_cases h3 : 256 < cfgLen (readCfg s.rams x.toNat)
    · exact .inl ⟨4#4, .inr rfl, by rw [if_neg h1, if_pos h2, if_pos h3]⟩
    · refine .inr ⟨by omega, h2, by omega, ?_⟩
      by_cases h4 : cfgLen (readCfg s.rams x.toNat) = 0
      · exact .inl ⟨h4, by rw [if_neg h1, if_pos h2, if_neg h3, if_pos h4]⟩
      · exact .inr ⟨by omega, by rw [if_neg h1, if_pos h2, if_neg h3, if_neg h4]⟩
  · exact .inl ⟨3#4, .inl rfl, by rw [if_neg h1, if_neg h2]⟩

/-- A WriteBit micro-step (R82): held, or the bit written. -/
theorem writeStep_cases (b : Bool) (k : State → State) (s : State) :
    (writeBit s.params.outDepth b s.output = none ∧ writeStep b k s = holdOut s) ∨
    (∃ q, writeBit s.params.outDepth b s.output = some q ∧ writeStep b k s = k (setOutput q s)) := by
  unfold writeStep
  cases h : writeBit s.params.outDepth b s.output with
  | none => exact .inl ⟨rfl, rfl⟩
  | some q => exact .inr ⟨q, rfl, rfl⟩

/-- A Flush micro-step (R83): held, or the command ends. -/
theorem flushStep_cases (s : State) :
    (flushOut s.params.outDepth s.output = none ∧ flushStep s = holdOut s) ∨
    (∃ q, flushOut s.params.outDepth s.output = some q ∧ flushStep s = finish (setOutput q s)) := by
  unfold flushStep
  cases h : flushOut s.params.outDepth s.output with
  | none => exact .inl ⟨rfl, rfl⟩
  | some q => exact .inr ⟨q, rfl, rfl⟩

/-- The ReadBits8 micro-step of COMPRESS (R152): held, the end of the input, or a byte. -/
theorem readStep_cases (s : State) :
    (readBits8 s.status.inEnd s.input = .hold ∧ readStep s = holdIn s) ∨
    (readBits8 s.status.inEnd s.input = .eoi ∧ readStep s = goTo (.lookup eosSym) (setEoi s)) ∨
    (∃ v q, readBits8 s.status.inEnd s.input = .byte v q ∧
      readStep s = goTo (.lookup (v.setWidth 9)) (countSymbol (setInput q s))) := by
  unfold readStep
  cases h : readBits8 s.status.inEnd s.input with
  | hold => exact .inl ⟨rfl, rfl⟩
  | eoi => exact .inr (.inl ⟨rfl, rfl⟩)
  | byte v q => exact .inr (.inr ⟨v, q, rfl, rfl⟩)

/-! ### The commands -/

theorem atPos_some (s : State) (f : Pos → Result) (c : Command) (h : s.current = some c) : atPos s f = f c.pos := by
  simp [atPos, h]

/-- A meaning that answers a next state had a command, and ran its position. -/
theorem atPos_next (s t : State) (f : Pos → Result) (h : atPos s f = .next t) :
    ∃ c, s.current = some c ∧ f c.pos = .next t := by
  unfold atPos at h
  cases hc : s.current with
  | none => rw [hc] at h; simp at h
  | some c => rw [hc] at h; exact ⟨c, rfl, h⟩

/-- Everything VALIDATE_TREE can do in a micro-step (R120). -/
theorem execValidateTree_cases (s t : State) (h : exec .validateTree s = .next t) : ∃ c, s.current = some c ∧
    ((c.pos = .first ∧ t = goTo checkStart s) ∨
     (∃ st vis e, c.pos = .check st vis e ∧ t = checkStep finish st vis e s)) := by
  have h : execValidateTree s = .next t := h
  unfold execValidateTree at h
  obtain ⟨c, hc, hf⟩ := atPos_next s t _ h
  refine ⟨c, hc, ?_⟩
  cases hp : c.pos <;> rw [hp] at hf <;>
    simp only [Host.Outcome.next.injEq, reduceCtorEq] at hf <;> subst hf <;> simp [-Bool.exists_bool]

/-- Everything DECODE_SYMBOL can do in a micro-step (R130). -/
theorem execDecodeSymbol_cases (s t : State) (h : exec .decodeSymbol s = .next t) : ∃ c, s.current = some c ∧
    ((c.pos = .first ∧ t = startDecode (clearResult s)) ∨
     (∃ st vis e, c.pos = .check st vis e ∧ t = checkStep (goTo walkStart) st vis e s) ∨
     (∃ cur n, c.pos = .walk cur n ∧ t = walkStep (fun _ => finish) (raiseFault 5#4 0#4) cur n s)) := by
  have h : execDecodeSymbol s = .next t := h
  unfold execDecodeSymbol at h
  obtain ⟨c, hc, hf⟩ := atPos_next s t _ h
  refine ⟨c, hc, ?_⟩
  cases hp : c.pos <;> rw [hp] at hf <;>
    simp only [Host.Outcome.next.injEq, reduceCtorEq] at hf <;> subst hf <;> simp [-Bool.exists_bool]

/-- Everything ENCODE_SYMBOL can do in a micro-step (R140). -/
theorem execEncodeSymbol_cases (sym : Sym) (s t : State) (h : exec (.encodeSymbol sym) s = .next t) : ∃ c, s.current = some c ∧
    ((c.pos = .first ∧ t = goTo (.lookup sym) s) ∨
     (∃ x, c.pos = .lookup x ∧ t = lookupStep finish x s) ∨
     (∃ x len j, c.pos = .code x len j ∧ t = codeStep finish x len j s)) := by
  have h : execEncodeSymbol sym s = .next t := h
  unfold execEncodeSymbol at h
  obtain ⟨c, hc, hf⟩ := atPos_next s t _ h
  refine ⟨c, hc, ?_⟩
  cases hp : c.pos <;> rw [hp] at hf <;>
    simp only [Host.Outcome.next.injEq, reduceCtorEq] at hf <;> subst hf <;> simp [-Bool.exists_bool]

/-- Everything FLUSH can do in a micro-step (R141). -/
theorem execFlush_cases (s t : State) (h : exec .flush s = .next t) : ∃ c, s.current = some c ∧
    ((c.pos = .first ∧ t = goTo .flush s) ∨ (c.pos = .flush ∧ t = flushStep s)) := by
  have h : execFlush s = .next t := h
  unfold execFlush at h
  obtain ⟨c, hc, hf⟩ := atPos_next s t _ h
  refine ⟨c, hc, ?_⟩
  cases hp : c.pos <;> rw [hp] at hf <;>
    simp only [Host.Outcome.next.injEq, reduceCtorEq] at hf <;> subst hf <;> simp [-Bool.exists_bool]

/-- Everything DECOMPRESS can do in a micro-step (R150). -/
theorem execDecompress_cases (s t : State) (h : exec .decompress s = .next t) : ∃ c, s.current = some c ∧
    ((c.pos = .first ∧ t = startDecode (clearSymCount (clearResult s))) ∨
     (∃ st vis e, c.pos = .check st vis e ∧ t = checkStep (goTo walkStart) st vis e s) ∨
     (∃ cur n, c.pos = .walk cur n ∧
       t = walkStep decompressSymbol (fun _ u => goTo .flush (setTrunc u)) cur n s) ∨
     (∃ r k, c.pos = .emit r k ∧ t = writeStep (r.getLsbD k) (afterEmit r k) s) ∨
     (c.pos = .flush ∧ t = flushStep s)) := by
  have h : execDecompress s = .next t := h
  unfold execDecompress at h
  obtain ⟨c, hc, hf⟩ := atPos_next s t _ h
  refine ⟨c, hc, ?_⟩
  cases hp : c.pos <;> rw [hp] at hf <;>
    simp only [Host.Outcome.next.injEq, reduceCtorEq] at hf <;> subst hf <;> simp [-Bool.exists_bool]

/-- Everything COMPRESS can do in a micro-step (R152). -/
theorem execCompress_cases (s t : State) (h : exec .compress s = .next t) : ∃ c, s.current = some c ∧
    ((c.pos = .first ∧ t = goTo .read (clearSymCount s)) ∨
     (c.pos = .read ∧ t = readStep s) ∨
     (∃ x, c.pos = .lookup x ∧ t = lookupStep (afterCodeword x) x s) ∨
     (∃ x len j, c.pos = .code x len j ∧ t = codeStep (afterCodeword x) x len j s) ∨
     (∃ left, c.pos = .pad left ∧ t = writeStep false (afterPad left) s) ∨
     (c.pos = .flush ∧ t = flushStep s)) := by
  have h : execCompress s = .next t := h
  unfold execCompress at h
  obtain ⟨c, hc, hf⟩ := atPos_next s t _ h
  refine ⟨c, hc, ?_⟩
  cases hp : c.pos <;> rw [hp] at hf <;>
    simp only [Host.Outcome.next.injEq, reduceCtorEq] at hf <;> subst hf <;> simp [-Bool.exists_bool]

/-! ### The commands at each of their positions -/

theorem execValidateTree_at_first (s : State) (op : BitVec 4) (y : Sym)
    (h : s.current = some { op := op, sym := y, pos := .first }) : exec .validateTree s = .next (goTo checkStart s) := by
  have e : exec .validateTree s = execValidateTree s := rfl
  rw [e, execValidateTree, atPos_some s _ _ h]

theorem execValidateTree_at_check (s : State) (op : BitVec 4) (y : Sym) (st vis : List NodeIndex) (e : Bool)
    (h : s.current = some { op := op, sym := y, pos := .check st vis e }) : exec .validateTree s = .next (checkStep finish st vis e s) := by
  have e : exec .validateTree s = execValidateTree s := rfl
  rw [e, execValidateTree, atPos_some s _ _ h]

theorem execDecodeSymbol_at_first (s : State) (op : BitVec 4) (y : Sym)
    (h : s.current = some { op := op, sym := y, pos := .first }) : exec .decodeSymbol s = .next (startDecode (clearResult s)) := by
  have e : exec .decodeSymbol s = execDecodeSymbol s := rfl
  rw [e, execDecodeSymbol, atPos_some s _ _ h]

theorem execDecodeSymbol_at_check (s : State) (op : BitVec 4) (y : Sym) (st vis : List NodeIndex) (e : Bool)
    (h : s.current = some { op := op, sym := y, pos := .check st vis e }) : exec .decodeSymbol s = .next (checkStep (goTo walkStart) st vis e s) := by
  have e : exec .decodeSymbol s = execDecodeSymbol s := rfl
  rw [e, execDecodeSymbol, atPos_some s _ _ h]

theorem execDecodeSymbol_at_walk (s : State) (op : BitVec 4) (y : Sym) (cur : NodeIndex) (n : BitVec 10)
    (h : s.current = some { op := op, sym := y, pos := .walk cur n }) : exec .decodeSymbol s = .next (walkStep (fun _ => finish) (raiseFault 5#4 0#4) cur n s) := by
  have e : exec .decodeSymbol s = execDecodeSymbol s := rfl
  rw [e, execDecodeSymbol, atPos_some s _ _ h]

theorem execEncodeSymbol_at_first (sym : Sym) (s : State) (op : BitVec 4) (y : Sym)
    (h : s.current = some { op := op, sym := y, pos := .first }) : exec (.encodeSymbol sym) s = .next (goTo (.lookup sym) s) := by
  have e : exec (.encodeSymbol sym) s = execEncodeSymbol sym s := rfl
  rw [e, execEncodeSymbol, atPos_some s _ _ h]

theorem execEncodeSymbol_at_lookup (sym : Sym) (s : State) (op : BitVec 4) (y : Sym) (x : Sym)
    (h : s.current = some { op := op, sym := y, pos := .lookup x }) : exec (.encodeSymbol sym) s = .next (lookupStep finish x s) := by
  have e : exec (.encodeSymbol sym) s = execEncodeSymbol sym s := rfl
  rw [e, execEncodeSymbol, atPos_some s _ _ h]

theorem execEncodeSymbol_at_code (sym : Sym) (s : State) (op : BitVec 4) (y : Sym) (x : Sym) (len j : Nat)
    (h : s.current = some { op := op, sym := y, pos := .code x len j }) : exec (.encodeSymbol sym) s = .next (codeStep finish x len j s) := by
  have e : exec (.encodeSymbol sym) s = execEncodeSymbol sym s := rfl
  rw [e, execEncodeSymbol, atPos_some s _ _ h]

theorem execFlush_at_first (s : State) (op : BitVec 4) (y : Sym)
    (h : s.current = some { op := op, sym := y, pos := .first }) : exec .flush s = .next (goTo .flush s) := by
  have e : exec .flush s = execFlush s := rfl
  rw [e, execFlush, atPos_some s _ _ h]

theorem execFlush_at_flush (s : State) (op : BitVec 4) (y : Sym)
    (h : s.current = some { op := op, sym := y, pos := .flush }) : exec .flush s = .next (flushStep s) := by
  have e : exec .flush s = execFlush s := rfl
  rw [e, execFlush, atPos_some s _ _ h]

theorem execDecompress_at_first (s : State) (op : BitVec 4) (y : Sym)
    (h : s.current = some { op := op, sym := y, pos := .first }) : exec .decompress s = .next (startDecode (clearSymCount (clearResult s))) := by
  have e : exec .decompress s = execDecompress s := rfl
  rw [e, execDecompress, atPos_some s _ _ h]

theorem execDecompress_at_check (s : State) (op : BitVec 4) (y : Sym) (st vis : List NodeIndex) (e : Bool)
    (h : s.current = some { op := op, sym := y, pos := .check st vis e }) : exec .decompress s = .next (checkStep (goTo walkStart) st vis e s) := by
  have e : exec .decompress s = execDecompress s := rfl
  rw [e, execDecompress, atPos_some s _ _ h]

theorem execDecompress_at_walk (s : State) (op : BitVec 4) (y : Sym) (cur : NodeIndex) (n : BitVec 10)
    (h : s.current = some { op := op, sym := y, pos := .walk cur n }) : exec .decompress s = .next (walkStep decompressSymbol (fun _ t => goTo .flush (setTrunc t)) cur n s) := by
  have e : exec .decompress s = execDecompress s := rfl
  rw [e, execDecompress, atPos_some s _ _ h]

theorem execDecompress_at_emit (s : State) (op : BitVec 4) (y : Sym) (r : Sym) (k : Nat)
    (h : s.current = some { op := op, sym := y, pos := .emit r k }) : exec .decompress s = .next (writeStep (r.getLsbD k) (afterEmit r k) s) := by
  have e : exec .decompress s = execDecompress s := rfl
  rw [e, execDecompress, atPos_some s _ _ h]

theorem execDecompress_at_flush (s : State) (op : BitVec 4) (y : Sym)
    (h : s.current = some { op := op, sym := y, pos := .flush }) : exec .decompress s = .next (flushStep s) := by
  have e : exec .decompress s = execDecompress s := rfl
  rw [e, execDecompress, atPos_some s _ _ h]

theorem execCompress_at_first (s : State) (op : BitVec 4) (y : Sym)
    (h : s.current = some { op := op, sym := y, pos := .first }) : exec .compress s = .next (goTo .read (clearSymCount s)) := by
  have e : exec .compress s = execCompress s := rfl
  rw [e, execCompress, atPos_some s _ _ h]

theorem execCompress_at_read (s : State) (op : BitVec 4) (y : Sym)
    (h : s.current = some { op := op, sym := y, pos := .read }) : exec .compress s = .next (readStep s) := by
  have e : exec .compress s = execCompress s := rfl
  rw [e, execCompress, atPos_some s _ _ h]

theorem execCompress_at_lookup (s : State) (op : BitVec 4) (y : Sym) (x : Sym)
    (h : s.current = some { op := op, sym := y, pos := .lookup x }) : exec .compress s = .next (lookupStep (afterCodeword x) x s) := by
  have e : exec .compress s = execCompress s := rfl
  rw [e, execCompress, atPos_some s _ _ h]

theorem execCompress_at_code (s : State) (op : BitVec 4) (y : Sym) (x : Sym) (len j : Nat)
    (h : s.current = some { op := op, sym := y, pos := .code x len j }) : exec .compress s = .next (codeStep (afterCodeword x) x len j s) := by
  have e : exec .compress s = execCompress s := rfl
  rw [e, execCompress, atPos_some s _ _ h]

theorem execCompress_at_pad (s : State) (op : BitVec 4) (y : Sym) (left : Nat)
    (h : s.current = some { op := op, sym := y, pos := .pad left }) : exec .compress s = .next (writeStep false (afterPad left) s) := by
  have e : exec .compress s = execCompress s := rfl
  rw [e, execCompress, atPos_some s _ _ h]

theorem execCompress_at_flush (s : State) (op : BitVec 4) (y : Sym)
    (h : s.current = some { op := op, sym := y, pos := .flush }) : exec .compress s = .next (flushStep s) := by
  have e : exec .compress s = execCompress s := rfl
  rw [e, execCompress, atPos_some s _ _ h]

end Sys2Proof.Machine
end

