-- ==== Sys2Proof/Laws/Invariant.lean ====
section
/-! SUPPORT. The parts of the invariant, opened once: the canonical form of the RAMs through every host write, and what the position of a
running command says. -/

namespace Sys2Proof.Machine

/-- Every RAM write keeps the canonical form (log 5). -/
theorem ramsOk_writeNode (p : Params) (r : Rams) (i : Nat) (w : Word) (h : ramsOk p r = true) (hi : i < p.nNodes) :
    ramsOk p (writeNode i w r) = true := by
  simp only [ramsOk, Bool.and_eq_true, writeNode] at *
  exact ⟨⟨ramWf_store _ _ _ _ _ h.1.1 hi (isNodeForm_nodeForm w), h.1.2⟩, h.2⟩

theorem ramsOk_writeCfg (p : Params) (r : Rams) (x : Nat) (w : Word) (h : ramsOk p r = true) (hx : x ≤ 256) :
    ramsOk p (writeCfg x w r) = true := by
  simp only [ramsOk, Bool.and_eq_true, writeCfg] at *
  exact ⟨⟨h.1.1, ramWf_store _ _ _ _ _ h.1.2 (by omega) (isCfgForm_cfgForm w)⟩, h.2⟩

theorem ramsOk_writeBits (p : Params) (r : Rams) (x k : Nat) (w : Word) (h : ramsOk p r = true) (hx : x ≤ 256) (hk : k ≤ 7) :
    ramsOk p (writeBits x k w r) = true := by
  simp only [ramsOk, Bool.and_eq_true, writeBits] at *
  exact ⟨h.1, ramWf_store _ _ _ _ _ h.2 (by omega) rfl⟩

/-- A soft reset, like every other write to CTRL, leaves the RAMs. -/
theorem writeCtrl_rams (w : Word) (s : State) : (writeCtrl w s).rams = s.rams ∧ (writeCtrl w s).params = s.params := by
  unfold writeCtrl
  split
  · exact ⟨rfl, rfl⟩
  · simp only
    split <;> split <;> split <;> exact ⟨rfl, rfl⟩

/-- Every host access keeps the canonical form of the RAMs. -/
theorem ramsOk_hostAccess (a : Access) (s : State) (h : ramsOk s.params s.rams = true) :
    ramsOk (hostAccess a s).params (hostAccess a s).rams = true := by
  rcases hostAccess_cases a s with e | e | ⟨r, -, e⟩ | ⟨r, w, hr, -, e⟩ <;> rw [e]
  · exact h
  · exact h
  · rcases readEffect_cases r s with e | e <;> rw [e] <;> exact h
  · rcases writeReg_cases r w s with e | ⟨-, e⟩ | ⟨-, e⟩ | ⟨-, e⟩ | ⟨-, e⟩ | ⟨i, rfl, e⟩ | ⟨x, rfl, e⟩ | ⟨x, k, rfl, e⟩ <;> rw [e]
    · exact h
    · exact h
    · exact h
    · unfold offerByte; split <;> exact h
    · rw [(writeCtrl_rams w s).1, (writeCtrl_rams w s).2]; exact h
    · exact ramsOk_writeNode _ _ _ _ h (by simpa [regExists] using hr)
    · exact ramsOk_writeCfg _ _ _ _ h (by simpa [regExists] using hr)
    · simp only [regExists, Bool.and_eq_true, decide_eq_true_eq] at hr
      exact ramsOk_writeBits _ _ _ _ _ h hr.1 hr.2

/-- The RAMs of a reset state are in canonical form. -/
theorem ramsOk_resetWith (p : Params) : ramsOk p (State.resetWith p).rams = true := rfl

/-- A running command: CMD's fields, a position of the decoded command, the first one where the opcode is illegal (R44). -/
theorem commandOk_iff (s : State) (c : Command) :
    commandOk s c ↔ c.op = opField s.cmd ∧ c.sym = symField s.cmd ∧
      (∀ i, decodeFields c.op c.sym = .ok i → posOk s i c.pos) ∧
      (∀ e, decodeFields c.op c.sym = .error e → c.pos = .first) := by
  unfold commandOk
  cases decodeFields c.op c.sym <;> simp

/-- A position depends on the parameters, the RAMs, TREE_OK and OUT_BITS only. -/
theorem posOk_congr (s t : State) (i : Instr) (pos : Pos) (h1 : t.params = s.params) (h2 : t.rams = s.rams)
    (h3 : t.status.treeOk = s.status.treeOk) (h4 : t.output.bits = s.output.bits) : posOk t i pos ↔ posOk s i pos := by
  unfold posOk
  rw [h1, h2, h3, h4]

end Sys2Proof.Machine
end

