-- ==== Sys2Proof/Laws/PerInstr.lean ====
section
/-! SUPPORT. The one statement made per command, about its word (spec/30_encoding.md R100 to R106). -/

namespace Sys2Proof.Laws

/-- The fields of a command word put together as R100 lays them out. -/
theorem commandWord_fields (sym : Sym) (op : BitVec 4) :
    opField (0#7 ++ sym ++ 0#12 ++ op) = op ∧ symField (0#7 ++ sym ++ 0#12 ++ op) = sym := by
  have h : ∀ {a b : Nat} (x : BitVec a) (y : BitVec b), (x ++ y).toNat = x.toNat * 2 ^ b + y.toNat := by
    intro a b x y
    rw [BitVec.toNat_append, ← Nat.shiftLeft_add_eq_or_of_lt y.isLt, Nat.shiftLeft_eq]
  have h1 := sym.isLt
  have h2 := op.isLt
  constructor
  · apply BitVec.eq_of_toNat_eq
    simp only [opField, BitVec.extractLsb'_toNat, h, Nat.shiftRight_eq_div_pow]
    simp
    omega
  · apply BitVec.eq_of_toNat_eq
    simp only [symField, BitVec.extractLsb'_toNat, h, Nat.shiftRight_eq_div_pow]
    simp
    omega

namespace RoundTrip

/-- The word of command `i`: well formed, of CMD's stored form, it holds i's opcode and operand and decodes to i. -/
def Statement (i : Instr) : Prop :=
  i.wellFormed = true ∧ commandForm (encode i) = encode i ∧ opField (encode i) = opcodeOf i ∧ symField (encode i) = operandOf i ∧
    decode (encode i) = .ok i

theorem validateTree : Statement .validateTree := by unfold Statement; decide

theorem decodeSymbol : Statement .decodeSymbol := by unfold Statement; decide

theorem encodeSymbol (sym : Sym) : Statement (.encodeSymbol sym) := by
  obtain ⟨h1, h2⟩ := commandWord_fields sym 0x3#4
  refine ⟨rfl, ?_, h1, h2, ?_⟩
  · show (0#7 ++ sym ++ 0#12 ++ 0x3#4) &&& 0x01FF000F#32 = 0#7 ++ sym ++ 0#12 ++ 0x3#4
    apply BitVec.eq_of_getLsbD_eq
    intro k hk
    simp only [BitVec.getLsbD_and, BitVec.getLsbD_append]
    interval_cases k <;> simp
  · have e : decode (encode (.encodeSymbol sym)) = decodeFields 0x3#4 sym := by
      show decodeFields (opField (0#7 ++ sym ++ 0#12 ++ 0x3#4)) (symField (0#7 ++ sym ++ 0#12 ++ 0x3#4)) = _
      rw [h1, h2]
    rw [e]
    rfl

theorem flush : Statement .flush := by unfold Statement; decide

theorem decompress : Statement .decompress := by unfold Statement; decide

theorem compress : Statement .compress := by unfold Statement; decide

end RoundTrip

end Sys2Proof.Laws
end

