-- ==== Sys2Proof/Laws/Stream.lean ====
section
/-! SUPPORT. What the bit stream primitives keep, said once (spec/20_memory.md R80 to R83; the bounds of spec/10_state.md R34, R36 to R38). -/

namespace Sys2Proof.Machine

/-- ReadBit needs IN_SR or a byte of the FIFO, and leaves no more of either than 7 bits or one less (R38, R80). -/
theorem readBit_bounds (ended : Bool) (p q : InPath) (b : Bool) (h : readBit ended p = .bit b q) :
    q.bits ≤ max 7 (p.bits - 1) ∧ q.fifo.length ≤ p.fifo.length := by
  unfold readBit at h
  split at h
  · cases hf : p.fifo with
    | nil => rw [hf] at h; cases ended <;> simp at h
    | cons x r => rw [hf] at h; simp [takeBit] at h; rw [← h.2]; simp
  · simp [takeBit] at h; rw [← h.2]; simp

theorem gatherBits_bounds (n : Nat) (v : Byte) (p : InPath) (h : p.bits ≤ 8) :
    (gatherBits n v p).2.bits ≤ 8 ∧ (gatherBits n v p).2.fifo.length ≤ p.fifo.length := by
  induction n generalizing v p with
  | zero => simp [gatherBits, h]
  | succ n ih =>
    unfold gatherBits
    cases hb : readBit true p with
    | bit b q =>
      have h1 := readBit_bounds _ _ _ _ hb
      have h2 := ih (v.shiftConcat b) q (by omega)
      simp only
      omega
    | eoi => simp [h]
    | hold => simp [h]

/-- ReadBits8 keeps IN_BITS within 8 and never adds to the FIFO (R38, R81). -/
theorem readBits8_bounds (ended : Bool) (p q : InPath) (v : Byte) (hp : p.bits ≤ 8) (h : readBits8 ended p = .byte v q) :
    q.bits ≤ 8 ∧ q.fifo.length ≤ p.fifo.length := by
  unfold readBits8 at h
  split at h
  · cases ended <;> simp at h
  · have hg := gatherBits_bounds 8 0#8 p hp
    simp at h
    rw [h.2] at hg
    exact hg

/-- The bounds of the output path: the FIFO within its depth, OUT_BITS 0 to 7, OUT_ACC in OUT_BITS bits, and OUT_BITCOUNT mod 8 = OUT_BITS
(R34, R36, R37). -/
def OutBounds (depth : Nat) (p : OutPath) : Prop :=
  p.fifo.length ≤ depth ∧ p.bits ≤ 7 ∧ p.acc.toNat < 2 ^ p.bits ∧ p.count.toNat % 8 = p.bits

/-- WriteBit keeps the bounds of the output path and counts the bit modulo 8 (R82). -/
theorem writeBit_bounds (depth : Nat) (b : Bool) (p q : OutPath) (hp : OutBounds depth p)
    (h : writeBit depth b p = some q) : OutBounds depth q ∧ q.bits = (p.bits + 1) % 8 := by
  obtain ⟨h1, h2, h3, h4⟩ := hp
  unfold writeBit at h
  split at h
  · split at h
    · simp at h
    · injection h with h
      subst h
      refine ⟨⟨?_, ?_, ?_, ?_⟩, ?_⟩ <;> simp <;> omega
  · injection h with h
    subst h
    refine ⟨⟨h1, by simp; omega, ?_, by simp; omega⟩, by simp; omega⟩
    simp only [BitVec.toNat_shiftConcat]
    have hb : b.toNat ≤ 1 := by cases b <;> simp
    have h5 : p.acc.toNat <<< 1 = 2 * p.acc.toNat := by simp [Nat.shiftLeft_eq]; omega
    have h6 : 2 ^ (p.bits + 1) = 2 * 2 ^ p.bits := by rw [Nat.pow_succ]; omega
    have hm := Nat.mod_le (p.acc.toNat <<< 1 + b.toNat) (2 ^ 7)
    simp only [h6, h5] at *
    omega

/-- Flush keeps the bounds of the output path (R83). -/
theorem flushOut_bounds (depth : Nat) (p q : OutPath) (hp : OutBounds depth p) (h : flushOut depth p = some q) :
    OutBounds depth q := by
  obtain ⟨h1, h2, h3, h4⟩ := hp
  unfold flushOut at h
  split at h
  · injection h with h
    subst h
    exact ⟨h1, h2, h3, h4⟩
  · split at h
    · simp at h
    · injection h with h
      subst h
      refine ⟨?_, ?_, ?_, ?_⟩ <;> simp [BitVec.toNat_add] <;> omega

end Sys2Proof.Machine
end

