-- ==== Sys2Proof/Laws/Words.lean ====
section
/-! SUPPORT. The words of CMD, RESULT and FAULT_INFO (spec/10_state.md R22, R29, R32): their fields and the forms they keep. -/

namespace Sys2Proof.Machine
/-- Storing a command word keeps OP and SYM, and stores a form CMD can hold (R22, R67). -/
theorem opField_commandForm (w : Word) : opField (commandForm w) = opField w := by
  apply BitVec.eq_of_getLsbD_eq
  intro k hk
  simp only [opField, commandForm, BitVec.getLsbD_extractLsb', BitVec.getLsbD_and]
  interval_cases k <;> simp

theorem symField_commandForm (w : Word) : symField (commandForm w) = symField w := by
  apply BitVec.eq_of_getLsbD_eq
  intro k hk
  simp only [symField, commandForm, BitVec.getLsbD_extractLsb', BitVec.getLsbD_and]
  interval_cases k <;> simp

theorem isCommandForm_commandForm (w : Word) : (commandForm w).isCommandForm = true := by
  simp [Word.isCommandForm, commandForm, BitVec.and_assoc]

/-- A concatenation as a number. -/
theorem toNat_append {a b : Nat} (x : BitVec a) (y : BitVec b) : (x ++ y).toNat = x.toNat * 2 ^ b + y.toNat := by
  rw [BitVec.toNat_append, ← Nat.shiftLeft_add_eq_or_of_lt y.isLt, Nat.shiftLeft_eq]

/-- FAULT_INFO as a number: DATA at bit 16, the sub-code at bit 4, the code at bit 0 (R29). -/
theorem faultWord_toNat (code sub : BitVec 4) (data : BitVec 10) :
    (faultWord code sub data).toNat = data.toNat * 65536 + sub.toNat * 16 + code.toNat := by
  simp only [faultWord, toNat_append]
  simp
  omega

/-- RESULT as a number: VALID at bit 31, the symbol at bit 0 (R32). -/
theorem resultWord_toNat (r : Sym) : (resultWord r).toNat = 0x80000000 + r.toNat := by
  simp only [resultWord, toNat_append]
  simp

theorem resultWord_isCfgForm (r : Sym) : (resultWord r).isCfgForm = true := by
  simp only [Word.isCfgForm, decide_eq_true_eq]
  have h : resultWord r = 0x80000000#32 ||| r.setWidth 32 := by
    apply BitVec.eq_of_toNat_eq
    have := r.isLt
    rw [resultWord_toNat, BitVec.toNat_or, BitVec.toNat_setWidth, Nat.mod_eq_of_lt (show r.toNat < 2 ^ 32 by omega)]
    have h2 := Nat.two_pow_add_eq_or_of_lt (i := 31) (b := r.toNat) (by omega) 1
    simp at h2 ⊢
    omega
  rw [h]
  apply BitVec.eq_of_getLsbD_eq
  intro k hk
  simp only [BitVec.getLsbD_and, BitVec.getLsbD_or, BitVec.getLsbD_setWidth]
  by_cases h9 : k < 9
  · interval_cases k <;> simp
  · rw [BitVec.getLsbD_of_ge r k (by omega)]
    interval_cases k <;> simp

/-- What the fault entry records is a record of R180: a code 1 to 5, a sub-code with code 2 only. -/
theorem faultRecordOk_faultWord (code sub : BitVec 4) (data : BitVec 10) (h1 : 1 ≤ code.toNat) (h2 : code.toNat ≤ 5)
    (h3 : if code = 2#4 then 1 ≤ sub.toNat ∧ sub.toNat ≤ 5 else sub = 0#4) :
    faultRecordOk (faultWord code sub data) = true ∧ faultWord code sub data ≠ 0#32 := by
  have h0 := faultWord_toNat code sub data
  have b1 := code.isLt
  have b2 := sub.isLt
  have b3 := data.isLt
  have e1 : (faultWord code sub data).extractLsb' 0 4 = code := by
    apply BitVec.eq_of_toNat_eq; simp only [BitVec.extractLsb'_toNat, h0, Nat.shiftRight_eq_div_pow]; omega
  have e2 : (faultWord code sub data).extractLsb' 4 4 = sub := by
    apply BitVec.eq_of_toNat_eq; simp only [BitVec.extractLsb'_toNat, h0, Nat.shiftRight_eq_div_pow]; omega
  have e3 : faultWord code sub data &&& 0x03FF00FF#32 = faultWord code sub data := by
    have h : faultWord code sub data = (data.setWidth 32 <<< 16) ||| (sub ++ code).setWidth 32 := by
      apply BitVec.eq_of_toNat_eq
      have hs : (sub ++ code).toNat = sub.toNat * 16 + code.toNat := toNat_append sub code
      have h2 := Nat.shiftLeft_add_eq_or_of_lt (i := 16) (b := sub.toNat * 16 + code.toNat) (by omega) data.toNat
      rw [h0, BitVec.toNat_or, BitVec.toNat_shiftLeft, BitVec.toNat_setWidth, BitVec.toNat_setWidth, hs,
        Nat.mod_eq_of_lt (show data.toNat < 2 ^ 32 by omega), Nat.mod_eq_of_lt (show sub.toNat * 16 + code.toNat < 2 ^ 32 by omega),
        Nat.mod_eq_of_lt (by rw [Nat.shiftLeft_eq]; omega), ← h2, Nat.shiftLeft_eq]
      omega
    rw [h]
    apply BitVec.eq_of_getLsbD_eq
    intro k hk
    simp only [BitVec.getLsbD_and, BitVec.getLsbD_or, BitVec.getLsbD_setWidth, BitVec.getLsbD_shiftLeft]
    by_cases h8 : k < 8
    · interval_cases k <;> simp
    · rw [BitVec.getLsbD_of_ge (sub ++ code) k (by omega)]
      by_cases h26 : 16 ≤ k ∧ k < 26
      · obtain ⟨h26, h27⟩ := h26
        interval_cases k <;> simp
      · by_cases h16 : k < 16
        · simp [h16]
        · rw [BitVec.getLsbD_of_ge data (k - 16) (by omega)]
          simp
  refine ⟨?_, fun e => ?_⟩
  · unfold faultRecordOk
    rw [e1, e2, e3]
    by_cases h : code = 2#4
    · rw [if_pos h] at h3; subst h; simp [h3]
    · rw [if_neg h] at h3
      have : ¬ code.toNat = 2 := fun e => h (BitVec.eq_of_toNat_eq (by simpa using e))
      simp [this, h3, h1, h2]
  · rw [e] at h0; simp at h0; omega
end Sys2Proof.Machine
end

