-- ==== Sys2Proof/Tests/Slice0.lean ====
section
/-! SUPPORT. Small tests whose expected results are the spec's (spec/95_test_vectors.md, spec/30_encoding.md), the smoke tests of the
well-formedness checks, and for every obligation with hypotheses a witness that meets them. -/

namespace Sys2Proof.Machine.Tests

/-! ### Helpers -/

/-- T1 of spec/95_test_vectors.md: Branch(Leaf('A'), Branch(Leaf('B'), Leaf(EOS))). -/
def t1 : PrefixTree := .branch (.leaf 0x41#9) (.branch (.leaf 0x42#9) (.leaf 0x100#9))

/-- T1 and its table in the RAMs: 'A' = 0, 'B' = 10, EOS = 11. -/
def t1Rams : Rams :=
  { node := [(0, 0x80010002#32), (1, 0x00000041#32), (2, 0x80030004#32), (3, 0x00000042#32), (4, 0x00000100#32)]
    cfg := [(0x41, 0x80000001#32), (0x42, 0x80000002#32), (0x43, 0x00000000#32), (0x100, 0x80000002#32)]
    bits := [(8 * 0x41, 0x00000000#32), (8 * 0x42, 0x80000000#32), (8 * 0x100, 0xC0000000#32)]
    epoch := 0 }

/-- The idle machine with T1 loaded. -/
def idle : State := { State.reset with rams := t1Rams }

/-- The machine with T1 loaded and the command of word `w` at position `pos`. -/
def at' (w : Word) (pos : Pos) : State :=
  { idle with cmd := commandForm w, current := some { op := opField w, sym := symField w, pos := pos } }

/-- The next state, where there is one. -/
def after (o : Result) : Option State :=
  match o with
  | .next t => some t
  | .fault _ => none
  | .refused _ => none

/-- The word a read of STATUS returns. -/
def st (s : State) : Word := statusWord s.busy s.status

/-! ### Decoding: words written field by field from R100 and R101 -/

theorem test_decode_validate_tree : decode (0#7 ++ 0#9 ++ 0#12 ++ 0b0001#4) = .ok .validateTree := by decide
theorem test_decode_decode_symbol : decode (0#7 ++ 0#9 ++ 0#12 ++ 0b0010#4) = .ok .decodeSymbol := by decide
theorem test_decode_encode_symbol : decode (0#7 ++ 0b101000001#9 ++ 0#12 ++ 0b0011#4) = .ok (.encodeSymbol 0x141#9) := by decide
theorem test_decode_flush : decode (0#7 ++ 0#9 ++ 0#12 ++ 0b0100#4) = .ok .flush := by decide
theorem test_decode_decompress : decode (0#7 ++ 0#9 ++ 0#12 ++ 0b0101#4) = .ok .decompress := by decide
theorem test_decode_compress : decode (0#7 ++ 0#9 ++ 0#12 ++ 0b0110#4) = .ok .compress := by decide

/-- The ignored bits 31:25 and 15:4 hold anything (R100); SYM is ignored but by ENCODE_SYMBOL. -/
theorem test_decode_ignored_bits :
    decode 0xFFFFFFF1#32 = .ok .validateTree ∧ decode 0xFE41FFF3#32 = .ok (.encodeSymbol 0x41#9) := by decide

/-- OP 0 and OP 7 to 15 are illegal (R101, R105). -/
theorem test_decode_illegal :
    decode 0x00410000#32 = .error (.illegalOp 0#4) ∧ decode 0xFFFFFFFF#32 = .error (.illegalOp 15#4) := by decide

/-- The encoder's words are those of R109. -/
theorem test_encode_words :
    encode .validateTree = 0x1#32 ∧ encode .decodeSymbol = 0x2#32 ∧ encode (.encodeSymbol 0x100#9) = 0x01000003#32 ∧
      encode .flush = 0x4#32 ∧ encode .decompress = 0x5#32 ∧ encode .compress = 0x6#32 := by decide

theorem test_decode_table_word :
    decodeTableWord 32 0x00410003 = some (.encodeSymbol 0x41#9) ∧ decodeTableWord 32 0 = none ∧ decodeTableWord 64 1 = none := by
  decide

/-! ### Well-formedness: an ill-formed term for each check -/

theorem test_params_ok : Params.testDefault.wellFormed = true := by decide
theorem test_params_no_nodes : Params.wellFormed { Params.testDefault with nNodes := 0 } = false := by decide
theorem test_params_many_nodes : Params.wellFormed { Params.testDefault with nNodes := 1025 } = false := by decide
theorem test_params_no_in_fifo : Params.wellFormed { Params.testDefault with inDepth := 0 } = false := by decide
theorem test_params_long_in_fifo : Params.wellFormed { Params.testDefault with inDepth := 65536 } = false := by decide
theorem test_params_no_out_fifo : Params.wellFormed { Params.testDefault with outDepth := 0 } = false := by decide
theorem test_params_long_out_fifo : Params.wellFormed { Params.testDefault with outDepth := 65536 } = false := by decide
theorem test_params_base : Params.wellFormed { Params.testDefault with hscBase := 0x4000 } = false := by decide

/-- A command word with an ignored bit set is no form of CMD (R22). -/
theorem test_command_form : Word.isCommandForm 0x01FF000F#32 = true ∧ Word.isCommandForm 0x00000010#32 = false := by decide

/-- A leaf with a high bit and a branch with bit 10 set are no stored nodes (R30). -/
theorem test_node_form :
    Word.isNodeForm 0x83FF03FF#32 = true ∧ Word.isNodeForm 0x00000200#32 = false ∧ Word.isNodeForm 0x80000400#32 = false := by
  decide

/-- A CODE_CFG with a reserved bit set is no stored form (R31). -/
theorem test_cfg_form : Word.isCfgForm 0x80000103#32 = true ∧ Word.isCfgForm 0x80000200#32 = false := by decide

/-! ### One micro-step of each command, from the spec's vectors -/

/-- V23a, the first iteration of the check: node 0 of T1 pushes its RIGHT and then its LEFT (R121). -/
theorem test_validate_tree_branch :
    (after (exec .validateTree (at' 1#32 checkStart))).map (fun t => t.current.map (fun c => c.pos)) =
      some (some (.check [1#10, 2#10] [0#10] false)) := by decide

/-- V23h: EOS found again at node 2 is EOS_DUP with DATA 2. -/
theorem test_validate_tree_dup :
    (after (exec .validateTree
        { at' 1#32 (.check [2#10] [1#10, 0#10] true) with rams := { t1Rams with node := [(2, 0x100#32)] } })).map
      (fun t => (t.faultInfo, st t)) = some (0x00020042#32, 0x004#32) := by decide

/-- V24: the decode of 'A' ends with RESULT = 0x80000041, STATUS = DONE, TREE_OK, IN_END. -/
theorem test_decode_symbol_returns :
    (after (exec .decodeSymbol
        { at' 2#32 (.walk 1#10 1#10) with status := { Status.zero with treeOk := true, inEnd := true } })).map
      (fun t => (t.result, st t)) = some (0x80000041#32, 0x842#32) := by decide

/-- R132 and R13: bit 1 takes RIGHT, from the most significant bit of the oldest byte. -/
theorem test_decode_symbol_reads :
    (after (exec .decodeSymbol { at' 2#32 (.walk 0#10 0#10) with input := { fifo := [0x80#8], sr := 0#8, bits := 0 } })).map
      (fun t => (t.current.map (fun c => c.pos), t.input.bits)) = some (some (.walk 2#10 1#10), 7) := by decide

/-- V26e6: 0x1FF is no symbol. -/
theorem test_encode_symbol_unknown :
    (after (exec (.encodeSymbol 0x1FF#9) (at' 0x01FF0003#32 (.lookup 0x1FF#9)))).map (fun t => (t.faultInfo, st t)) =
      some (0x01FF0003#32, 0x004#32) := by decide

/-- V26e3: the last bit of EOS after the bits 0 1 0 1 makes 0b01011. -/
theorem test_encode_symbol_last_bit :
    (after (exec (.encodeSymbol 0x100#9)
        { at' 0x01000003#32 (.code 0x100#9 2 1) with output := { fifo := [], acc := 0b0101#7, bits := 4, count := 4#32 } })).map
      (fun t => (t.output, st t)) = some ({ fifo := [], acc := 0b01011#7, bits := 5, count := 5#32 }, 0x002#32) := by decide

/-- V26e4: FLUSH of 0b01011 appends 0x58 and makes the bit count 8. -/
theorem test_flush_pads :
    (after (exec .flush { at' 4#32 .flush with output := { fifo := [], acc := 0b01011#7, bits := 5, count := 5#32 } })).map
      (fun t => (t.output, st t)) = some ({ fifo := [0x58#8], acc := 0#7, bits := 0, count := 8#32 }, 0x002#32) := by decide

/-- V26e5: FLUSH with no partial byte writes nothing. -/
theorem test_flush_empty :
    (after (exec .flush (at' 4#32 .flush))).map (fun t => (t.output, st t)) = some (OutPath.empty, 0x002#32) := by decide

/-- V31: no input at all is TRUNC, not a fault. -/
theorem test_decompress_truncated :
    (after (exec .decompress
        { at' 5#32 (.walk 0#10 0#10) with status := { Status.zero with treeOk := true, inEnd := true } })).map
      (fun t => (t.current.map (fun c => c.pos), st t)) = some (some .flush, 0x871#32) := by decide

/-- V27: the last bit of 'A' completes the byte 0x41 and counts the symbol. -/
theorem test_decompress_last_bit :
    (after (exec .decompress
        { at' 5#32 (.emit 0x41#9 0) with output := { fifo := [], acc := 0b0100000#7, bits := 7, count := 7#32 } })).map
      (fun t => (t.output.fifo, t.symCount, t.current.map (fun c => c.pos))) = some ([0x41#8], 1#32, some walkStart) := by decide

/-- V37: the input byte 'C' has no codeword. -/
theorem test_compress_unknown :
    (after (exec .compress { at' 6#32 (.lookup 0x43#9) with status := { Status.zero with inEnd := true } })).map
      (fun t => (t.faultInfo, st t)) = some (0x00430003#32, 0x804#32) := by decide

/-- V33a: after the 6 bits of 'A' 'B' 'A' EOS, P = 2. -/
theorem test_compress_pad :
    (after (exec .compress
        { at' 6#32 (.code 0x100#9 2 1) with output := { fifo := [], acc := 0b01001#7, bits := 5, count := 5#32 } })).map
      (fun t => t.current.map (fun c => c.pos)) = some (some (.pad 2)) := by decide

/-! ### The step and the host -/

/-- A placed command runs at the very next step, from reset. -/
theorem test_step_runs_placed :
    (after (step (State.reset.withFetchWord 32 0x00000001))).map (fun t => t.current.map (fun c => c.pos)) =
      some (some checkStart) := by decide

/-- An illegal word ends in ILLEGAL_CMD with DATA = OP (R105). -/
theorem test_step_illegal :
    (after (step (State.reset.withFetchWord 32 0x0000000F))).map (fun t => (t.faultInfo, st t)) =
      some (0x000F0001#32, 0x004#32) := by decide

/-- V8: RD 0x034 returns 0 and sets ACC_ERR. -/
theorem test_host_unmapped :
    (fun t => (t.observed, st t)) (hostAccess { offset := 0x034#15, size := 4, kind := .read } State.reset) =
      ([0#32], 0x100#32) := by decide

/-- V14: IN_DATA after IN_END_SET is dropped. -/
theorem test_host_in_end :
    (fun t => (t.input.fifo, st t)) (hostAccesses [wrAccess .ctrl 1#32, wrAccess .inData 1#32] State.reset) =
      ([], 0x900#32) := by decide

/-- V16: the stored form of a Branch. -/
theorem test_host_node : readNode (hostAccess (wrAccess (.node 0) 0xFFFFFFFF#32) State.reset).rams 0 = 0x83FF03FF#32 := by decide

/-- V6: the parameters at reset. -/
theorem test_host_params :
    (hostAccesses [rdAccess .param0, rdAccess .param1] State.reset).observed = [0x00000201#32, 0x00100010#32] := by decide

/-- The worked program of spec/95_test_vectors.md with out = [0x60]: DRAIN lists the byte and ends on the next read. -/
theorem test_host_drain :
    loopRun endsDrain [0x160#32, 0#32] = true ∧ drained [0x160#32, 0#32] = [0x60#8] ∧ loopRun endsDrain [0x160#32] = false := by
  decide

/-- Program P2: the end mark of an input that fits comes before the command. -/
theorem test_host_feed :
    feed 16 .compress [0x41#8] = [wrAccess .inData 0x41#32, wrAccess .ctrl 1#32, wrAccess .cmd 6#32] := by decide

/-- V44: the header of T1. -/
theorem test_header_t1 : headerBytes t1 = [0x88#8, 0x31#8, 0x09#8, 0x00#8] := by decide

/-- The canonical layout of T1 is the one the vectors load. -/
theorem test_layout_t1 : layout t1 = t1Rams.node.map (fun e => e.2) := by decide

/-! ### Witnesses: for each obligation with hypotheses, what meets them -/

/-- The accesses of the witnesses. -/
def rd (off : BitVec 15) : Access := { offset := off, size := 4, kind := .read }
def wr (off : BitVec 15) (w : Word) : Access := { offset := off, size := 4, kind := .write w }

/-- DecodeReadsUsedBitsOnly and IllegalOpcodesRejected: both sides are met, at 7 and at 15 and at 0. -/
theorem test_witness_decode :
    decode 0x01FFFFF3#32 = .ok (.encodeSymbol 0x1FF#9) ∧ 0x01FFFFF3#32 &&& 0x01FF000F#32 = encode (.encodeSymbol 0x1FF#9) ∧
      decode 0x00000010#32 = .error (.illegalOp 0#4) ∧ decode 0x00000017#32 = .error (.illegalOp 7#4) ∧
      decode 0xFFFFFFFF#32 = .error (.illegalOp 15#4) := by decide

theorem test_witness_SoftReset : (0x80000000#32).getLsbD 31 = true := by decide

/-- Each rule (a) to (f) of R65, at a boundary. -/
theorem test_witness_DroppedAccess :
    dropRule { offset := 0x000#15, size := 2, kind := .read } idle ∧ dropRule (rd 0x031#15) idle ∧ dropRule (rd 0x034#15) idle ∧
      dropRule (wr 0x000#15 1#32) (at' 1#32 .first) ∧
      dropRule (wr 0x000#15 1#32) { idle with status := { Status.zero with fault := true } } ∧
      dropRule (wr 0x1000#15 0#32) (at' 1#32 .first) ∧ dropRule (wr 0x014#15 2#32) (at' 1#32 .first) ∧
      dropRule (wr 0x014#15 4#32) (at' 1#32 .first) ∧
      dropRule (wr 0x010#15 0#32) { idle with status := { Status.zero with inEnd := true } } := by
  refine ⟨.inl (by decide), .inr (.inl (by decide)), .inr (.inr (.inl ?_)), ?_, ?_, ?_, ?_, ?_, ?_⟩
  · rintro (h | ⟨i, -, h⟩ | ⟨s, -, h⟩ | ⟨s, k, -, -, h⟩) <;> simp [rd] at h <;> omega
  · exact .inr (.inr (.inr ⟨_, rfl, .inl ⟨by decide, .inl (by decide)⟩⟩))
  · exact .inr (.inr (.inr ⟨_, rfl, .inl ⟨by decide, .inr (by decide)⟩⟩))
  · exact .inr (.inr (.inr ⟨_, rfl, .inr (.inl ⟨by simp [ramOffset, wr], by decide⟩)⟩))
  · exact .inr (.inr (.inr ⟨_, rfl, .inr (.inr (.inl ⟨by decide, by decide, by decide, .inl (by decide)⟩))⟩))
  · exact .inr (.inr (.inr ⟨_, rfl, .inr (.inr (.inl ⟨by decide, by decide, by decide, .inr (by decide)⟩))⟩))
  · exact .inr (.inr (.inr ⟨_, rfl, .inr (.inr (.inr ⟨by decide, by decide⟩))⟩))

/-- A read of the last register below 0x1000 and a write of the last node. -/
theorem test_witness_PerformedAccess :
    idle.params.wellFormed = true ∧ ¬ dropRule (rd 0x030#15) idle ∧ ¬ dropRule (wr 0x1800#15 0#32) idle := by
  refine ⟨by decide, ?_, ?_⟩
  · rintro (h | h | h | ⟨w, h, -⟩)
    · exact h rfl
    · exact h (by decide)
    · exact h (.inl (by decide))
    · exact absurd h (by simp [rd])
  · rintro (h | h | h | ⟨w, -, h⟩)
    · exact h rfl
    · exact h (by decide)
    · exact h (.inr (.inl ⟨512, by decide, by decide⟩))
    · rcases h with ⟨h, -⟩ | ⟨-, h⟩ | ⟨h, -⟩ | ⟨h, -⟩ <;> exact absurd h (by decide)

/-- RegisterMap and ReadSideEffects: legal parameters, the last node, slot and code word, and an offset that is not mapped. -/
theorem test_witness_RegisterMap :
    idle.params.wellFormed = true ∧ 512 < idle.params.nNodes ∧ 0x034 % 4 = 0 ∧ ¬ mappedOffset idle.params 0x034 ∧
      regExists idle.params (.node 512) = true ∧ regExists idle.params (.codeCfg 256) = true ∧
      regExists idle.params (.codeBits 256 7) = true ∧ regExists idle.params .param1 = true := by
  refine ⟨by decide, by decide, rfl, ?_, by decide⟩
  rintro (h | ⟨i, -, h⟩ | ⟨x, -, h⟩ | ⟨x, k, -, -, h⟩) <;> omega

/-- ReadSideEffects: a register that is not OUT_DATA, the output FIFO with a byte and without, and the bounds at their ends. -/
theorem test_witness_ReadSideEffects :
    Reg.inData ≠ Reg.outData ∧ { idle with output := { OutPath.empty with fifo := [0xFF#8] } }.output.fifo = [0xFF#8] ∧
      idle.output.fifo = [] ∧
      (fun s : State => s.input.fifo.length ≤ 65535 ∧ s.output.fifo.length ≤ 65535 ∧ s.input.bits ≤ 8 ∧ s.output.bits ≤ 7)
        { idle with
          input := { fifo := [0x01#8], sr := 0#8, bits := 8 },
          output := { fifo := [0x02#8], acc := 0x7F#7, bits := 7, count := 15#32 } } := by decide

theorem test_witness_CommandAccepted :
    (idle.current = none ∧ idle.status.fault = false) ∧ (at' 1#32 .first).current ≠ none := by decide

/-- InDataWrite: room for one more byte, and full. -/
theorem test_witness_InDataWrite :
    (fun s : State => s.status.inEnd = false ∧ s.input.fifo.length < s.params.inDepth)
        { idle with input := { fifo := List.replicate 15 0#8, sr := 0#8, bits := 8 } } ∧
      (fun s : State => s.status.inEnd = false ∧ ¬ s.input.fifo.length < s.params.inDepth)
        { idle with input := { fifo := List.replicate 16 0#8, sr := 0#8, bits := 8 } } := by decide

/-- ControlWrite: every bit while idle, and IN_END_SET alone while a command runs. -/
theorem test_witness_ControlWrite :
    ((0x00000007#32).getLsbD 31 = false ∧ idle.current = none) ∧
      ((0x00000001#32).getLsbD 31 = false ∧ (at' 1#32 .first).current ≠ none ∧ (0x00000001#32).getLsbD 1 = false ∧
        (0x00000001#32).getLsbD 2 = false) := by decide

theorem test_witness_NodeWrite : idle.params.wellFormed = true ∧ 512 < idle.params.nNodes ∧ idle.current = none := by decide

theorem test_witness_CodeWrite : 256 ≤ 256 ∧ 7 ≤ 7 ∧ idle.current = none := by decide

theorem test_witness_ReadBitTakesFirstBit :
    sourceBits InPath.empty = [] ∧ sourceBits { fifo := [], sr := 0xFE#8, bits := 1 } = false :: [] ∧
      sourceBits { fifo := [0x80#8], sr := 0#8, bits := 0 } = true :: List.replicate 7 false := by decide

theorem test_witness_ReadByteAllOrNothing :
    (sourceBits { fifo := [], sr := 0#8, bits := 7 }).length < 8 ∧
      sourceBits { fifo := [0x60#8], sr := 0x05#8, bits := 3 } = byteBits 0xAC#8 ++ [false, false, false] ∧
      { fifo := [0x41#8], sr := 0#8, bits := 0 : InPath }.fifo = [0x41#8] := by decide

/-- WriteBitAppends and FlushPads: at OUT_BITS = 7 held and not held, and with no partial byte. -/
theorem test_witness_output :
    writeBit 0 true { fifo := [], acc := 0x7F#7, bits := 7, count := 7#32 } = none ∧
      writeBit 1 true { fifo := [], acc := 0x7F#7, bits := 7, count := 7#32 } =
        some { fifo := [0xFF#8], acc := 0#7, bits := 0, count := 8#32 } ∧
      (0x7F#7).toNat < 2 ^ 7 ∧ flushOut 1 { fifo := [], acc := 1#7, bits := 1, count := 1#32 } =
        some { fifo := [0x80#8], acc := 0#7, bits := 0, count := 8#32 } ∧ (0#7).toNat < 2 ^ 0 := by decide

/-- StepRunsTheCommand: a command running, none running, each with an empty schedule and with the block's turn; and an access. -/
theorem test_witness_StepRunsTheCommand :
    decodeFields 6#4 0#9 = .ok .compress ∧
      (∀ l ∈ [[], [Turn.block]],
        (fun s : State => s.current = some { op := 6#4, sym := 0#9, pos := .first } ∧ s.schedule = l)
          { at' 6#32 .first with schedule := l } ∧
        (fun s : State => s.current = none ∧ s.schedule = l) { idle with schedule := l }) ∧
      { idle with schedule := [.access (rd 0#15)] }.schedule = [Turn.access (rd 0#15)] := by decide

/-- IllegalCommandFaults: OP 0, OP 7 and OP 15, with an empty schedule and with the block's turn. -/
theorem test_witness_IllegalCommandFaults :
    ∀ op ∈ [0#4, 7#4, 15#4], ∀ l ∈ [[], [Turn.block]],
      (fun s : State => s.current = some { op := op, sym := 0#9, pos := .first } ∧ (op = 0#4 ∨ 7 ≤ op.toNat) ∧ s.schedule = l)
        { at' (op.setWidth 32) .first with schedule := l } := by decide

theorem test_witness_FirstMicroSteps : (at' 2#32 .first).current = some { op := 2#4, sym := 0#9, pos := .first } := by decide

theorem test_witness_TreeCheckPasses :
    (at' 1#32 (.check [] [4#10, 3#10, 2#10, 1#10, 0#10] true)).current =
      some { op := 1#4, sym := 0#9, pos := .check [] [4#10, 3#10, 2#10, 1#10, 0#10] true } := by decide

/-- The check's failures, one state for each clause: the empty stack; the index N_NODES; the last index, a second time; a leaf of 257; EOS
at a second leaf. -/
theorem test_witness_TreeCheckFailures :
    (at' 1#32 (.check [] [0#10] false)).current = some { op := 1#4, sym := 0#9, pos := .check [] [0#10] false } ∧
      (fun s : State => s.current = some { op := 1#4, sym := 0#9, pos := .check [513#10] [] false } ∧
        s.params.nNodes ≤ (513#10).toNat) (at' 1#32 (.check [513#10] [] false)) ∧
      (fun s : State => s.current = some { op := 2#4, sym := 0#9, pos := .check [512#10] [512#10] false } ∧
        (512#10).toNat < s.params.nNodes ∧ 512#10 ∈ [512#10]) (at' 2#32 (.check [512#10] [512#10] false)) ∧
      (fun s : State => s.current = some { op := 5#4, sym := 0#9, pos := .check [0#10] [] false } ∧
        (0#10).toNat < s.params.nNodes ∧ 0#10 ∉ ([] : List NodeIndex) ∧ (readNode s.rams (0#10).toNat).getLsbD 31 = false ∧
        256 < (readNode s.rams (0#10).toNat).toNat % 512)
        { at' 5#32 (.check [0#10] [] false) with rams := { t1Rams with node := [(0, 0x101#32)] } } ∧
      (fun s : State => s.current = some { op := 5#4, sym := 0#9, pos := .check [4#10] [0#10] true } ∧
        (4#10).toNat < s.params.nNodes ∧ 4#10 ∉ [0#10] ∧ (readNode s.rams (4#10).toNat).getLsbD 31 = false ∧
        (readNode s.rams (4#10).toNat).toNat % 512 = 256) (at' 5#32 (.check [4#10] [0#10] true)) := by decide

/-- The check's advances: the Branch at 0, the byte Leaf at 1 and the EOS Leaf at 4 of T1. -/
theorem test_witness_TreeCheckAdvances :
    (fun s : State => s.current = some { op := 1#4, sym := 0#9, pos := .check [0#10] [] false } ∧
        (0#10).toNat < s.params.nNodes ∧ 0#10 ∉ ([] : List NodeIndex) ∧ (readNode s.rams (0#10).toNat).getLsbD 31 = true)
        (at' 1#32 (.check [0#10] [] false)) ∧
      (fun s : State => s.current = some { op := 1#4, sym := 0#9, pos := .check [1#10] [0#10] true } ∧
        (1#10).toNat < s.params.nNodes ∧ 1#10 ∉ [0#10] ∧ (readNode s.rams (1#10).toNat).getLsbD 31 = false ∧
        (readNode s.rams (1#10).toNat).toNat % 512 < 256) (at' 1#32 (.check [1#10] [0#10] true)) ∧
      (fun s : State => s.current = some { op := 1#4, sym := 0#9, pos := .check [4#10] [0#10] false } ∧
        (4#10).toNat < s.params.nNodes ∧ 4#10 ∉ [0#10] ∧ (readNode s.rams (4#10).toNat).getLsbD 31 = false ∧
        (readNode s.rams (4#10).toNat).toNat % 512 = 256) (at' 1#32 (.check [4#10] [0#10] false)) := by decide

/-- DecodeSymbolReturns and the first clause of DecompressSymbol: the walk at EOS and at the byte 0x41. -/
theorem test_witness_DecodeSymbolReturns :
    (fun s : State => s.current = some { op := 2#4, sym := 0#9, pos := .walk 4#10 2#10 } ∧
        (readNode s.rams (4#10).toNat).getLsbD 31 = false ∧ 256 = (readNode s.rams (4#10).toNat).toNat % 512)
        (at' 2#32 (.walk 4#10 2#10)) ∧
      (fun s : State => s.current = some { op := 5#4, sym := 0#9, pos := .walk 1#10 1#10 } ∧
        (readNode s.rams (1#10).toNat).getLsbD 31 = false ∧ 0x41 = (readNode s.rams (1#10).toNat).toNat % 512 ∧
        0x41#9 = BitVec.ofNat 9 (readNode s.rams (1#10).toNat).toNat) (at' 5#32 (.walk 1#10 1#10)) := by decide

/-- The walk at a Branch with the last bit of IN_SR, and with IN_SR empty. -/
theorem test_witness_WalkReadsBit :
    (fun s : State => s.current = some { op := 2#4, sym := 0#9, pos := .walk 2#10 1#10 } ∧
        (readNode s.rams (2#10).toNat).getLsbD 31 = true ∧ s.input.bits ≠ 0 ∧ true = s.input.sr.getLsbD (s.input.bits - 1))
        { at' 2#32 (.walk 2#10 1#10) with input := { fifo := [], sr := 1#8, bits := 1 } } ∧
      (fun s : State => s.current = some { op := 2#4, sym := 0#9, pos := .walk 2#10 1#10 } ∧
        (readNode s.rams (2#10).toNat).getLsbD 31 = true ∧ s.input.bits = 0 ∧ s.input.fifo = 0x80#8 :: [] ∧
        true = (0x80#8).getLsbD 7)
        { at' 2#32 (.walk 2#10 1#10) with input := { fifo := [0x80#8], sr := 1#8, bits := 0 } } := by decide

/-- The end of the input inside a codeword, for DecodeSymbolEndOfInput and DecompressTruncates. -/
theorem test_witness_EndOfInput :
    (fun s : State => s.current = some { op := 5#4, sym := 0#9, pos := .walk 2#10 1#10 } ∧
        (readNode s.rams (2#10).toNat).getLsbD 31 = true ∧ s.input.bits = 0 ∧ s.input.fifo = [] ∧ s.status.inEnd = true)
      { at' 5#32 (.walk 2#10 1#10) with status := { Status.zero with inEnd := true } } := by decide

/-- HeldMicroSteps: each wait, COMPRESS with 7 bits left, and the output with its FIFO full at OUT_BITS = 7 and at OUT_BITS = 1. -/
theorem test_witness_HeldMicroSteps :
    (fun s : State => s.current = some { op := 5#4, sym := 0#9, pos := .walk 2#10 1#10 } ∧ s.status.inEnd = false ∧
        (readNode s.rams (2#10).toNat).getLsbD 31 = true ∧ s.input.bits = 0 ∧ s.input.fifo = [])
        (at' 5#32 (.walk 2#10 1#10)) ∧
      (fun s : State => s.current = some { op := 6#4, sym := 0#9, pos := .read } ∧ s.status.inEnd = false ∧
        s.input.bits + 8 * s.input.fifo.length < 8)
        { at' 6#32 .read with input := { fifo := [], sr := 0#8, bits := 7 } } ∧
      (∀ p ∈ [Pos.code 0x41#9 1 0, .emit 0x41#9 0, .pad 1],
        (fun s : State => s.current = some { op := 6#4, sym := 0#9, pos := p } ∧ s.output.fifo.length = s.params.outDepth ∧
          s.output.bits = 7)
          { at' 6#32 p with output := { fifo := List.replicate 16 0#8, acc := 0#7, bits := 7, count := 7#32 } }) ∧
      (fun s : State => s.current = some { op := 4#4, sym := 0#9, pos := .flush } ∧ s.output.fifo.length = s.params.outDepth ∧
        s.output.bits ≠ 0)
        { at' 4#32 .flush with output := { fifo := List.replicate 16 0#8, acc := 0#7, bits := 1, count := 1#32 } } := by decide

/-- LookupFaults: the symbol 257, a slot not in the table, and LEN = 257. -/
theorem test_witness_LookupFaults :
    (fun s : State => s.current = some { op := 3#4, sym := 0x101#9, pos := .lookup 0x101#9 } ∧ 256 < (0x101#9).toNat)
        (at' 0x01010003#32 (.lookup 0x101#9)) ∧
      (fun s : State => s.current = some { op := 6#4, sym := 0#9, pos := .lookup 0x43#9 } ∧ (0x43#9).toNat ≤ 256 ∧
        (readCfg s.rams (0x43#9).toNat).getLsbD 31 = false) (at' 6#32 (.lookup 0x43#9)) ∧
      (fun s : State => s.current = some { op := 6#4, sym := 0#9, pos := .lookup 0x100#9 } ∧ (0x100#9).toNat ≤ 256 ∧
        (readCfg s.rams (0x100#9).toNat).getLsbD 31 = true ∧ 256 < (readCfg s.rams (0x100#9).toNat).toNat % 512)
        { at' 6#32 (.lookup 0x100#9) with rams := { t1Rams with cfg := [(0x100, 0x80000101#32)] } } := by decide

/-- LookupStartsCodeword: LEN = 0 and LEN = 256, in the slot of EOS. -/
theorem test_witness_LookupStartsCodeword :
    ∀ len ∈ [0, 256],
      (fun s : State => s.current = some { op := 3#4, sym := 0x100#9, pos := .lookup 0x100#9 } ∧ (0x100#9).toNat ≤ 256 ∧
        (readCfg s.rams (0x100#9).toNat).getLsbD 31 = true ∧ len = (readCfg s.rams (0x100#9).toNat).toNat % 512 ∧ len ≤ 256)
        { at' 0x01000003#32 (.lookup 0x100#9) with
          rams := { t1Rams with cfg := [(0x100, 0x80000000#32 ||| BitVec.ofNat 32 len)] } } := by decide

/-- EncodeSymbolWritesBit: the first bit of two, and the last one. -/
theorem test_witness_EncodeSymbolWritesBit :
    ∀ j ∈ [0, 1],
      (fun s : State => s.current = some { op := 3#4, sym := 0x100#9, pos := .code 0x100#9 2 j } ∧
        writeBit s.params.outDepth ((readBits s.rams (0x100#9).toNat (j / 32)).getLsbD (31 - j % 32)) s.output =
          some { fifo := [], acc := 1#7, bits := 1, count := 1#32 } ∧ (if j = 0 then j + 1 < 2 else 2 ≤ j + 1))
        (at' 0x01000003#32 (.code 0x100#9 2 j)) := by decide

/-- FlushEndsCommand: no partial byte with the FIFO full, and a partial byte with one place left. -/
theorem test_witness_FlushEndsCommand :
    (fun s : State => s.current = some { op := 4#4, sym := 0#9, pos := .flush } ∧ s.output.bits = 0)
        { at' 4#32 .flush with output := { fifo := List.replicate 16 0#8, acc := 0#7, bits := 0, count := 128#32 } } ∧
      (fun s : State => s.current = some { op := 4#4, sym := 0#9, pos := .flush } ∧ s.output.bits ≠ 0 ∧
        s.output.fifo.length ≠ s.params.outDepth)
        { at' 4#32 .flush with output := { fifo := List.replicate 15 0#8, acc := 1#7, bits := 7, count := 127#32 } } := by decide

/-- The second clause of DecompressSymbol: the last bit of a symbol, and the first. -/
theorem test_witness_DecompressSymbol :
    ∀ k ∈ [0, 7],
      (fun s : State => s.current = some { op := 5#4, sym := 0#9, pos := .emit 0x81#9 k } ∧
        writeBit s.params.outDepth ((0x81#9).getLsbD k) s.output = some { fifo := [], acc := 1#7, bits := 1, count := 1#32 })
        (at' 5#32 (.emit 0x81#9 k)) := by decide

/-- CompressReads: a byte, and 7 bits at the end of the input. -/
theorem test_witness_CompressReads :
    (fun s : State => s.current = some { op := 6#4, sym := 0#9, pos := .read } ∧
        readBits8 s.status.inEnd s.input = .byte 0x41#8 { fifo := [], sr := 0x41#8, bits := 0 })
        { at' 6#32 .read with input := { fifo := [0x41#8], sr := 0#8, bits := 0 } } ∧
      (fun s : State => s.current = some { op := 6#4, sym := 0#9, pos := .read } ∧
        s.input.bits + 8 * s.input.fifo.length < 8 ∧ s.status.inEnd = true)
        { at' 6#32 .read with
          input := { fifo := [], sr := 0#8, bits := 7 }, status := { Status.zero with inEnd := true } } := by decide

/-- CompressWritesAndPads: the last bit of EOS, and the last padding bit, which completes a byte. -/
theorem test_witness_CompressWritesAndPads :
    (fun s : State => writeBit s.params.outDepth true s.output = some { fifo := [], acc := 1#7, bits := 1, count := 1#32 } ∧
        s.current = some { op := 6#4, sym := 0#9, pos := .code 0x100#9 2 1 } ∧
        true = (readBits s.rams (0x100#9).toNat (1 / 32)).getLsbD (31 - 1 % 32)) (at' 6#32 (.code 0x100#9 2 1)) ∧
      (fun s : State => writeBit s.params.outDepth false s.output =
          some { fifo := [0xFE#8], acc := 0#7, bits := 0, count := 8#32 } ∧
        s.current = some { op := 6#4, sym := 0#9, pos := .pad 1 })
        { at' 6#32 (.pad 1) with output := { fifo := [], acc := 0x7F#7, bits := 7, count := 7#32 } } := by decide

/-- The frames: each command takes a next state. -/
theorem test_witness_frames :
    (∃ t, exec .validateTree (at' 1#32 .first) = .next t) ∧ (∃ t, exec .decodeSymbol (at' 2#32 (.walk 1#10 1#10)) = .next t) ∧
      (∃ t, exec (.encodeSymbol 0x41#9) (at' 0x410003#32 (.lookup 0x41#9)) = .next t) ∧
      (∃ t, exec .flush (at' 4#32 .flush) = .next t) ∧ (∃ t, exec .decompress (at' 5#32 (.emit 0x41#9 0)) = .next t) ∧
      (∃ t, exec .compress (at' 6#32 .read) = .next t) := ⟨⟨_, rfl⟩, ⟨_, rfl⟩, ⟨_, rfl⟩, ⟨_, rfl⟩, ⟨_, rfl⟩, ⟨_, rfl⟩⟩

/-- FaultsOfEachCommand: TREE_INVALID, END_OF_INPUT, UNKNOWN_SYMBOL and BAD_CODE_LEN are raised. -/
theorem test_witness_FaultsOfEachCommand :
    (after (exec .decompress (at' 5#32 (.check [] [] false)))).map (fun t => t.status.fault) = some true ∧
      (after (exec .decodeSymbol
        { at' 2#32 (.walk 2#10 1#10) with status := { Status.zero with inEnd := true } })).map (fun t => t.status.fault) = some true ∧
      (after (exec (.encodeSymbol 0x101#9) (at' 0x01010003#32 (.lookup 0x101#9)))).map (fun t => t.status.fault) = some true ∧
      (after (exec .compress { at' 6#32 (.lookup 0x41#9) with rams := { t1Rams with cfg := [(0x41, 0x80000101#32)] } })).map
        (fun t => t.status.fault) = some true ∧ idle.status.fault = false := by decide

theorem test_witness_RamsFixedWhileBusy : (at' 1#32 .first).busy = true := by decide

/-- A DECOMPRESS in its loop with TREE_OK = 1. -/
def walking : State := { at' 5#32 (.walk 2#10 1#10) with status := { Status.zero with treeOk := true } }

/-- T1 in the RAMs is a well-formed tree. -/
theorem test_witness_holdsTree : holdsTree idle.params t1Rams t1 :=
  ⟨⟨by decide, ⟨by decide, by decide⟩, by decide, ⟨by decide, by decide⟩, by decide, by decide⟩, by decide, by decide, by decide⟩

/-- ResetMeetsInvariant: the least and the greatest legal parameters. -/
theorem test_witness_ResetMeetsInvariant :
    Params.wellFormed { nNodes := 1, inDepth := 1, outDepth := 1, hscBase := 0 } = true ∧
      Params.wellFormed { nNodes := 1024, inDepth := 65535, outDepth := 65535, hscBase := 0x8000 } = true := by decide

theorem walking_current (c : Command) (h : walking.current = some c) : c = { op := 5#4, sym := 0#9, pos := .walk 2#10 1#10 } :=
  (Option.some.inj h).symm

/-- The invariant at a running command. -/
theorem test_witness_Inv : walking.Inv where
  params := by decide
  rams := by decide
  inFifo := Nat.zero_le _
  inBits := Nat.zero_le _
  outFifo := Nat.zero_le _
  outBits := Nat.zero_le _
  outAcc := Nat.one_pos
  outCount := rfl
  cmdForm := by decide
  resultForm := by decide
  faultRecord := by decide
  faultFlag := by decide
  oneEnd := by decide
  trunc := by decide
  oneWait := by decide
  idleWait := by decide
  command := fun c h => walking_current c h ▸ ⟨by decide, by decide, .inr rfl, rfl⟩
  running := fun _ => ⟨rfl, rfl⟩
  endFlags := fun _ _ _ => ⟨rfl, rfl⟩
  waitIn := by decide
  waitOut := by decide

/-- StepKeepsInvariant, StepAlwaysAnswers and TreeOkMeansTree: a running command with TREE_OK = 1. -/
theorem test_witness_Invariant :
    walking.Inv ∧ walking.TreeInv ∧ walking.status.treeOk = true ∧ ∃ t, step walking = .next t := by
  refine ⟨test_witness_Inv, ⟨fun _ => ⟨t1, test_witness_holdsTree⟩, ?_⟩, rfl, ⟨_, rfl⟩⟩
  intro c stack visited e hc hp
  rw [walking_current c hc] at hp
  exact absurd hp (by simp)

/-- ValidateTreeDecides, on T1. -/
theorem test_witness_ValidateTreeDecides :
    startsCommand .validateTree (at' 1#32 .first) ∧ (at' 1#32 .first).status.done = false ∧
      (at' 1#32 .first).status.fault = false := ⟨⟨_, rfl, rfl, rfl⟩, rfl, rfl⟩

/-- DecodeSymbolDecodes: EOS at the head of 0xC0. -/
theorem test_witness_DecodeSymbolDecodes :
    (fun s : State => startsCommand .decodeSymbol s ∧ s.status.treeOk = true ∧ s.status.eos = false ∧ storedAt s.rams 0#10 t1 ∧
        (0x100#9, [true, true]) ∈ codewords t1 ∧ sourceBits s.input = [true, true] ++ List.replicate 6 false)
      { at' 2#32 .first with
        status := { Status.zero with treeOk := true }, input := { fifo := [0xC0#8], sr := 0#8, bits := 0 } } :=
  ⟨⟨_, rfl, rfl, rfl⟩, rfl, rfl, test_witness_holdsTree.1, by decide, by decide⟩

/-- EncodeSymbolEncodes: EOS, with a full output FIFO and room for its two bits. -/
theorem test_witness_EncodeSymbolEncodes :
    (fun s : State => startsCommand (.encodeSymbol 0x100#9) s ∧ slotUsable s.rams 0x100#9 ∧ s.output.bits ≤ 7 ∧
        s.output.fifo.length + (s.output.bits + (slotCodeword s.rams 0x100#9).length) / 8 ≤ s.params.outDepth)
      { at' 0x01000003#32 .first with
        output := { fifo := List.replicate 16 0#8, acc := 0#7, bits := 5, count := 133#32 } } :=
  ⟨⟨_, rfl, rfl, rfl⟩, ⟨by decide, by decide, by decide⟩, by decide, by decide⟩

/-- The start of the COMPRESS of V33a. -/
def compressing : State :=
  { at' 6#32 .first with
    status := { Status.zero with inEnd := true }, input := { fifo := [0x41#8, 0x42#8, 0x41#8], sr := 0#8, bits := 0 } }

theorem test_witness_slots :
    (∀ b ∈ [0x41#8, 0x42#8, 0x41#8], slotDerived t1Rams t1 (byteSym b)) ∧ slotDerived t1Rams t1 eosSym := by
  refine ⟨?_, ⟨by decide, by decide, by decide⟩, by decide⟩
  intro b hb
  simp only [List.mem_cons, List.not_mem_nil, or_false] at hb
  rcases hb with rfl | rfl | rfl <;> exact ⟨⟨by decide, by decide, by decide⟩, by decide⟩

theorem test_witness_CompressOutput :
    startsCommand .compress compressing ∧ compressing.input.bits = 0 ∧ compressing.input.fifo = [0x41#8, 0x42#8, 0x41#8] ∧
      compressing.status.inEnd = true ∧ compressing.output.bits ≤ 7 ∧
      compressing.output.count.toNat % 8 = compressing.output.bits ∧
      (∀ b ∈ [0x41#8, 0x42#8, 0x41#8], slotUsable compressing.rams (byteSym b)) ∧ slotUsable compressing.rams eosSym ∧
      compressing.output.fifo.length +
        (compressing.output.bits + (compressedBits compressing.rams [0x41#8, 0x42#8, 0x41#8]).length + 7) / 8 ≤
          compressing.params.outDepth :=
  ⟨⟨_, rfl, rfl, rfl⟩, rfl, rfl, rfl, by decide, by decide, fun b hb => (test_witness_slots.1 b hb).1, test_witness_slots.2.1,
    by decide⟩

/-- DecompressOutput, on V32a: 0x4C and unread bytes after it. -/
theorem test_witness_DecompressOutput :
    (fun s : State => startsCommand .decompress s ∧ s.status.treeOk = true ∧ s.status.eos = false ∧ storedAt s.rams 0#10 t1 ∧
        (∀ m ∈ [(0x41#8, [false]), (0x42#8, [true, false]), (0x41#8, [false])], (byteSym m.1, m.2) ∈ codewords t1) ∧
        (eosSym, [true, true]) ∈ codewords t1 ∧
        sourceBits s.input =
          ([(0x41#8, [false]), (0x42#8, [true, false]), (0x41#8, [false])] : List (Byte × List Bool)).flatMap (fun m => m.2) ++
            [true, true] ++ ([false, false] ++ List.replicate 8 true) ∧
        s.output.bits = 0 ∧ s.output.fifo.length + 3 ≤ s.params.outDepth)
      { at' 5#32 .first with
        status := { Status.zero with treeOk := true }, input := { fifo := [0x4C#8, 0xFF#8], sr := 0#8, bits := 0 } } :=
  ⟨⟨_, rfl, rfl, rfl⟩, rfl, rfl, test_witness_holdsTree.1, by decide, by decide, by decide, rfl, by decide⟩

/-- RoundTrip: the first command on V33a; the second, whatever the first one wrote. -/
theorem test_witness_RoundTrip :
    holdsTree compressing.params compressing.rams t1 ∧
      (∀ b ∈ [0x41#8, 0x42#8, 0x41#8], slotDerived compressing.rams t1 (byteSym b)) ∧ slotDerived compressing.rams t1 eosSym ∧
      startsCommand .compress compressing ∧ compressing.input.bits = 0 ∧
      compressing.input.fifo = [0x41#8, 0x42#8, 0x41#8] ∧ compressing.status.inEnd = true ∧ compressing.status.fault = false ∧
      compressing.output = { fifo := [], acc := 0#7, bits := 0, count := 0#32 } ∧
      ((compressedBits compressing.rams [0x41#8, 0x42#8, 0x41#8]).length + 7) / 8 ≤ compressing.params.outDepth ∧
      ∀ t : State, ∃ u : State, startsCommand .decompress u ∧ u.params = compressing.params ∧ u.rams = compressing.rams ∧
        u.status.eos = false ∧ u.status.trunc = false ∧ u.status.fault = false ∧ u.input.fifo = t.output.fifo ∧
        u.input.bits = 0 ∧ u.output = { fifo := [], acc := 0#7, bits := 0, count := 0#32 } ∧ 3 ≤ u.params.outDepth :=
  ⟨test_witness_holdsTree, test_witness_slots.1, test_witness_slots.2, ⟨_, rfl, rfl, rfl⟩, rfl, rfl, rfl, rfl, rfl, by decide,
    fun t => ⟨{ at' 5#32 .first with input := { fifo := t.output.fifo, sr := 0#8, bits := 0 } }, ⟨_, rfl, rfl, rfl⟩, rfl, rfl, rfl,
      rfl, rfl, rfl, rfl, rfl, show 3 ≤ 16 by decide⟩⟩

theorem test_witness_HeaderRoundTrip : ∀ x ∈ leafSyms t1, x.toNat ≤ 256 := by decide

theorem test_witness_CanonicalLayoutStored :
    idle.params.wellFormed = true ∧ idle.current = none ∧ treeSize t1 ≤ idle.params.nNodes := by decide

/-- The loading clause of CodewordLoaded: 256 bits for the last slot. -/
theorem test_witness_CodewordLoaded :
    idle.current = none ∧ (0x100#9).toNat ≤ 256 ∧ (List.replicate 256 true).length ≤ 256 := ⟨rfl, by decide, List.length_replicate.le⟩

/-- CODE_CFG of T1's table: VALID = 0 but for 'A', 'B' and EOS. -/
def t1Cfg (k : Nat) : Word :=
  if k = 0x41 then 0x80000001#32 else if k = 0x42 then 0x80000002#32 else if k = 0x100 then 0x80000002#32 else 0#32

/-- T1 and the whole of its table. -/
def t1Full : Rams := { t1Rams with cfg := (List.range' 0 257).map (fun k => (k, t1Cfg k)) }

theorem ramFind_range' (f : Nat → Word) (n a j : Nat) (h1 : a ≤ j) (h2 : j < a + n) :
    ramFind ((List.range' a n).map (fun k => (k, f k))) j = some (f j) := by
  induction n generalizing a with
  | zero => omega
  | succ n ih =>
    rw [List.range'_succ, List.map_cons, ramFind]
    by_cases h : a = j
    · rw [if_pos h, h]
    · rw [if_neg h]
      exact ih (a + 1) (by omega) (by omega)

theorem t1Full_cfg (k : Nat) (h : k ≤ 256) : readCfg t1Full k = t1Cfg k := by
  have e := ramFind_range' t1Cfg 257 0 k (by omega) (by omega)
  simp only [readCfg, t1Full, e, Option.getD_some]

/-- The table clause of CodewordLoaded: T1's table is derived from T1, with the slots of 'A' and EOS both usable. -/
theorem test_witness_tableDerived :
    tableDerived t1Full t1 ∧ 0x41#9 ≠ 0x100#9 ∧ (readCfg t1Full (0x41#9).toNat).getLsbD 31 = true ∧
      (readCfg t1Full (0x100#9).toNat).getLsbD 31 = true := by
  refine ⟨?_, by decide, by rw [t1Full_cfg _ (by decide)]; decide, by rw [t1Full_cfg _ (by decide)]; decide⟩
  intro s hs hv
  have hk : s.toNat = 0x41 ∨ s.toNat = 0x42 ∨ s.toNat = 0x100 := by
    rw [t1Full_cfg _ hs] at hv
    unfold t1Cfg at hv
    split_ifs at hv with h1 h2 h3
    · exact .inl h1
    · exact .inr (.inl h2)
    · exact .inr (.inr h3)
    · exact absurd hv (by decide)
  have derived : ∀ x : Sym, x.toNat ≤ 256 → cfgValid (t1Cfg x.toNat) = true → cfgLen (t1Cfg x.toNat) ≤ 256 →
      (x, (List.range (cfgLen (t1Cfg x.toNat))).map (codeBit t1Rams x)) ∈ codewords t1 → slotDerived t1Full t1 x := by
    intro x hx h1 h2 h3
    have e := t1Full_cfg x.toNat hx
    refine ⟨⟨hx, by rw [e]; exact h1, by rw [e]; exact h2⟩, ?_⟩
    unfold slotCodeword
    rw [e]
    exact h3
  rcases hk with h | h | h
  · rw [BitVec.eq_of_toNat_eq (show s.toNat = (0x41#9).toNat from h)]
    exact derived _ (by decide) (by decide) (by decide) (by decide)
  · rw [BitVec.eq_of_toNat_eq (show s.toNat = (0x42#9).toNat from h)]
    exact derived _ (by decide) (by decide) (by decide) (by decide)
  · rw [BitVec.eq_of_toNat_eq (show s.toNat = (0x100#9).toNat from h)]
    exact derived _ (by decide) (by decide) (by decide) (by decide)

end Sys2Proof.Machine.Tests
end

section
/-! SUPPORT. Whose turn a step is (spec/00_scope.md R9, R10, R21): one equation per head of the schedule and per outcome of the block's
turn, and the statement that a step is one turn. -/

namespace Sys2Proof.Machine

/-! ### The block's turn -/

theorem blockStep_idle (s : State) (h : s.current = none) : blockStep s = .next s := by
  simp only [blockStep, h]

theorem blockStep_legal (s : State) (c : Command) (i : Instr) (hc : s.current = some c) (hi : decodeFields c.op c.sym = .ok i) :
    blockStep s = exec i s := by
  simp only [blockStep, hc, hi]

theorem blockStep_illegal (s : State) (c : Command) (op : BitVec 4) (hc : s.current = some c)
    (hi : decodeFields c.op c.sym = .error (.illegalOp op)) :
    blockStep s = .next (raiseFault 1#4 0#4 (op.setWidth 10) s) := by
  simp only [blockStep, hc, hi]

/-! ### The turn the schedule gives -/

theorem step_unscheduled (s : State) (h : s.schedule = []) : step s = blockStep s := by
  simp only [step, takeTurn, h]

theorem step_block (s : State) (rest : List Turn) (h : s.schedule = .block :: rest) :
    step s = blockStep { s with schedule := rest } := by
  simp only [step, takeTurn, h]

theorem step_access (s : State) (a : Access) (rest : List Turn) (h : s.schedule = .access a :: rest) :
    step s = .next (hostAccess a { s with schedule := rest }) := by
  simp only [step, takeTurn, h]

theorem step_hardReset (s : State) (rest : List Turn) (h : s.schedule = .hardReset :: rest) :
    step s = .next (hardReset { s with schedule := rest }) := by
  simp only [step, takeTurn, h]

/-- Settles O23: each clause is the equation of its head of the schedule, followed by that of the block's turn. -/
theorem stepRunsTheCommand : Obligations.StepRunsTheCommand := by
  intro s rest
  refine ⟨fun c i hc hi => ⟨fun h => ?_, fun h => ?_⟩, fun hc => ⟨fun h => ?_, fun h => ?_⟩, fun a h => step_access s a rest h⟩
  · rw [step_unscheduled s h, blockStep_legal s c i hc hi]
  · rw [step_block s rest h, blockStep_legal { s with schedule := rest } c i hc hi]
  · rw [step_unscheduled s h, blockStep_idle s hc]
  · rw [step_block s rest h, blockStep_idle { s with schedule := rest } hc]

end Sys2Proof.Machine
end

section
/-! SUPPORT. Progress (spec/00_scope.md R9, R44): at a position of the running command's list of micro-steps its meaning answers a next
state, so no step of a state that meets the invariant stops. -/

namespace Sys2Proof.Machine

/-- Every command has a first micro-step. -/
theorem exec_answers_at_first (s : State) (i : Instr) (op : BitVec 4) (y : Sym)
    (hc : s.current = some { op := op, sym := y, pos := .first }) : ∃ t, exec i s = .next t := by
  cases i with
  | validateTree => exact ⟨_, execValidateTree_at_first s op y hc⟩
  | decodeSymbol => exact ⟨_, execDecodeSymbol_at_first s op y hc⟩
  | encodeSymbol sym => exact ⟨_, execEncodeSymbol_at_first sym s op y hc⟩
  | flush => exact ⟨_, execFlush_at_first s op y hc⟩
  | decompress => exact ⟨_, execDecompress_at_first s op y hc⟩
  | compress => exact ⟨_, execCompress_at_first s op y hc⟩

/-- A meaning answers at each position that `posOk` gives its command: the two sides list the same positions. -/
theorem exec_answers_of_posOk (s : State) (i : Instr) (op : BitVec 4) (y : Sym) (pos : Pos)
    (hc : s.current = some { op := op, sym := y, pos := pos }) (hp : posOk s i pos) : ∃ t, exec i s = .next t := by
  cases pos with
  | first => exact exec_answers_at_first s i op y hc
  | check st vis e =>
    obtain ⟨rfl | rfl | rfl, -⟩ := hp
    · exact ⟨_, execValidateTree_at_check s op y st vis e hc⟩
    · exact ⟨_, execDecodeSymbol_at_check s op y st vis e hc⟩
    · exact ⟨_, execDecompress_at_check s op y st vis e hc⟩
  | walk cur n =>
    obtain ⟨rfl | rfl, -⟩ := hp
    · exact ⟨_, execDecodeSymbol_at_walk s op y cur n hc⟩
    · exact ⟨_, execDecompress_at_walk s op y cur n hc⟩
  | emit r k =>
    obtain ⟨rfl, -⟩ := hp
    exact ⟨_, execDecompress_at_emit s op y r k hc⟩
  | read =>
    obtain rfl := hp
    exact ⟨_, execCompress_at_read s op y hc⟩
  | lookup x =>
    obtain rfl | ⟨rfl, -⟩ := hp
    · exact ⟨_, execEncodeSymbol_at_lookup x s op y x hc⟩
    · exact ⟨_, execCompress_at_lookup s op y x hc⟩
  | code x len j =>
    obtain ⟨rfl | rfl, -⟩ := hp
    · exact ⟨_, execEncodeSymbol_at_code x s op y x len j hc⟩
    · exact ⟨_, execCompress_at_code s op y x len j hc⟩
  | pad left =>
    obtain ⟨rfl, -⟩ := hp
    exact ⟨_, execCompress_at_pad s op y left hc⟩
  | flush =>
    obtain rfl | rfl | ⟨rfl, -⟩ := hp
    · exact ⟨_, execFlush_at_flush s op y hc⟩
    · exact ⟨_, execDecompress_at_flush s op y hc⟩
    · exact ⟨_, execCompress_at_flush s op y hc⟩

/-- The block's turn answers whenever a running command is CMD's, at one of its positions. -/
theorem blockStep_answers (s : State) (h : ∀ c, s.current = some c → commandOk s c) : ∃ t, blockStep s = .next t := by
  cases hc : s.current with
  | none => exact ⟨s, blockStep_idle s hc⟩
  | some c =>
    obtain ⟨-, -, hpos, -⟩ := (commandOk_iff s c).mp (h c hc)
    cases hi : decodeFields c.op c.sym with
    | ok i =>
      rw [blockStep_legal s c i hc hi]
      exact exec_answers_of_posOk s i c.op c.sym c.pos hc (hpos i hi)
    | error e =>
      obtain ⟨op⟩ := e
      exact ⟨_, blockStep_illegal s c op hc hi⟩

/-- Settles O49: by the head of the schedule; taking a turn off the schedule leaves what `commandOk` reads. -/
theorem stepAlwaysAnswers : Obligations.StepAlwaysAnswers := by
  intro s hs
  rcases h : s.schedule with _ | ⟨turn, rest⟩
  · rw [step_unscheduled s h]
    exact blockStep_answers s hs.command
  · cases turn with
    | block =>
      rw [step_block s rest h]
      exact blockStep_answers { s with schedule := rest } hs.command
    | access a => exact ⟨_, step_access s a rest h⟩
    | hardReset => exact ⟨_, step_hardReset s rest h⟩

end Sys2Proof.Machine
end

section
/-! SUPPORT. When a micro-step is held (spec/00_scope.md R9, spec/20_memory.md R80 to R83): the four stream primitives with no input or no
room, and each shared micro-step built on them. -/

namespace Sys2Proof.Machine

/-! ### Held for input -/

theorem readBit_hold (p : InPath) (hb : p.bits = 0) (hf : p.fifo = []) : readBit false p = .hold := by
  simp [readBit, hb, hf]

theorem readBits8_hold (p : InPath) (h : availBits p < 8) : readBits8 false p = .hold := by
  simp [readBits8, h]

theorem walkStep_hold (onSymbol : Sym → State → State) (onEoi : BitVec 10 → State → State) (cur : NodeIndex) (n : BitVec 10)
    (s : State) (hn : nodeIsBranch (readNode s.rams cur.toNat) = true) (hr : readBit s.status.inEnd s.input = .hold) :
    walkStep onSymbol onEoi cur n s = holdIn s := by
  simp only [walkStep, walkIteration, hn, hr, if_true]

theorem readStep_hold (s : State) (h : readBits8 s.status.inEnd s.input = .hold) : readStep s = holdIn s := by
  simp only [readStep, h]

/-! ### Held for output space -/

theorem writeBit_full (depth : Nat) (b : Bool) (p : OutPath) (hb : p.bits = 7) (hf : p.fifo.length = depth) :
    writeBit depth b p = none := by
  simp [writeBit, hb, hf]

theorem flushOut_full (depth : Nat) (p : OutPath) (hb : p.bits ≠ 0) (hf : p.fifo.length = depth) : flushOut depth p = none := by
  simp [flushOut, hb, hf]

theorem writeStep_full (b : Bool) (k : State → State) (s : State) (hb : s.output.bits = 7)
    (hf : s.output.fifo.length = s.params.outDepth) : writeStep b k s = holdOut s := by
  simp only [writeStep, writeBit_full _ b _ hb hf]

theorem flushStep_full (s : State) (hb : s.output.bits ≠ 0) (hf : s.output.fifo.length = s.params.outDepth) :
    flushStep s = holdOut s := by
  simp only [flushStep, flushOut_full _ _ hb hf]

/-! ### The commands -/

/-- Both decode commands are held at a Branch with no input bit while the input has not ended (R80, R132). -/
theorem exec_walk_held (s : State) (op : BitVec 4) (y : Sym) (cur : NodeIndex) (n : BitVec 10) (i : Instr)
    (hc : s.current = some { op := op, sym := y, pos := .walk cur n }) (hi : i ∈ [Instr.decodeSymbol, .decompress])
    (hn : nodeIsBranch (readNode s.rams cur.toNat) = true) (hr : readBit s.status.inEnd s.input = .hold) :
    exec i s = .next (holdIn s) := by
  simp only [List.mem_cons, List.not_mem_nil, or_false] at hi
  obtain rfl | rfl := hi
  · rw [execDecodeSymbol_at_walk s op y cur n hc, walkStep_hold _ _ cur n s hn hr]
  · rw [execDecompress_at_walk s op y cur n hc, walkStep_hold _ _ cur n s hn hr]

/-- The three commands that flush are held there while a partial byte has no room (R83). -/
theorem exec_flush_held (s : State) (op : BitVec 4) (y : Sym) (i : Instr)
    (hc : s.current = some { op := op, sym := y, pos := .flush }) (hi : i ∈ [Instr.flush, .decompress, .compress])
    (hb : s.output.bits ≠ 0) (hf : s.output.fifo.length = s.params.outDepth) : exec i s = .next (holdOut s) := by
  simp only [List.mem_cons, List.not_mem_nil, or_false] at hi
  obtain rfl | rfl | rfl := hi
  · rw [execFlush_at_flush s op y hc, flushStep_full s hb hf]
  · rw [execDecompress_at_flush s op y hc, flushStep_full s hb hf]
  · rw [execCompress_at_flush s op y hc, flushStep_full s hb hf]

/-- Settles O32: by what is waited for, and then by the command and position that wait. -/
theorem heldMicroSteps : Obligations.HeldMicroSteps := by
  intro s op y pos i hc
  refine ⟨fun hend h => ?_, fun hf h => ?_⟩
  · change exec i s = .next (holdIn s)
    obtain ⟨cur, n, rfl, hn, hb, hq, hi⟩ | ⟨rfl, ha, rfl⟩ := h
    · exact exec_walk_held s op y cur n i hc hi hn (hend ▸ readBit_hold s.input hb hq)
    · rw [execCompress_at_read s op y hc, readStep_hold s (hend ▸ readBits8_hold s.input ha)]
  · change exec i s = .next (holdOut s)
    obtain ⟨hb, hw⟩ | ⟨hb, rfl, hi⟩ := h
    · obtain ⟨x, z, len, j, rfl, rfl⟩ | ⟨x, k, rfl, rfl⟩ | ⟨x, len, j, rfl, rfl⟩ | ⟨n, rfl, rfl⟩ := hw
      · rw [execEncodeSymbol_at_code z s op y x len j hc, codeStep, writeStep_full _ _ s hb hf]
      · rw [execDecompress_at_emit s op y x k hc, writeStep_full _ _ s hb hf]
      · rw [execCompress_at_code s op y x len j hc, codeStep, writeStep_full _ _ s hb hf]
      · rw [execCompress_at_pad s op y n hc, writeStep_full _ _ s hb hf]
    · exact exec_flush_held s op y i hc hi hb hf

end Sys2Proof.Machine
end

section
/-! SUPPORT. The base case of both invariants (spec/10_state.md R45): the state after a hardware reset, at any legal parameters. -/

namespace Sys2Proof.Machine

/-- No command runs after a reset, so every clause about a running command is empty. -/
theorem resetWith_current_ne (p : Params) (c : Command) : (State.resetWith p).current ≠ some c := nofun

theorem inv_resetWith (p : Params) (hp : p.wellFormed = true) : (State.resetWith p).Inv where
  params := hp
  rams := ramsOk_resetWith p
  inFifo := Nat.zero_le _
  inBits := Nat.zero_le _
  outFifo := Nat.zero_le _
  outBits := Nat.zero_le _
  outAcc := Nat.one_pos
  outCount := rfl
  cmdForm := show Word.isCommandForm 0#32 = true by decide
  resultForm := show Word.isCfgForm 0#32 = true by decide
  faultRecord := show faultRecordOk 0#32 = true by decide
  faultFlag := ⟨nofun, fun h => absurd rfl h⟩
  oneEnd := nofun
  trunc := nofun
  oneWait := nofun
  idleWait := fun _ => ⟨rfl, rfl⟩
  command := fun c h => absurd h (resetWith_current_ne p c)
  running := fun h => absurd rfl h
  endFlags := fun c h => absurd h (resetWith_current_ne p c)
  waitIn := nofun
  waitOut := nofun

/-- TREE_OK is 0 and no check is under way. -/
theorem treeInv_resetWith (p : Params) : (State.resetWith p).TreeInv :=
  ⟨nofun, fun c _ _ _ h => absurd h (resetWith_current_ne p c)⟩

/-- Settles O47: at every legal choice of the parameters, of which State.reset's is one. -/
theorem resetMeetsInvariant : Obligations.ResetMeetsInvariant := by
  have hreset : Params.testDefault.wellFormed = true := by decide
  exact ⟨fun p hp => ⟨inv_resetWith p hp, treeInv_resetWith p⟩, inv_resetWith _ hreset, treeInv_resetWith _⟩

end Sys2Proof.Machine
end

section
/-! SUPPORT. The words of canonical RAMs have their stored forms (spec/10_state.md R30, R31; log 5), so the reset state's have (R45). -/

namespace Sys2Proof.Machine

/-- A word of a canonical node RAM, listed or free, is of its stored form (R30). -/
theorem readNode_isNodeForm (p : Params) (r : Rams) (h : ramsOk p r = true) (i : Nat) : (readNode r i).isNodeForm = true := by
  simp only [ramsOk, Bool.and_eq_true] at h
  obtain ⟨⟨hnode, -⟩, -⟩ := h
  unfold readNode
  cases hf : ramFind r.node i with
  | none => exact isNodeForm_nodeForm _
  | some w => exact (ramWf_find _ _ _ i w hnode hf).2

/-- A CODE_CFG word of a canonical code RAM, listed or free, is of its stored form (R31). -/
theorem readCfg_isCfgForm (p : Params) (r : Rams) (h : ramsOk p r = true) (x : Nat) : (readCfg r x).isCfgForm = true := by
  simp only [ramsOk, Bool.and_eq_true] at h
  obtain ⟨⟨-, hcfg⟩, -⟩ := h
  unfold readCfg
  cases hf : ramFind r.cfg x with
  | none => exact isCfgForm_cfgForm _
  | some w => exact (ramWf_find _ _ _ x w hcfg hf).2

/-- Settles O5: the registers and streams by evaluation, the RAM words by the canonical form of the RAMs. -/
theorem resetState : Obligations.ResetState := by
  have hrams : ramsOk Params.testDefault State.reset.rams = true := ramsOk_resetWith _
  exact ⟨rfl, by decide, rfl, rfl, rfl, rfl, readNode_isNodeForm _ _ hrams, readCfg_isCfgForm _ _ hrams⟩

end Sys2Proof.Machine
end

section
/-! SUPPORT. The STATUS register (spec/10_state.md R23): the bits of the word that a read returns, and what a write leaves. -/

namespace Sys2Proof.Machine

/-- Bit `k + 1` of a word is bit `k` of the word without its bit 0. -/
theorem getLsbD_append_ofBool_succ {n : Nat} (x : BitVec n) (b : Bool) (k : Nat) :
    (x ++ BitVec.ofBool b).getLsbD (k + 1) = x.getLsbD k := by
  simp [BitVec.getLsbD_append]

/-- Bit 0 of a word is the bit appended last. -/
theorem getLsbD_append_ofBool_zero {n : Nat} (x : BitVec n) (b : Bool) : (x ++ BitVec.ofBool b).getLsbD 0 = b := by
  rw [BitVec.getLsbD_append]
  simp

/-- The reserved bits of STATUS read 0 (R23). -/
theorem statusWord_getLsbD_reserved (busy : Bool) (st : Status) (k : Nat) (hk : 12 ≤ k) :
    (statusWord busy st).getLsbD k = false := by
  obtain ⟨j, rfl⟩ := Nat.exists_eq_add_of_le' hk
  simp only [statusWord, getLsbD_append_ofBool_succ, BitVec.getLsbD_zero]

/-- Settles O12: STATUS is mapped at 0x004 and a write to it is never dropped; the read gives `statusWord`, whose bits are the flags. -/
theorem statusRegister : Obligations.StatusRegister := by
  intro s
  refine ⟨⟨statusWord s.busy s.status, hostAccess_read 0x004#15 .status s rfl rfl, ?_⟩, fun w => ?_⟩
  · refine ⟨?_, ?_, ?_, ?_, ?_, ?_, ?_, ?_, ?_, ?_, ?_, ?_, statusWord_getLsbD_reserved _ _⟩ <;>
      simp only [statusWord, State.busy, getLsbD_append_ofBool_succ, getLsbD_append_ofBool_zero]
  · have hbit : ∀ flag b : Bool, (flag && !b) = if b then false else flag := by decide
    rw [hostAccess_write 0x004#15 .status w s rfl rfl rfl]
    simp only [writeReg, writeStatus, Status.clearWritten, hbit]

end Sys2Proof.Machine
end

section
/-! SUPPORT. Everything a step can do, said once (spec/00_scope.md R9, R10, R105): a turn of the block, a host access or a hardware reset
on the state with the turn taken off the schedule; and the block's turn by what runs. -/

namespace Sys2Proof.Machine

variable {s t : State}

theorem blockStep_cases (h : blockStep s = .next t) :
    (s.current = none ∧ t = s) ∨
      (∃ c i, s.current = some c ∧ decodeFields c.op c.sym = .ok i ∧ exec i s = .next t) ∨
      (∃ (c : Command) (op : BitVec 4), s.current = some c ∧ decodeFields c.op c.sym = .error (.illegalOp op) ∧
        t = raiseFault 1#4 0#4 (op.setWidth 10) s) := by
  cases hc : s.current with
  | none => exact .inl ⟨rfl, Host.Outcome.next.inj (h.symm.trans (blockStep_idle s hc))⟩
  | some c =>
    cases hi : decodeFields c.op c.sym with
    | ok i => exact .inr (.inl ⟨c, i, rfl, hi, (blockStep_legal s c i hc hi).symm.trans h⟩)
    | error e =>
      obtain ⟨op⟩ := e
      exact .inr (.inr ⟨c, op, rfl, hi, Host.Outcome.next.inj (h.symm.trans (blockStep_illegal s c op hc hi))⟩)

theorem step_cases (h : step s = .next t) : ∃ rest,
    blockStep { s with schedule := rest } = .next t ∨ (∃ a, t = hostAccess a { s with schedule := rest }) ∨
      t = hardReset { s with schedule := rest } := by
  rcases hsched : s.schedule with _ | ⟨turn, rest⟩
  · exact ⟨s.schedule, .inl ((step_unscheduled s hsched).symm.trans h)⟩
  · refine ⟨rest, ?_⟩
    cases turn with
    | block => exact .inl ((step_block s rest hsched).symm.trans h)
    | access a => exact .inr (.inl ⟨a, Host.Outcome.next.inj (h.symm.trans (step_access s a rest hsched))⟩)
    | hardReset => exact .inr (.inr (Host.Outcome.next.inj (h.symm.trans (step_hardReset s rest hsched))))

/-- BUSY = 0 is that no command is current (R23; log 6). -/
theorem current_eq_none (h : s.busy = false) : s.current = none :=
  Option.isNone_iff_eq_none.mp (Option.isSome_eq_false_iff.mp h)

end Sys2Proof.Machine
end

section
/-! SUPPORT. Every micro-step keeps the invariant (spec/10_state.md R24, R30 to R38, R44, spec/60_exceptions.md R186). A micro-step
changes pieces of data and then advances, ends, faults or is held: `MidStep` is what of the invariant holds between the two. -/

namespace Sys2Proof.Machine

/-! ### Inside a micro-step -/

/-- What the invariant says of a state with a running command, but for its position, its WAIT bits and the flags EOS and TRUNC. -/
structure State.MidStep (s : State) : Prop where
  params : s.params.wellFormed = true
  rams : ramsOk s.params s.rams = true
  inFifo : s.input.fifo.length ≤ s.params.inDepth
  inBits : s.input.bits ≤ 8
  outFifo : s.output.fifo.length ≤ s.params.outDepth
  outBits : s.output.bits ≤ 7
  outAcc : s.output.acc.toNat < 2 ^ s.output.bits
  outCount : s.output.count.toNat % 8 = s.output.bits
  cmdForm : s.cmd.isCommandForm = true
  resultForm : s.result.isCfgForm = true
  notDone : s.status.done = false
  notFault : s.status.fault = false
  noRecord : s.faultInfo = 0#32
  trunc : s.status.trunc = true → s.status.eoi = true ∧ s.status.eos = false

/-- The current command is the one CMD holds, and it is command `i` (R44, R67). -/
def State.Runs (s : State) (i : Instr) : Prop :=
  ∃ c, s.current = some c ∧ c.op = opField s.cmd ∧ c.sym = symField s.cmd ∧ decodeFields c.op c.sym = .ok i

/-- Neither EOS nor TRUNC is set. -/
def State.NoEnd (s : State) : Prop := s.status.eos = false ∧ s.status.trunc = false

section
variable {s : State} {i : Instr} {c : Command}

/-- Every running command is inside a micro-step, whether its opcode is legal or not (R67, R186). -/
theorem State.Inv.midStep (h : s.Inv) (hc : s.current = some c) : s.MidStep := by
  obtain ⟨hdone, hfault⟩ := h.running (hc ▸ Option.some_ne_none c)
  have hrecord : s.faultInfo = 0#32 := by
    by_contra hne
    exact Bool.false_ne_true (hfault ▸ h.faultFlag.mpr hne)
  exact { h with notDone := hdone, notFault := hfault, noRecord := hrecord }

/-! ### How a micro-step ends -/

/-- The successful end (R182). -/
theorem State.MidStep.inv_finish (h : s.MidStep) : (finish s).Inv :=
  { h with
    faultRecord := show faultRecordOk s.faultInfo = true by rw [h.noRecord]; decide
    faultFlag := by simp [h.notFault, h.noRecord]
    oneEnd := by simp [h.notFault]
    oneWait := by simp
    idleWait := fun _ => ⟨rfl, rfl⟩
    command := nofun
    running := fun hc => absurd rfl hc
    endFlags := nofun
    waitIn := nofun
    waitOut := nofun }

/-- The fault entry, with a code of R180 (R183). -/
theorem State.MidStep.inv_raiseFault (h : s.MidStep) (code sub : BitVec 4) (data : BitVec 10) (h1 : 1 ≤ code.toNat) (h5 : code.toNat ≤ 5)
    (hsub : if code = 2#4 then 1 ≤ sub.toNat ∧ sub.toNat ≤ 5 else sub = 0#4) : (raiseFault code sub data s).Inv := by
  obtain ⟨hrecord, hne⟩ := faultRecordOk_faultWord code sub data h1 h5 hsub
  exact
    { h with
      faultRecord := hrecord
      faultFlag := ⟨fun _ => hne, fun _ => rfl⟩
      oneEnd := by simp [h.notDone]
      oneWait := by simp
      idleWait := fun _ => ⟨rfl, rfl⟩
      command := nofun
      running := fun hc => absurd rfl hc
      endFlags := nofun
      waitIn := nofun
      waitOut := nofun }

/-- Advancing to a position of the command (R9, R44). -/
theorem State.MidStep.inv_goTo (h : s.MidStep) (hr : s.Runs i) (pos : Pos) (hp : posOk s i pos) (he : pos ≠ .flush → s.NoEnd) :
    (goTo pos s).Inv := by
  obtain ⟨c, hc, hop, hsym, hi⟩ := hr
  have hcur : (goTo pos s).current = some { c with pos := pos } := by simp [hc]
  have hcommand : commandOk (goTo pos s) { c with pos := pos } := by
    refine (commandOk_iff _ _).mpr ⟨hop, hsym, fun i' hi' => ?_, fun e he => ?_⟩
    · obtain rfl : i = i' := Except.ok.inj (hi.symm.trans hi')
      exact (posOk_congr s (goTo pos s) i pos rfl rfl rfl rfl).mpr hp
    · exact nomatch hi.symm.trans he
  exact
    { h with
      faultRecord := show faultRecordOk s.faultInfo = true by rw [h.noRecord]; decide
      faultFlag := by simp [h.notFault, h.noRecord]
      oneEnd := by simp [h.notFault]
      oneWait := by simp
      idleWait := fun hn => absurd (hcur.symm.trans hn) nofun
      command := fun c' hc' => Option.some.inj (hcur.symm.trans hc') ▸ hcommand
      running := fun _ => ⟨h.notDone, h.notFault⟩
      endFlags := fun c' hc' hne => he (by rwa [← Option.some.inj (hcur.symm.trans hc')] at hne)
      waitIn := nofun
      waitOut := nofun }

/-- No micro-step both reads input and writes output (R24). -/
theorem writesOutput_of_readsInput (p : Pos) (h : readsInput p = true) : writesOutput p = false := by
  cases p with
  | walk cur n => rfl
  | read => rfl
  | _ => exact absurd h nofun

/-- Held for input (R9, R80, R81). -/
theorem State.Inv.inv_holdIn (h : s.Inv) (hc : s.current = some c) (hp : readsInput c.pos = true) : (holdIn s).Inv := by
  have hout : s.status.waitOut ≠ true := fun hw =>
    Bool.false_ne_true (writesOutput_of_readsInput _ hp ▸ h.waitOut hw c hc)
  exact
    { h with
      oneWait := fun hw => hout hw.2
      idleWait := fun hn => absurd (hc.symm.trans hn) nofun
      waitIn := fun _ c' hc' => Option.some.inj (hc.symm.trans hc') ▸ hp }

/-- Held for output space (R9, R82, R83). -/
theorem State.Inv.inv_holdOut (h : s.Inv) (hc : s.current = some c) (hp : writesOutput c.pos = true) : (holdOut s).Inv := by
  have hin : s.status.waitIn ≠ true := fun hw =>
    Bool.false_ne_true ((writesOutput_of_readsInput _ (h.waitIn hw c hc)) ▸ hp)
  exact
    { h with
      oneWait := fun hw => hin hw.1
      idleWait := fun hn => absurd (hc.symm.trans hn) nofun
      waitOut := fun _ c' hc' => Option.some.inj (hc.symm.trans hc') ▸ hp }

/-! ### The data a micro-step changes -/

theorem State.MidStep.outBounds (h : s.MidStep) : OutBounds s.params.outDepth s.output :=
  ⟨h.outFifo, h.outBits, h.outAcc, h.outCount⟩

theorem State.MidStep.setOutput {q : OutPath} (h : s.MidStep) (hq : OutBounds s.params.outDepth q) : (setOutput q s).MidStep := by
  obtain ⟨hfifo, hbits, hacc, hcount⟩ := hq
  exact { h with outFifo := hfifo, outBits := hbits, outAcc := hacc, outCount := hcount }

theorem State.MidStep.setInput {q : InPath} (h : s.MidStep) (hq : q.bits ≤ 8 ∧ q.fifo.length ≤ s.input.fifo.length) :
    (setInput q s).MidStep :=
  { h with inFifo := hq.2.trans h.inFifo, inBits := hq.1 }

theorem State.MidStep.setTreeOk (h : s.MidStep) (b : Bool) : (setTreeOk b s).MidStep := { h with }

theorem State.MidStep.setEoi (h : s.MidStep) (hn : s.NoEnd) : (setEoi s).MidStep :=
  { h with trunc := fun ht => absurd (hn.2.symm.trans ht) Bool.false_ne_true }

/-- The truncation of DECOMPRESS (R151). -/
theorem State.MidStep.setTrunc (h : s.MidStep) (hn : s.NoEnd) : (setTrunc (Machine.setEoi s)).MidStep :=
  { h with trunc := fun _ => ⟨rfl, hn.1⟩ }

theorem State.MidStep.clearResult (h : s.MidStep) : (clearResult s).MidStep :=
  { h with resultForm := show Word.isCfgForm 0#32 = true by decide }

theorem State.MidStep.clearSymCount (h : s.MidStep) : (clearSymCount s).MidStep := { h with }

theorem State.MidStep.countSymbol (h : s.MidStep) : (countSymbol s).MidStep := { h with }

/-- A decode returns a symbol (R131). -/
theorem State.MidStep.returnSymbol (h : s.MidStep) (hn : s.NoEnd) (r : Sym) : (returnSymbol r s).MidStep :=
  { h with
    resultForm := resultWord_isCfgForm r
    notDone := by simp [h.notDone]
    notFault := by simp [h.notFault]
    trunc := by simp [hn.2] }

/-! ### A running command at a position -/

/-- The invariant holds and command `i` runs at position `pos`. -/
def State.At (s : State) (i : Instr) (pos : Pos) : Prop :=
  s.Inv ∧ ∃ c, s.current = some c ∧ decodeFields c.op c.sym = .ok i ∧ c.pos = pos

variable {pos : Pos}

theorem State.At.midStep (h : s.At i pos) : s.MidStep := by
  obtain ⟨hs, c, hc, -⟩ := h
  exact hs.midStep hc

theorem State.At.runs (h : s.At i pos) : s.Runs i := by
  obtain ⟨hs, c, hc, hi, -⟩ := h
  obtain ⟨hop, hsym, -⟩ := (commandOk_iff s c).mp (hs.command c hc)
  exact ⟨c, hc, hop, hsym, hi⟩

theorem State.At.posOk (h : s.At i pos) : posOk s i pos := by
  obtain ⟨hs, c, hc, hi, rfl⟩ := h
  obtain ⟨-, -, hpos, -⟩ := (commandOk_iff s c).mp (hs.command c hc)
  exact hpos i hi

theorem State.At.noEnd (h : s.At i pos) (hp : pos ≠ .flush) : s.NoEnd := by
  obtain ⟨hs, c, hc, -, rfl⟩ := h
  exact hs.endFlags c hc hp

theorem State.At.inv_holdIn (h : s.At i pos) (hp : readsInput pos = true) : (holdIn s).Inv := by
  obtain ⟨hs, c, hc, -, rfl⟩ := h
  exact hs.inv_holdIn hc hp

theorem State.At.inv_holdOut (h : s.At i pos) (hp : writesOutput pos = true) : (holdOut s).Inv := by
  obtain ⟨hs, c, hc, -, rfl⟩ := h
  exact hs.inv_holdOut hc hp

theorem State.At.pos_eq (h : s.At i pos) (hc : s.current = some c) : pos = c.pos := by
  obtain ⟨-, c', hc', -, rfl⟩ := h
  rw [Option.some.inj (hc'.symm.trans hc)]

/-! ### The shared micro-steps -/

/-- The start of the check (R121). -/
theorem checkOk_start (p : Params) : checkOk p [0#10] [] := ⟨le_rfl, List.nodup_nil, nofun⟩

/-- An iteration that goes on keeps the values of a check position in their ranges (R43, R121). -/
theorem checkOk_more {p : Params} {r : Rams} {stack visited st vis : List NodeIndex} {e e' : Bool} (h : checkOk p stack visited)
    (hm : checkIteration p r stack visited e = .more st vis e') : checkOk p st vis := by
  obtain ⟨j, rest, rfl, hj, hnew, rfl, hst⟩ := checkIteration_more p r stack visited st vis e e' hm
  obtain ⟨hlen, hnodup, hrange⟩ := h
  refine ⟨?_, List.nodup_cons.mpr ⟨hnew, hnodup⟩, List.forall_mem_cons.mpr ⟨hj, hrange⟩⟩
  obtain ⟨-, rfl, -⟩ | ⟨-, -, rfl, -⟩ := hst
  · simpa using hlen
  · simp only [List.length_cons] at hlen ⊢
    omega

/-- An iteration of TreeCheck keeps the invariant if what follows a passing check does (R121). -/
theorem State.At.inv_checkStep {st vis : List NodeIndex} {e : Bool} (after : State → State) (h : s.At i (.check st vis e))
    (hafter : (after (Machine.setTreeOk true s)).Inv) : (checkStep after st vis e s).Inv := by
  obtain ⟨hi, hok⟩ := h.posOk
  obtain ⟨sub, data, hbad, ht⟩ | ⟨st', vis', e', hmore, ht⟩ | ⟨-, ht⟩ := checkStep_cases after st vis e s <;> rw [ht]
  · refine (h.midStep.setTreeOk false).inv_raiseFault 2#4 sub data (by decide) (by decide) ?_
    obtain rfl | rfl | rfl | rfl | rfl := checkIteration_bad _ _ _ _ _ _ _ hbad <;> decide
  · exact h.midStep.inv_goTo h.runs _ ⟨hi, checkOk_more hok hmore⟩ fun _ => h.noEnd nofun
  · exact hafter

/-- A decode command begins with the check or with the walk (R130, R150). -/
theorem State.MidStep.inv_startDecode (h : s.MidStep) (hr : s.Runs i) (hn : s.NoEnd) (hi : i = .decodeSymbol ∨ i = .decompress) :
    (startDecode s).Inv := by
  unfold startDecode
  split
  · next htree => exact h.inv_goTo hr _ ⟨hi, htree⟩ fun _ => hn
  · exact h.inv_goTo hr _ ⟨.inr hi, checkOk_start _⟩ fun _ => hn

/-- The walk begins after a passing check (R130, R150). -/
theorem State.At.inv_walkAfterCheck {st vis : List NodeIndex} {e : Bool} (h : s.At i (.check st vis e))
    (hi : i = .decodeSymbol ∨ i = .decompress) : (Machine.goTo walkStart (Machine.setTreeOk true s)).Inv :=
  (h.midStep.setTreeOk true).inv_goTo h.runs _ ⟨hi, rfl⟩ fun _ => h.noEnd nofun

/-- An iteration of DecodeSymbol keeps the invariant if what the command does with a symbol and at the end of the input does (R132). -/
theorem State.At.inv_walkStep {cur : NodeIndex} {n : BitVec 10} (onSymbol : Sym → State → State) (onEoi : BitVec 10 → State → State)
    (h : s.At i (.walk cur n)) (hsymbol : ∀ r, (onSymbol r (Machine.returnSymbol r s)).Inv) (heoi : (onEoi n (Machine.setEoi s)).Inv) :
    (walkStep onSymbol onEoi cur n s).Inv := by
  obtain ⟨-, ht⟩ | ⟨-, -, ht⟩ | ⟨-, -, ht⟩ | ⟨b, q, -, hq, ht⟩ := walkStep_cases onSymbol onEoi cur n s <;> rw [ht]
  · exact hsymbol _
  · exact heoi
  · exact h.inv_holdIn rfl
  · obtain ⟨hbits, hfifo⟩ := readBit_bounds _ _ _ _ hq
    have hin := h.midStep.inBits
    exact (h.midStep.setInput ⟨by omega, hfifo⟩).inv_goTo h.runs _ h.posOk fun _ => h.noEnd nofun

/-- The lookup keeps the invariant if what follows an empty codeword does (R142). -/
theorem State.At.inv_lookupStep {x : Sym} (after : State → State) (h : s.At i (.lookup x)) (hi : i = .encodeSymbol x ∨ i = .compress)
    (hafter : (after s).Inv) : (lookupStep after x s).Inv := by
  obtain ⟨code, hcode, ht⟩ | ⟨hx, hvalid, hlen, ⟨-, ht⟩ | ⟨hpos, ht⟩⟩ := lookupStep_cases after x s <;> rw [ht]
  · refine h.midStep.inv_raiseFault code 0#4 _ ?_ ?_ ?_ <;> obtain rfl | rfl := hcode <;> decide
  · exact hafter
  · exact h.midStep.inv_goTo h.runs _ ⟨hi, ⟨hx, hvalid, hlen⟩, rfl, hpos⟩ fun _ => h.noEnd nofun

/-- A WriteBit micro-step keeps the invariant if what follows the bit does (R82). -/
theorem State.At.inv_writeStep (b : Bool) (k : State → State) (h : s.At i pos) (hp : writesOutput pos = true)
    (hk : ∀ q, (Machine.setOutput q s).MidStep → q.bits = (s.output.bits + 1) % 8 → (k (Machine.setOutput q s)).Inv) :
    (writeStep b k s).Inv := by
  obtain ⟨-, ht⟩ | ⟨q, hq, ht⟩ := writeStep_cases b k s <;> rw [ht]
  · exact h.inv_holdOut hp
  · obtain ⟨hbounds, hbits⟩ := writeBit_bounds _ _ _ _ h.midStep.outBounds hq
    exact hk q (h.midStep.setOutput hbounds) hbits

/-- The bits of a codeword keep the invariant if what follows the last of them does (R142). -/
theorem State.At.inv_codeStep {x : Sym} {len j : Nat} (after : State → State) (h : s.At i (.code x len j))
    (hafter : ∀ q, (Machine.setOutput q s).MidStep → (after (Machine.setOutput q s)).Inv) : (codeStep after x len j s).Inv := by
  obtain ⟨hi, hslot, hlen, -⟩ := h.posOk
  refine h.inv_writeStep _ _ rfl fun q hmid _ => ?_
  split
  · next hj => exact hmid.inv_goTo h.runs _ ⟨hi, hslot, hlen, hj⟩ fun _ => h.noEnd nofun
  · exact hafter q hmid

/-- The Flush micro-step (R83). -/
theorem State.At.inv_flushStep (h : s.At i .flush) : (flushStep s).Inv := by
  obtain ⟨-, ht⟩ | ⟨q, hq, ht⟩ := flushStep_cases s <;> rw [ht]
  · exact h.inv_holdOut rfl
  · exact (h.midStep.setOutput (flushOut_bounds _ _ _ h.midStep.outBounds hq)).inv_finish

/-! ### The commands -/

theorem execValidateTree_keeps_inv {t : State} (h : s.At .validateTree pos) (he : exec .validateTree s = .next t) : t.Inv := by
  obtain ⟨c', hc', hcases⟩ := execValidateTree_cases s t he
  obtain rfl := h.pos_eq hc'
  obtain ⟨hp, rfl⟩ | ⟨st, vis, e, hp, rfl⟩ := hcases <;> rw [hp] at h
  · exact h.midStep.inv_goTo h.runs _ ⟨.inl rfl, checkOk_start _⟩ fun _ => h.noEnd nofun
  · exact h.inv_checkStep _ (h.midStep.setTreeOk true).inv_finish

theorem execDecodeSymbol_keeps_inv {t : State} (h : s.At .decodeSymbol pos) (he : exec .decodeSymbol s = .next t) : t.Inv := by
  obtain ⟨c', hc', hcases⟩ := execDecodeSymbol_cases s t he
  obtain rfl := h.pos_eq hc'
  obtain ⟨hp, rfl⟩ | ⟨st, vis, e, hp, rfl⟩ | ⟨cur, n, hp, rfl⟩ := hcases <;> rw [hp] at h
  · exact h.midStep.clearResult.inv_startDecode h.runs (h.noEnd nofun) (.inl rfl)
  · exact h.inv_checkStep _ (h.inv_walkAfterCheck (.inl rfl))
  · refine h.inv_walkStep _ _ (fun r => (h.midStep.returnSymbol (h.noEnd nofun) r).inv_finish) ?_
    exact (h.midStep.setEoi (h.noEnd nofun)).inv_raiseFault 5#4 0#4 n (by decide) (by decide) (by decide)

theorem execEncodeSymbol_keeps_inv {sym : Sym} {t : State} (h : s.At (.encodeSymbol sym) pos)
    (he : exec (.encodeSymbol sym) s = .next t) : t.Inv := by
  obtain ⟨c', hc', hcases⟩ := execEncodeSymbol_cases sym s t he
  obtain rfl := h.pos_eq hc'
  obtain ⟨hp, rfl⟩ | ⟨x, hp, rfl⟩ | ⟨x, len, j, hp, rfl⟩ := hcases <;> rw [hp] at h
  · exact h.midStep.inv_goTo h.runs _ (.inl rfl) fun _ => h.noEnd nofun
  · exact h.inv_lookupStep _ (h.posOk.imp_right And.left) h.midStep.inv_finish
  · exact h.inv_codeStep _ fun q hmid => hmid.inv_finish

theorem execFlush_keeps_inv {t : State} (h : s.At .flush pos) (he : exec .flush s = .next t) : t.Inv := by
  obtain ⟨c', hc', hcases⟩ := execFlush_cases s t he
  obtain rfl := h.pos_eq hc'
  obtain ⟨hp, rfl⟩ | ⟨hp, rfl⟩ := hcases <;> rw [hp] at h
  · exact h.midStep.inv_goTo h.runs _ (.inl rfl) fun hne => absurd rfl hne
  · exact h.inv_flushStep

/-- DECOMPRESS leaves its loop with EOS set, or writes the 8 bits of the symbol with EOS still 0 (R131, R150). -/
theorem State.At.inv_decompressSymbol {cur : NodeIndex} {n : BitVec 10} (h : s.At .decompress (.walk cur n)) (r : Sym) :
    (decompressSymbol r (Machine.returnSymbol r s)).Inv := by
  have hno := h.noEnd nofun
  have hmid := h.midStep.returnSymbol hno r
  obtain ⟨-, htree⟩ := h.posOk
  unfold decompressSymbol
  split
  · exact hmid.inv_goTo h.runs _ (.inr (.inl rfl)) fun hne => absurd rfl hne
  · next hr =>
    refine hmid.inv_goTo h.runs _ ⟨rfl, by simpa using htree, hr, le_rfl⟩ fun _ => ⟨?_, ?_⟩
    · simp [hr, hno.1]
    · simp [hno.2]

/-- After a bit of a decoded symbol: the next bit, or the next walk (R150). -/
theorem State.At.inv_afterEmit {r : Sym} {k : Nat} {q : OutPath} (h : s.At .decompress (.emit r k))
    (hmid : (Machine.setOutput q s).MidStep) : (afterEmit r k (Machine.setOutput q s)).Inv := by
  obtain ⟨hi, htree, hr, hk⟩ := h.posOk
  unfold afterEmit
  split
  · exact hmid.countSymbol.inv_goTo h.runs _ ⟨.inr hi, htree⟩ fun _ => h.noEnd nofun
  · exact hmid.inv_goTo h.runs _ ⟨hi, htree, hr, by omega⟩ fun _ => h.noEnd nofun

theorem execDecompress_keeps_inv {t : State} (h : s.At .decompress pos) (he : exec .decompress s = .next t) : t.Inv := by
  obtain ⟨c', hc', hcases⟩ := execDecompress_cases s t he
  obtain rfl := h.pos_eq hc'
  obtain ⟨hp, rfl⟩ | ⟨st, vis, e, hp, rfl⟩ | ⟨cur, n, hp, rfl⟩ | ⟨r, k, hp, rfl⟩ | ⟨hp, rfl⟩ := hcases <;> rw [hp] at h
  · exact h.midStep.clearResult.clearSymCount.inv_startDecode h.runs (h.noEnd nofun) (.inr rfl)
  · exact h.inv_checkStep _ (h.inv_walkAfterCheck (.inr rfl))
  · refine h.inv_walkStep _ _ h.inv_decompressSymbol ?_
    exact (h.midStep.setTrunc (h.noEnd nofun)).inv_goTo h.runs _ (.inr (.inl rfl)) fun hne => absurd rfl hne
  · exact h.inv_writeStep _ _ rfl fun q hmid _ => h.inv_afterEmit hmid
  · exact h.inv_flushStep

/-- The padding of COMPRESS fills the partial byte (R153). -/
theorem padCount_of_bounds {depth : Nat} {p : OutPath} (h : OutBounds depth p) : padCount p = (8 - p.bits) % 8 := by
  obtain ⟨-, -, -, hcount⟩ := h
  rw [padCount, hcount]

/-- After a codeword of COMPRESS: the next byte, the padding bits, or Flush with no partial byte (R152, R153). -/
theorem State.MidStep.inv_afterCodeword (h : s.MidStep) (hr : s.Runs .compress) (hn : s.NoEnd) (x : Sym) :
    (afterCodeword x s).Inv := by
  have hpad := padCount_of_bounds h.outBounds
  have hbits := h.outBits
  unfold afterCodeword startPad
  split
  · split
    · exact h.inv_goTo hr _ (.inr (.inr ⟨rfl, by omega⟩)) fun hne => absurd rfl hne
    · exact h.inv_goTo hr _ ⟨rfl, by omega, by omega⟩ fun _ => hn
  · exact h.inv_goTo hr _ rfl fun _ => hn

/-- The ReadBits8 micro-step of COMPRESS gives a byte, or EOS at the end of the input: a symbol of R7 either way (R152). -/
theorem State.At.inv_readStep (h : s.At .compress .read) : (readStep s).Inv := by
  obtain ⟨-, ht⟩ | ⟨-, ht⟩ | ⟨v, q, hq, ht⟩ := readStep_cases s <;> rw [ht]
  · exact h.inv_holdIn rfl
  · exact (h.midStep.setEoi (h.noEnd nofun)).inv_goTo h.runs _ (.inr ⟨rfl, by decide⟩) fun _ => h.noEnd nofun
  · have hbyte : (v.setWidth 9 : Sym).toNat ≤ 256 := by
      rw [BitVec.toNat_setWidth]
      omega
    exact (h.midStep.setInput (readBits8_bounds _ _ _ _ h.midStep.inBits hq)).countSymbol.inv_goTo h.runs _ (.inr ⟨rfl, hbyte⟩)
      fun _ => h.noEnd nofun

/-- After a padding bit: the next one, or Flush once the byte is full (R152, R153). -/
theorem State.At.inv_afterPad {left : Nat} {q : OutPath} (h : s.At .compress (.pad left)) (hmid : (Machine.setOutput q s).MidStep)
    (hbits : q.bits = (s.output.bits + 1) % 8) : (afterPad left (Machine.setOutput q s)).Inv := by
  obtain ⟨-, hleft, hsum⟩ := h.posOk
  unfold afterPad
  split
  · exact hmid.inv_goTo h.runs _ (.inr (.inr ⟨rfl, by rw [setOutput_output]; omega⟩)) fun hne => absurd rfl hne
  · exact hmid.inv_goTo h.runs _ ⟨rfl, by omega, by rw [setOutput_output]; omega⟩ fun _ => h.noEnd nofun

theorem execCompress_keeps_inv {t : State} (h : s.At .compress pos) (he : exec .compress s = .next t) : t.Inv := by
  obtain ⟨c', hc', hcases⟩ := execCompress_cases s t he
  obtain rfl := h.pos_eq hc'
  obtain ⟨hp, rfl⟩ | ⟨hp, rfl⟩ | ⟨x, hp, rfl⟩ | ⟨x, len, j, hp, rfl⟩ | ⟨left, hp, rfl⟩ | ⟨hp, rfl⟩ := hcases <;> rw [hp] at h
  · exact h.midStep.clearSymCount.inv_goTo h.runs _ rfl fun _ => h.noEnd nofun
  · exact h.inv_readStep
  · exact h.inv_lookupStep _ (.inr rfl) (h.midStep.inv_afterCodeword h.runs (h.noEnd nofun) x)
  · exact h.inv_codeStep _ fun q hmid => hmid.inv_afterCodeword h.runs (h.noEnd nofun) x
  · exact h.inv_writeStep _ _ rfl fun q hmid hbits => h.inv_afterPad hmid hbits
  · exact h.inv_flushStep

/-- A micro-step of any command keeps the invariant. -/
theorem exec_keeps_inv {t : State} (h : s.At i pos) (he : exec i s = .next t) : t.Inv := by
  cases i with
  | validateTree => exact execValidateTree_keeps_inv h he
  | decodeSymbol => exact execDecodeSymbol_keeps_inv h he
  | encodeSymbol sym => exact execEncodeSymbol_keeps_inv h he
  | flush => exact execFlush_keeps_inv h he
  | decompress => exact execDecompress_keeps_inv h he
  | compress => exact execCompress_keeps_inv h he

/-- The block's turn keeps the invariant; an illegal opcode faults with code 1 (R105). -/
theorem blockStep_keeps_inv {t : State} (h : s.Inv) (hb : blockStep s = .next t) : t.Inv := by
  obtain ⟨-, rfl⟩ | ⟨c, i, hc, hi, he⟩ | ⟨c, op, hc, -, rfl⟩ := blockStep_cases hb
  · exact h
  · exact exec_keeps_inv ⟨h, c, hc, hi, rfl⟩ he
  · exact (h.midStep hc).inv_raiseFault 1#4 0#4 _ (by decide) (by decide) (by decide)

end

end Sys2Proof.Machine
end

section
/-! SUPPORT. The resets and the host's accesses keep the invariant (spec/20_memory.md R65 to R73, spec/70_reset_and_hazards.md R200, R201),
and so does every step. -/

namespace Sys2Proof.Machine

section
variable {s : State}

/-! ### Resets -/

theorem State.Inv.inv_softReset (h : s.Inv) : (softReset s).Inv :=
  { inv_resetWith s.params h.params with rams := h.rams, command := nofun }

theorem State.Inv.inv_hardReset (h : s.Inv) : (hardReset s).Inv :=
  { inv_resetWith s.params h.params with command := nofun }

/-! ### Host accesses -/

theorem State.Inv.setAccErr (h : s.Inv) : (setAccErr s).Inv := { h with }

theorem State.Inv.observe (h : s.Inv) (v : Word) : (observe v s).Inv := { h with }

theorem State.Inv.withSchedule (h : s.Inv) (l : List Turn) : State.Inv { s with schedule := l } := { h with }

theorem State.Inv.readEffect (h : s.Inv) (r : Reg) : (readEffect r s).Inv := by
  obtain ht | ht := readEffect_cases r s <;> rw [ht]
  · exact h
  · exact { h with outFifo := (List.tail_sublist _).length_le.trans h.outFifo }

/-- A command is accepted while no command runs and no fault is recorded (R65, R67). -/
theorem State.Inv.acceptCommand (h : s.Inv) (hc : s.current = none) (hf : s.status.fault = false) (w : Word) :
    (acceptCommand w s).Inv := by
  obtain ⟨hwi, hwo⟩ := h.idleWait hc
  exact
    { h with
      cmdForm := isCommandForm_commandForm w
      oneEnd := nofun
      trunc := nofun
      idleWait := nofun
      command := fun c hc => by
        obtain rfl := Option.some.inj hc
        refine (commandOk_iff _ _).mpr ⟨(opField_commandForm w).symm, (symField_commandForm w).symm, fun _ _ => ?_, fun _ _ => rfl⟩
        exact trivial
      running := fun _ => ⟨rfl, hf⟩
      endFlags := fun _ _ _ => ⟨rfl, rfl⟩
      waitIn := fun hw => absurd (hwi.symm.trans hw) Bool.false_ne_true
      waitOut := fun hw => absurd (hwo.symm.trans hw) Bool.false_ne_true }

/-- A write to STATUS clears FAULT and FAULT_INFO together (R23, R185). -/
theorem State.Inv.writeStatus (h : s.Inv) (w : Word) : (writeStatus w s).Inv where
  __ := h
  faultRecord := by
    rw [writeStatus_faultInfo]
    split
    · decide
    · exact h.faultRecord
  faultFlag := by
    rw [writeStatus_faultInfo, writeStatus_status, clearWritten_fault]
    cases w.getLsbD 2 <;> simp [h.faultFlag]
  oneEnd := by
    simp only [writeStatus_status, clearWritten_done, clearWritten_fault, Bool.and_eq_true]
    exact fun hw => h.oneEnd ⟨hw.1.1, hw.2.1⟩
  running := fun hc => by
    obtain ⟨hdone, hfault⟩ := h.running hc
    simp [hdone, hfault]

/-- A byte is stored only while the FIFO has room (R68). -/
theorem State.Inv.offerByte (h : s.Inv) (b : Byte) : (offerByte b s).Inv := by
  unfold Machine.offerByte
  split
  · next hroom => exact { h with inFifo := by simpa using hroom }
  · exact { h with }

theorem State.Inv.clearIn (h : s.Inv) : (clearIn s).Inv := { h with inFifo := Nat.zero_le _, inBits := Nat.zero_le _ }

theorem State.Inv.endInput (h : s.Inv) : (endInput s).Inv := { h with }

/-- Clearing the output while no command runs: a padding position counts on OUT_BITS (R69). -/
theorem State.Inv.clearOut (h : s.Inv) (hc : s.current = none) : (clearOut s).Inv :=
  { h with
    outFifo := Nat.zero_le _
    outBits := Nat.zero_le _
    outAcc := Nat.one_pos
    outCount := rfl
    command := fun _ hs => absurd (hc.symm.trans hs) nofun }

/-- What is done or left undone, as one bit of CTRL says. -/
theorem State.Inv.ite {u : State} (hu : u.Inv) (h : s.Inv) (b : Bool) : State.Inv (if b then u else s) := by
  cases b with
  | true => exact hu
  | false => exact h

/-- A write to CTRL that is not dropped: a soft reset, or OUT_CLEAR only while no command runs (R65, R69). -/
theorem State.Inv.writeCtrl (h : s.Inv) (w : Word) (hd : writeDropped .ctrl w s = false) : (writeCtrl w s).Inv := by
  unfold Machine.writeCtrl
  cases h31 : w.getLsbD 31 with
  | true => exact h.inv_softReset
  | false =>
    have hin := h.clearIn.ite h (w.getLsbD 1)
    have hend := hin.endInput.ite hin (w.getLsbD 0)
    cases h2 : w.getLsbD 2 with
    | true =>
      have hc : s.current = none := by
        simp only [writeDropped, h31, h2, Bool.not_false, Bool.or_true, Bool.and_true] at hd
        exact current_eq_none hd
      exact hend.clearOut (by simp [apply_ite State.current, hc])
    | false => exact hend

/-- RAM words are written while no command runs (R65). -/
theorem State.Inv.withRams (h : s.Inv) (hc : s.current = none) (r : Rams) (hr : ramsOk s.params r = true) :
    State.Inv { s with rams := r } :=
  { h with rams := hr, command := fun _ hs => absurd (hc.symm.trans hs) nofun }

theorem State.Inv.clearTreeOk (h : s.Inv) (hc : s.current = none) : (Machine.setTreeOk false s).Inv :=
  { h with command := fun _ hs => absurd (hc.symm.trans hs) nofun }

/-- A write that is not dropped keeps the invariant (R66 to R71). -/
theorem State.Inv.writeReg (h : s.Inv) (r : Reg) (w : Word) (hr : regExists s.params r = true) (hd : writeDropped r w s = false) :
    (writeReg r w s).Inv := by
  obtain ht | ⟨rfl, ht⟩ | ⟨rfl, ht⟩ | ⟨rfl, ht⟩ | ⟨rfl, ht⟩ | ⟨j, rfl, ht⟩ | ⟨x, rfl, ht⟩ | ⟨x, k, rfl, ht⟩ := writeReg_cases r w s <;>
    rw [ht]
  · exact h
  · obtain ⟨hb, hf⟩ := Bool.or_eq_false_iff.mp hd
    exact h.acceptCommand (current_eq_none hb) hf w
  · exact h.writeStatus w
  · exact h.offerByte _
  · exact h.writeCtrl w hd
  · have hc := current_eq_none hd
    have hj : j < s.params.nNodes := by simpa [regExists] using hr
    exact (h.withRams hc _ (ramsOk_writeNode _ _ _ w h.rams hj)).clearTreeOk hc
  · have hc := current_eq_none hd
    have hx : x ≤ 256 := by simpa [regExists] using hr
    exact h.withRams hc _ (ramsOk_writeCfg _ _ _ w h.rams hx)
  · have hc := current_eq_none hd
    have hx : x ≤ 256 ∧ k ≤ 7 := by simpa [regExists] using hr
    exact h.withRams hc _ (ramsOk_writeBits _ _ _ _ w h.rams hx.1 hx.2)

theorem State.Inv.hostAccess (h : s.Inv) (a : Access) : (hostAccess a s).Inv := by
  obtain ht | ht | ⟨r, -, ht⟩ | ⟨r, w, hr, hd, ht⟩ := hostAccess_cases a s <;> rw [ht]
  · exact h.setAccErr
  · exact h.setAccErr.observe _
  · exact (h.readEffect r).observe _
  · exact h.writeReg r w hr hd

end

/-- Settles O48: each kind of turn keeps the invariant. -/
theorem stepKeepsInvariant : Obligations.StepKeepsInvariant := by
  intro s t hs hstep
  obtain ⟨rest, hb | ⟨a, rfl⟩ | rfl⟩ := step_cases hstep
  · exact blockStep_keeps_inv (hs.withSchedule rest) hb
  · exact (hs.withSchedule rest).hostAccess a
  · exact (hs.withSchedule rest).inv_hardReset

end Sys2Proof.Machine
end

section
/-! SUPPORT. How a micro-step ends, said once for all six commands (spec/00_scope.md R9, spec/60_exceptions.md R182, R183), and the frame
that follows: what no micro-step changes (spec/20_memory.md R89). -/

namespace Sys2Proof.Machine

/-! ### What a micro-step does before it ends -/

/-- `t` has what no micro-step changes from `s`: the parameters, CMD, the RAMs, the host's flags, the schedule and the observation. -/
structure Fixed (s t : State) : Prop where
  params : t.params = s.params
  cmd : t.cmd = s.cmd
  rams : t.rams = s.rams
  inOvf : t.status.inOvf = s.status.inOvf
  accErr : t.status.accErr = s.status.accErr
  inEnd : t.status.inEnd = s.status.inEnd
  schedule : t.schedule = s.schedule
  observed : t.observed = s.observed

/-- `t` differs from `s` only in RESULT, SYM_COUNT, the two streams, EOS, EOI, TRUNC and the WAIT bits. -/
structure Prepares (s t : State) : Prop extends Fixed s t where
  current : t.current = s.current
  faultInfo : t.faultInfo = s.faultInfo
  done : t.status.done = s.status.done
  fault : t.status.fault = s.status.fault
  treeOk : t.status.treeOk = s.status.treeOk

theorem Fixed.refl (s : State) : Fixed s s := by constructor <;> rfl

theorem Prepares.refl (s : State) : Prepares s s :=
  { Fixed.refl s with current := rfl, faultInfo := rfl, done := rfl, fault := rfl, treeOk := rfl }

theorem Prepares.trans {s t u : State} (h : Prepares s t) (h' : Prepares t u) : Prepares s u where
  params := h'.params.trans h.params
  cmd := h'.cmd.trans h.cmd
  rams := h'.rams.trans h.rams
  inOvf := h'.inOvf.trans h.inOvf
  accErr := h'.accErr.trans h.accErr
  inEnd := h'.inEnd.trans h.inEnd
  schedule := h'.schedule.trans h.schedule
  observed := h'.observed.trans h.observed
  current := h'.current.trans h.current
  faultInfo := h'.faultInfo.trans h.faultInfo
  done := h'.done.trans h.done
  fault := h'.fault.trans h.fault
  treeOk := h'.treeOk.trans h.treeOk

theorem Prepares.setInput (s : State) (q : InPath) : Prepares s (setInput q s) := { Prepares.refl s with }
theorem Prepares.setOutput (s : State) (q : OutPath) : Prepares s (setOutput q s) := { Prepares.refl s with }
theorem Prepares.setEoi (s : State) : Prepares s (setEoi s) := { Prepares.refl s with }
theorem Prepares.setTrunc (s : State) : Prepares s (setTrunc s) := { Prepares.refl s with }
theorem Prepares.clearResult (s : State) : Prepares s (clearResult s) := { Prepares.refl s with }
theorem Prepares.clearSymCount (s : State) : Prepares s (clearSymCount s) := { Prepares.refl s with }
theorem Prepares.countSymbol (s : State) : Prepares s (countSymbol s) := { Prepares.refl s with }

theorem Prepares.returnSymbol (s : State) (r : Sym) : Prepares s (returnSymbol r s) where
  __ := Fixed.refl s
  inOvf := detect_inOvf _ r
  accErr := detect_accErr _ r
  inEnd := detect_inEnd _ r
  current := rfl
  faultInfo := rfl
  done := detect_done _ r
  fault := detect_fault _ r
  treeOk := detect_treeOk _ r

/-- A position of the check (R121). -/
def Pos.isCheck : Pos → Bool
  | .check _ _ _ => true
  | _ => false

/-- How a micro-step of a command ends: held, advanced, done or faulted; and what an iteration of the check does to TREE_OK. -/
inductive MicroEnd (s : State) : State → Prop
  /-- held for input (R9, R80, R81) -/
  | heldIn : MicroEnd s (holdIn s)
  /-- held for output space (R9, R82, R83) -/
  | heldOut : MicroEnd s (holdOut s)
  /-- advanced to a position outside the check -/
  | advanced {u : State} (h : Prepares s u) (p : Pos) (hp : p.isCheck = false) : MicroEnd s (goTo p u)
  /-- the check begins (R120, R130, R150) -/
  | checkBegun {u : State} (h : Prepares s u) : MicroEnd s (goTo checkStart u)
  /-- an iteration of the check goes on (R121) -/
  | checkWent (c : Command) (hc : s.current = some c) (stack visited st vis : List NodeIndex) (e e' : Bool)
      (hp : c.pos = .check stack visited e)
      (hi : checkIteration s.params s.rams stack visited e = .more st vis e') : MicroEnd s (goTo (.check st vis e') s)
  /-- the check failed (R122) -/
  | checkFailed (sub : BitVec 4) (data : NodeIndex) : MicroEnd s (raiseFault 2#4 sub data (setTreeOk false s))
  /-- the check passed: whatever follows starts with TREE_OK = 1 (R122) -/
  | checkPassed (c : Command) (hc : s.current = some c) (stack visited : List NodeIndex) (e : Bool)
      (hp : c.pos = .check stack visited e) (hi : checkIteration s.params s.rams stack visited e = .passed)
      (t : State) (ht : t = finish (setTreeOk true s) ∨ t = goTo walkStart (setTreeOk true s)) : MicroEnd s t
  /-- the successful end (R182) -/
  | ended {u : State} (h : Prepares s u) : MicroEnd s (finish u)
  /-- the fault entry (R183) -/
  | faulted {u : State} (h : Prepares s u) (code sub : BitVec 4) (data : BitVec 10) : MicroEnd s (raiseFault code sub data u)

section
variable {s t u : State}

/-! ### The shared micro-steps -/

theorem checkStep_end (after : State → State) (c : Command) (hc : s.current = some c) (stack visited : List NodeIndex) (e : Bool)
    (hp : c.pos = .check stack visited e) (hafter : after = finish ∨ after = goTo walkStart) :
    MicroEnd s (checkStep after stack visited e s) := by
  obtain ⟨sub, data, -, ht⟩ | ⟨st, vis, e', hi, ht⟩ | ⟨hi, ht⟩ := checkStep_cases after stack visited e s <;> rw [ht]
  · exact .checkFailed sub data
  · exact .checkWent c hc stack visited st vis e e' hp hi
  · refine .checkPassed c hc stack visited e hp hi _ ?_
    obtain rfl | rfl := hafter
    · exact .inl rfl
    · exact .inr rfl

theorem startDecode_end (h : Prepares s u) : MicroEnd s (startDecode u) := by
  unfold startDecode
  split
  · exact .advanced h _ rfl
  · exact .checkBegun h

theorem walkStep_end (onSymbol : Sym → State → State) (onEoi : BitVec 10 → State → State) (cur : NodeIndex) (n : BitVec 10)
    (hsymbol : ∀ r, MicroEnd s (onSymbol r (returnSymbol r s))) (heoi : MicroEnd s (onEoi n (setEoi s))) :
    MicroEnd s (walkStep onSymbol onEoi cur n s) := by
  obtain ⟨-, ht⟩ | ⟨-, -, ht⟩ | ⟨-, -, ht⟩ | ⟨b, q, -, -, ht⟩ := walkStep_cases onSymbol onEoi cur n s <;> rw [ht]
  · exact hsymbol _
  · exact heoi
  · exact .heldIn
  · exact .advanced (.setInput s q) _ rfl

theorem lookupStep_end (after : State → State) (x : Sym) (hafter : MicroEnd s (after s)) : MicroEnd s (lookupStep after x s) := by
  obtain ⟨code, -, ht⟩ | ⟨-, -, -, ⟨-, ht⟩ | ⟨-, ht⟩⟩ := lookupStep_cases after x s <;> rw [ht]
  · exact .faulted (.refl s) _ _ _
  · exact hafter
  · exact .advanced (.refl s) _ rfl

theorem writeStep_end (b : Bool) (k : State → State) (hk : ∀ u, Prepares s u → MicroEnd s (k u)) : MicroEnd s (writeStep b k s) := by
  obtain ⟨-, ht⟩ | ⟨q, -, ht⟩ := writeStep_cases b k s <;> rw [ht]
  · exact .heldOut
  · exact hk _ (.setOutput s q)

theorem codeStep_end (after : State → State) (x : Sym) (len j : Nat) (hafter : ∀ u, Prepares s u → MicroEnd s (after u)) :
    MicroEnd s (codeStep after x len j s) := by
  refine writeStep_end _ _ fun u hu => ?_
  split
  · exact .advanced hu _ rfl
  · exact hafter u hu

theorem flushStep_end (s : State) : MicroEnd s (flushStep s) := by
  obtain ⟨-, ht⟩ | ⟨q, -, ht⟩ := flushStep_cases s <;> rw [ht]
  · exact .heldOut
  · exact .ended (.setOutput s q)

theorem readStep_end (s : State) : MicroEnd s (readStep s) := by
  obtain ⟨-, ht⟩ | ⟨-, ht⟩ | ⟨v, q, -, ht⟩ := readStep_cases s <;> rw [ht]
  · exact .heldIn
  · exact .advanced (.setEoi s) _ rfl
  · exact .advanced ((Prepares.setInput s q).trans (.countSymbol _)) _ rfl

theorem decompressSymbol_end (r : Sym) (h : Prepares s u) : MicroEnd s (decompressSymbol r u) := by
  unfold decompressSymbol
  split <;> exact .advanced h _ rfl

theorem afterEmit_end (r : Sym) (k : Nat) (h : Prepares s u) : MicroEnd s (afterEmit r k u) := by
  unfold afterEmit
  split
  · exact .advanced (h.trans (.countSymbol u)) _ rfl
  · exact .advanced h _ rfl

theorem afterCodeword_end (x : Sym) (h : Prepares s u) : MicroEnd s (afterCodeword x u) := by
  unfold afterCodeword startPad
  split
  · split <;> exact .advanced h _ rfl
  · exact .advanced h _ rfl

theorem afterPad_end (left : Nat) (h : Prepares s u) : MicroEnd s (afterPad left u) := by
  unfold afterPad
  split <;> exact .advanced h _ rfl

/-! ### The commands -/

/-- Every micro-step of every command ends in one of the ways of `MicroEnd`. -/
theorem exec_end (i : Instr) (h : exec i s = .next t) : MicroEnd s t := by
  cases i with
  | validateTree =>
    obtain ⟨c, hc, ⟨-, rfl⟩ | ⟨st, vis, e, hp, rfl⟩⟩ := execValidateTree_cases s t h
    · exact .checkBegun (.refl s)
    · exact checkStep_end _ c hc st vis e hp (.inl rfl)
  | decodeSymbol =>
    obtain ⟨c, hc, ⟨-, rfl⟩ | ⟨st, vis, e, hp, rfl⟩ | ⟨cur, n, -, rfl⟩⟩ := execDecodeSymbol_cases s t h
    · exact startDecode_end (.clearResult s)
    · exact checkStep_end _ c hc st vis e hp (.inr rfl)
    · exact walkStep_end _ _ cur n (fun r => .ended (.returnSymbol s r)) (.faulted (.setEoi s) _ _ _)
  | encodeSymbol sym =>
    obtain ⟨c, -, ⟨-, rfl⟩ | ⟨x, -, rfl⟩ | ⟨x, len, j, -, rfl⟩⟩ := execEncodeSymbol_cases sym s t h
    · exact .advanced (.refl s) _ rfl
    · exact lookupStep_end _ x (.ended (.refl s))
    · exact codeStep_end _ x len j fun u hu => .ended hu
  | flush =>
    obtain ⟨c, -, ⟨-, rfl⟩ | ⟨-, rfl⟩⟩ := execFlush_cases s t h
    · exact .advanced (.refl s) _ rfl
    · exact flushStep_end s
  | decompress =>
    obtain ⟨c, hc, ⟨-, rfl⟩ | ⟨st, vis, e, hp, rfl⟩ | ⟨cur, n, -, rfl⟩ | ⟨r, k, -, rfl⟩ | ⟨-, rfl⟩⟩ := execDecompress_cases s t h
    · exact startDecode_end ((Prepares.clearResult s).trans (.clearSymCount _))
    · exact checkStep_end _ c hc st vis e hp (.inr rfl)
    · exact walkStep_end _ _ cur n (fun r => decompressSymbol_end r (.returnSymbol s r))
        (.advanced ((Prepares.setEoi s).trans (.setTrunc _)) _ rfl)
    · exact writeStep_end _ _ fun u hu => afterEmit_end r k hu
    · exact flushStep_end s
  | compress =>
    obtain ⟨c, -, ⟨-, rfl⟩ | ⟨-, rfl⟩ | ⟨x, -, rfl⟩ | ⟨x, len, j, -, rfl⟩ | ⟨left, -, rfl⟩ | ⟨-, rfl⟩⟩ := execCompress_cases s t h
    · exact .advanced (.clearSymCount s) _ rfl
    · exact readStep_end s
    · exact lookupStep_end _ x (afterCodeword_end x (.refl s))
    · exact codeStep_end _ x len j fun u hu => afterCodeword_end x hu
    · exact writeStep_end _ _ fun u hu => afterPad_end left hu
    · exact flushStep_end s

/-! ### Frame -/

/-- However a micro-step ends, it leaves what `Fixed` lists. -/
theorem MicroEnd.fixed (h : MicroEnd s t) : Fixed s t := by
  cases h with
  | advanced h | checkBegun h | ended h | faulted h => exact { h.toFixed with }
  | heldIn | heldOut | checkWent | checkFailed => exact { Fixed.refl s with }
  | checkPassed _ _ _ _ _ _ _ _ ht =>
    obtain rfl | rfl := ht <;> exact { Fixed.refl s with }

/-- FAULT and FAULT_INFO change only by the fault entry, which ends the command and leaves DONE (R183). -/
theorem MicroEnd.fault_cases (h : MicroEnd s t) :
    (t.status.fault = s.status.fault ∧ t.faultInfo = s.faultInfo) ∨
      (t.status.fault = true ∧ t.current = none ∧ t.status.done = s.status.done) := by
  cases h with
  | advanced h | checkBegun h | ended h => exact .inl ⟨h.fault, h.faultInfo⟩
  | heldIn | heldOut | checkWent => exact .inl ⟨rfl, rfl⟩
  | checkPassed _ _ _ _ _ _ _ _ ht =>
    obtain rfl | rfl := ht <;> exact .inl ⟨rfl, rfl⟩
  | checkFailed => exact .inr ⟨rfl, rfl, rfl⟩
  | faulted h => exact .inr ⟨rfl, rfl, h.done⟩

end

/-- Settles O41: the frame of the common micro-step end, the RAM words by equality of the RAMs. -/
theorem frameOfEveryCommand : Obligations.FrameOfEveryCommand := by
  intro i s t h
  have hend := exec_end i h
  obtain ⟨hparams, hcmd, hrams, hovf, herr, hin, hsched, hobs⟩ := hend.fixed
  refine ⟨hparams, hcmd, fun j => by rw [hrams], fun x => by rw [hrams], fun x k => by rw [hrams], hrams, hovf, herr, hin, hsched, hobs,
    fun heq => ?_, fun hne => ?_⟩
  · obtain ⟨-, hinfo⟩ | ⟨hfault, -⟩ := hend.fault_cases
    · exact .inl hinfo
    · exact .inr (heq ▸ hfault)
  · obtain ⟨heq, -⟩ | hfault := hend.fault_cases
    · exact absurd heq hne
    · exact hfault

end Sys2Proof.Machine
end

section
/-! SUPPORT. A run of TreeCheck that passes, read back as the trees below the indices on its stack (spec/40_tree_check.md R121, R122). -/

namespace Sys2Proof.Machine

/-- The indices that trees `ts` at indices `stack` occupy, in pre-order. -/
def forestOccupied (r : Rams) (stack : List NodeIndex) (ts : List PrefixTree) : List NodeIndex :=
  (List.zipWith (occupied r) stack ts).flatten

/-- The trees below the indices on the stack of a check that passes: stored there, apart from each other and from the visited indices,
within node RAM, with symbols of R7 and, EOS_SEEN counted, EOS once (R121, R122). -/
structure ForestChecked (p : Params) (r : Rams) (stack visited : List NodeIndex) (eosSeen : Bool) (ts : List PrefixTree) : Prop where
  stored : List.Forall₂ (storedAt r) stack ts
  nodup : (forestOccupied r stack ts).Nodup
  fresh : ∀ i ∈ forestOccupied r stack ts, i ∉ visited
  inRange : ∀ i ∈ forestOccupied r stack ts, i.toNat < p.nNodes
  symbols : ∀ x ∈ ts.flatMap leafSyms, x.toNat ≤ 256
  eosOnce : (ts.flatMap leafSyms).count eosSym + eosSeen.toNat = 1

/-- With one more index `i` ahead of the trees' indices, neither visited nor among them (R121). -/
theorem ForestChecked.cons_occupied {p : Params} {r : Rams} {stack visited : List NodeIndex} {e : Bool} {ts : List PrefixTree}
    {i : NodeIndex} (h : ForestChecked p r stack (i :: visited) e ts) (hi : i.toNat < p.nNodes) (hnew : i ∉ visited) :
    (i :: forestOccupied r stack ts).Nodup ∧ (∀ j ∈ i :: forestOccupied r stack ts, j ∉ visited) ∧
      ∀ j ∈ i :: forestOccupied r stack ts, j.toNat < p.nNodes := by
  refine ⟨List.nodup_cons.mpr ⟨fun hmem => h.fresh i hmem List.mem_cons_self, h.nodup⟩, ?_, ?_⟩
  · exact List.forall_mem_cons.mpr ⟨hnew, fun j hj hvis => h.fresh j hj (List.mem_cons_of_mem _ hvis)⟩
  · exact List.forall_mem_cons.mpr ⟨hi, h.inRange⟩

/-- A Branch joins the two trees above its children (R121). -/
theorem ForestChecked.branch {p : Params} {r : Rams} {rest visited : List NodeIndex} {e : Bool} {ts : List PrefixTree} {i : NodeIndex}
    (h : ForestChecked p r (nodeLeft (readNode r i.toNat) :: nodeRight (readNode r i.toNat) :: rest) (i :: visited) e ts)
    (hi : i.toNat < p.nNodes) (hnew : i ∉ visited) (hb : nodeIsBranch (readNode r i.toNat) = true) :
    ∃ ts', ForestChecked p r (i :: rest) visited e ts' := by
  obtain ⟨hnodup, hfresh, hrange⟩ := h.cons_occupied hi hnew
  obtain ⟨hstored, -, -, -, hsymbols, heos⟩ := h
  obtain ⟨a, _, ha, htail, rfl⟩ := List.forall₂_cons_left_iff.mp hstored
  obtain ⟨b, ts, hb', hrest, rfl⟩ := List.forall₂_cons_left_iff.mp htail
  have hocc : forestOccupied r (i :: rest) (.branch a b :: ts) = i :: forestOccupied r
      (nodeLeft (readNode r i.toNat) :: nodeRight (readNode r i.toNat) :: rest) (a :: b :: ts) := by
    simp [forestOccupied, occupied]
  exact ⟨.branch a b :: ts,
    { stored := .cons ⟨hb, ha, hb'⟩ hrest
      nodup := hocc ▸ hnodup
      fresh := hocc ▸ hfresh
      inRange := hocc ▸ hrange
      symbols := by simpa [leafSyms] using hsymbols
      eosOnce := by simpa [leafSyms] using heos }⟩

/-- A Leaf is a tree of its own; EOS is seen by it or not (R121). -/
theorem ForestChecked.leaf {p : Params} {r : Rams} {rest visited : List NodeIndex} {e e' : Bool} {ts : List PrefixTree} {i : NodeIndex}
    (h : ForestChecked p r rest (i :: visited) e' ts) (hi : i.toNat < p.nNodes) (hnew : i ∉ visited)
    (hb : nodeIsBranch (readNode r i.toNat) = false) (hsym : (nodeSym (readNode r i.toNat)).toNat ≤ 256)
    (heos : (nodeSym (readNode r i.toNat) = eosSym ∧ e = false ∧ e' = true) ∨ (nodeSym (readNode r i.toNat) ≠ eosSym ∧ e' = e)) :
    ForestChecked p r (i :: rest) visited e (.leaf (nodeSym (readNode r i.toNat)) :: ts) := by
  obtain ⟨hnodup, hfresh, hrange⟩ := h.cons_occupied hi hnew
  exact
    { stored := .cons ⟨hb, rfl⟩ h.stored
      nodup := hnodup
      fresh := hfresh
      inRange := hrange
      symbols := List.forall_mem_cons.mpr ⟨hsym, h.symbols⟩
      eosOnce := by
        have hrest := h.eosOnce
        rw [List.flatMap_cons, leafSyms, List.singleton_append]
        obtain ⟨hx, rfl, rfl⟩ | ⟨hx, rfl⟩ := heos
        · rw [hx, List.count_cons_self]
          exact hrest
        · rw [List.count_cons_of_ne hx]
          exact hrest }

/-- From any values of a check, a run that passes has the trees below its stack in node RAM (R121, R122). -/
theorem forest_of_checkRun_passed (p : Params) (r : Rams) (n : Nat) (stack visited : List NodeIndex) (e : Bool)
    (h : checkRun p r n stack visited e = some .passed) : ∃ ts, ForestChecked p r stack visited e ts := by
  induction n generalizing stack visited e with
  | zero => exact absurd h nofun
  | succ n ih =>
    cases hit : checkIteration p r stack visited e with
    | bad sub data => simp [checkRun, hit] at h
    | passed =>
      obtain ⟨rfl, rfl⟩ := checkIteration_passed p r stack visited e hit
      exact ⟨[], .nil, List.nodup_nil, nofun, nofun, nofun, rfl⟩
    | more st vis e' =>
      simp only [checkRun, hit] at h
      obtain ⟨ts, hts⟩ := ih st vis e' h
      obtain ⟨i, rest, rfl, hi, hnew, rfl, ⟨hb, rfl, rfl⟩ | ⟨hb, hsym, rfl, heos⟩⟩ :=
        checkIteration_more p r stack visited st vis e e' hit
      · exact hts.branch hi hnew hb
      · exact ⟨_, hts.leaf hi hnew hb hsym heos⟩

/-- A check that passes from the start is right: node RAM holds a well-formed tree (R122). -/
theorem holdsTree_of_checkRun_passed (p : Params) (r : Rams) (n : Nat) (h : checkRun p r n [0#10] [] false = some .passed) :
    ∃ t, holdsTree p r t := by
  obtain ⟨ts, hstored, hnodup, -, hrange, hsymbols, heos⟩ := forest_of_checkRun_passed p r n _ _ _ h
  obtain ⟨t, ts, ht, hrest, rfl⟩ := List.forall₂_cons_left_iff.mp hstored
  obtain rfl := List.forall₂_nil_left_iff.mp hrest
  refine ⟨t, ht, by simpa [forestOccupied] using hnodup, by simpa [forestOccupied] using hrange, ?_⟩
  simp only [List.flatMap_cons, List.flatMap_nil, List.append_nil] at hsymbols heos
  simp only [treeWellFormed, Bool.and_eq_true, List.all_eq_true, decide_eq_true_eq]
  exact ⟨hsymbols, heos⟩

end Sys2Proof.Machine
end

section
/-! SUPPORT. TREE_OK = 1 means that node RAM holds a well-formed tree, along every run (spec/10_state.md R26, spec/40_tree_check.md R122):
what a micro-step or a host access does to TREE_OK, to node RAM and to a check under way keeps that promise. -/

namespace Sys2Proof.Machine

/-! ### The tree of node RAM depends on the node words only -/

/-- Two RAMs with the same node words. -/
def SameNodes (r r' : Rams) : Prop := ∀ i, readNode r' i = readNode r i

section
variable {p : Params} {r r' : Rams}

theorem SameNodes.storedAt (h : SameNodes r r') (i : NodeIndex) (t : PrefixTree) : storedAt r' i t ↔ storedAt r i t := by
  induction t generalizing i with
  | leaf x => simp only [Machine.storedAt, h i.toNat]
  | branch a b iha ihb => simp only [Machine.storedAt, h i.toNat, iha, ihb]

theorem SameNodes.occupied (h : SameNodes r r') (i : NodeIndex) (t : PrefixTree) : occupied r' i t = occupied r i t := by
  induction t generalizing i with
  | leaf x => rfl
  | branch a b iha ihb => simp only [Machine.occupied, h i.toNat, iha, ihb]

theorem SameNodes.holdsTree (h : SameNodes r r') (t : PrefixTree) : holdsTree p r' t ↔ holdsTree p r t := by
  simp only [Machine.holdsTree, h.storedAt, h.occupied]

end

/-! ### What keeps the promise -/

section
variable {s t u : State}

/-- No check is under way. -/
def State.NoCheck (s : State) : Prop := ∀ c, s.current = some c → c.pos.isCheck = false

theorem State.NoCheck.of_idle (h : s.current = none) : s.NoCheck := fun _ hc => absurd (h.symm.trans hc) nofun

/-- A position reached is the position of the command that runs then. -/
theorem pos_of_goTo_current {p : Pos} {c : Command} (hc : (goTo p s).current = some c) : c.pos = p := by
  rw [goTo_current, Option.map_eq_some_iff] at hc
  obtain ⟨c', -, rfl⟩ := hc
  rfl

theorem State.NoCheck.goTo (p : Pos) (hp : p.isCheck = false) (s : State) : (goTo p s).NoCheck :=
  fun _ hc => pos_of_goTo_current hc ▸ hp

/-- With no check under way the promise is about TREE_OK alone (R26). -/
theorem treeInv_of_noCheck (hn : s.NoCheck) (h : s.status.treeOk = true → ∃ tree, holdsTree s.params s.rams tree) : s.TreeInv := by
  refine ⟨h, fun c st vis e hc hp => ?_⟩
  have hcheck := hn c hc
  rw [hp] at hcheck
  exact absurd hcheck nofun

/-- Leaving the parameters, the node words, TREE_OK and the current command keeps the promise whole. -/
theorem State.TreeInv.congr (h : s.TreeInv) (hp : t.params = s.params) (hr : t.rams = s.rams)
    (hok : t.status.treeOk = s.status.treeOk) (hc : t.current = s.current) : t.TreeInv := by
  unfold State.TreeInv at *
  rw [hp, hr, hok, hc]
  exact h

/-- Leaving the parameters, the node words and TREE_OK keeps the promise where no check is under way. -/
theorem State.TreeInv.of_sameNodes (h : s.TreeInv) (hn : t.NoCheck) (hp : t.params = s.params) (hr : SameNodes s.rams t.rams)
    (hok : t.status.treeOk = s.status.treeOk) : t.TreeInv := by
  refine treeInv_of_noCheck hn fun ht => ?_
  obtain ⟨tree, htree⟩ := h.1 (hok ▸ ht)
  exact ⟨tree, hp ▸ (hr.holdsTree tree).mpr htree⟩

theorem State.TreeInv.of_prepares (h : s.TreeInv) (hu : Prepares s u) : u.TreeInv := h.congr hu.params hu.rams hu.treeOk hu.current

/-- A pass of the iteration at a check position is a pass of the check under way (R121). -/
theorem State.TreeInv.holdsTree_of_passed (h : s.TreeInv) {c : Command} (hc : s.current = some c) {st vis : List NodeIndex} {e : Bool}
    (hp : c.pos = .check st vis e) (hi : checkIteration s.params s.rams st vis e = .passed) :
    ∃ tree, holdsTree s.params s.rams tree :=
  h.2 c st vis e hc hp 1 (by simp only [checkRun, hi])

/-- However a micro-step ends, the promise of TREE_OK is kept. -/
theorem MicroEnd.keeps_treeInv (h : MicroEnd s t) (hs : s.TreeInv) : t.TreeInv := by
  cases h with
  | heldIn | heldOut => exact hs.congr rfl rfl rfl rfl
  | advanced hu p hp => exact (hs.of_prepares hu).of_sameNodes (.goTo p hp _) rfl (fun _ => rfl) rfl
  | checkBegun hu =>
    refine ⟨(hs.of_prepares hu).1, fun c st vis e hc hp n hpass => ?_⟩
    obtain ⟨rfl, rfl, rfl⟩ := Pos.check.inj (hp.symm.trans (pos_of_goTo_current hc))
    exact holdsTree_of_checkRun_passed _ _ n hpass
  | checkWent c hc st vis st' vis' e e' hp hi =>
    refine ⟨hs.1, fun c' st₂ vis₂ e₂ hc' hp' n hpass => ?_⟩
    obtain ⟨rfl, rfl, rfl⟩ := Pos.check.inj (hp'.symm.trans (pos_of_goTo_current hc'))
    exact hs.2 c st vis e hc hp (n + 1) (by simp only [checkRun, hi]; exact hpass)
  | checkFailed => exact treeInv_of_noCheck (.of_idle rfl) nofun
  | checkPassed c hc st vis e hp hi _ ht =>
    have htree := hs.holdsTree_of_passed hc hp hi
    obtain rfl | rfl := ht
    · exact treeInv_of_noCheck (.of_idle rfl) fun _ => htree
    · exact treeInv_of_noCheck (.goTo _ rfl _) fun _ => htree
  | ended hu => exact (hs.of_prepares hu).of_sameNodes (.of_idle rfl) rfl (fun _ => rfl) rfl
  | faulted hu => exact (hs.of_prepares hu).of_sameNodes (.of_idle rfl) rfl (fun _ => rfl) rfl

/-- The block's turn keeps the promise. -/
theorem blockStep_keeps_treeInv (hs : s.TreeInv) (hb : blockStep s = .next t) : t.TreeInv := by
  obtain ⟨-, rfl⟩ | ⟨c, i, -, -, he⟩ | ⟨c, op, -, -, rfl⟩ := blockStep_cases hb
  · exact hs
  · exact (exec_end i he).keeps_treeInv hs
  · exact (MicroEnd.faulted (.refl s) _ _ _).keeps_treeInv hs

/-! ### Host accesses -/

/-- Neither a read nor a byte offered touches what the promise is about. -/
theorem State.TreeInv.readEffect (hs : s.TreeInv) (r : Reg) : (readEffect r s).TreeInv := by
  obtain ht | ht := readEffect_cases r s <;> rw [ht]
  · exact hs
  · exact hs.congr rfl rfl rfl rfl

theorem State.TreeInv.offerByte (hs : s.TreeInv) (b : Byte) : (offerByte b s).TreeInv := by
  unfold Machine.offerByte
  split <;> exact hs.congr rfl rfl rfl rfl

/-- CTRL resets, which clears TREE_OK, or works on the streams (R69, R201). -/
theorem State.TreeInv.writeCtrl (hs : s.TreeInv) (w : Word) : (writeCtrl w s).TreeInv := by
  unfold Machine.writeCtrl
  split
  · exact treeInv_of_noCheck (.of_idle rfl) nofun
  · exact hs.congr (by simp [apply_ite State.params]) (by simp [apply_ite State.rams])
      (by simp [apply_ite State.status, apply_ite Status.treeOk]) (by simp [apply_ite State.current])

/-- A NODE write clears TREE_OK; every other write leaves the node words (R70, R71). -/
theorem State.TreeInv.writeReg (hs : s.TreeInv) (r : Reg) (w : Word) (hd : writeDropped r w s = false) : (writeReg r w s).TreeInv := by
  obtain ht | ⟨rfl, ht⟩ | ⟨rfl, ht⟩ | ⟨rfl, ht⟩ | ⟨rfl, ht⟩ | ⟨j, rfl, ht⟩ | ⟨x, rfl, ht⟩ | ⟨x, k, rfl, ht⟩ := writeReg_cases r w s <;>
    rw [ht]
  · exact hs
  · exact hs.of_sameNodes (fun c hc => Option.some.inj hc ▸ rfl) rfl (fun _ => rfl) rfl
  · exact hs.congr rfl rfl rfl rfl
  · exact hs.offerByte _
  · exact hs.writeCtrl w
  · exact treeInv_of_noCheck (.of_idle (current_eq_none hd)) nofun
  · exact hs.of_sameNodes (.of_idle (current_eq_none hd)) rfl (fun _ => rfl) rfl
  · exact hs.of_sameNodes (.of_idle (current_eq_none hd)) rfl (fun _ => rfl) rfl

theorem State.TreeInv.hostAccess (hs : s.TreeInv) (a : Access) : (hostAccess a s).TreeInv := by
  obtain ht | ht | ⟨r, -, ht⟩ | ⟨r, w, -, hd, ht⟩ := hostAccess_cases a s <;> rw [ht]
  · exact hs.congr rfl rfl rfl rfl
  · exact hs.congr rfl rfl rfl rfl
  · exact (hs.readEffect r).congr rfl rfl rfl rfl
  · exact hs.writeReg r w hd

end

/-- Settles O50: each kind of turn keeps the promise; a reset clears TREE_OK. -/
theorem treeOkMeansTree : Obligations.TreeOkMeansTree := by
  intro s t _ hs hstep
  obtain ⟨rest, ht⟩ := step_cases hstep
  have hrest : State.TreeInv { s with schedule := rest } := hs.congr rfl rfl rfl rfl
  obtain hb | ⟨a, rfl⟩ | rfl := ht
  · exact blockStep_keeps_treeInv hrest hb
  · exact hrest.hostAccess a
  · exact treeInv_of_noCheck (.of_idle rfl) nofun

end Sys2Proof.Machine
end

section
/-! SUPPORT. The register map and the rules of dropped accesses (spec/20_memory.md R61, R65): what stands at each offset, and that an
access is dropped exactly where a rule says so. -/

namespace Sys2Proof.Machine

/-! ### The map -/

/-- A legal node RAM ends below the code RAM (R5, R61). -/
theorem Params.nNodes_le {p : Params} (h : p.wellFormed = true) : p.nNodes ≤ 1024 := by
  simp only [Params.wellFormed, Bool.and_eq_true, decide_eq_true_eq] at h
  omega

theorem regAt_fixed (p : Params) (off : Nat) (r : Reg) (h : (off, r) ∈ fixedMap) : regAt p off = some r := by
  have key : ∀ e ∈ fixedMap, e.1 < 0x1000 ∧ fixedReg e.1 = some e.2 := by decide
  obtain ⟨hlt, hreg⟩ := key _ h
  simp only [regAt, hlt, hreg, if_true]

theorem regAt_node (p : Params) (i : Nat) (hp : p.nNodes ≤ 1024) (hi : i < p.nNodes) : regAt p (0x1000 + 4 * i) = some (.node i) := by
  have hdiv : (0x1000 + 4 * i - 0x1000) / 4 = i := by omega
  rw [regAt, if_neg (by omega), if_pos (by omega), hdiv, if_pos hi]

theorem regAt_codeCfg (p : Params) (x : Nat) (hx : x ≤ 256) : regAt p (0x2000 + 64 * x) = some (.codeCfg x) := by
  have hslot : (0x2000 + 64 * x - 0x2000) / 64 = x := by omega
  rw [regAt, if_neg (by omega), if_neg (by omega), hslot, if_neg (by omega), if_pos (by omega)]

theorem regAt_codeBits (p : Params) (x k : Nat) (hx : x ≤ 256) (hk : k ≤ 7) :
    regAt p (0x2000 + 64 * x + 4 + 4 * k) = some (.codeBits x k) := by
  have hslot : (0x2000 + 64 * x + 4 + 4 * k - 0x2000) / 64 = x := by omega
  have hword : (0x2000 + 64 * x + 4 + 4 * k - 0x2000) % 64 / 4 = k + 1 := by omega
  rw [regAt, if_neg (by omega), if_neg (by omega), hslot, hword, if_neg (by omega), if_neg (by omega), if_pos (by omega),
    Nat.add_sub_cancel]

/-- Register `r` is in the window, aligned, and what the map has at its own offset (R60, R61). -/
structure Stands (p : Params) (r : Reg) : Prop where
  inWindow : regOffset r < 0x8000
  aligned : regOffset r % 4 = 0
  mapped : regAt p (regOffset r) = some r

theorem stands_codeCfg (p : Params) (x : Nat) (hx : x ≤ 256) : Stands p (.codeCfg x) where
  inWindow := by simp only [regOffset]; omega
  aligned := by simp only [regOffset]; omega
  mapped := regAt_codeCfg p x hx

theorem stands_codeBits (p : Params) (x k : Nat) (hx : x ≤ 256) (hk : k ≤ 7) : Stands p (.codeBits x k) where
  inWindow := by simp only [regOffset]; omega
  aligned := by simp only [regOffset]; omega
  mapped := regAt_codeBits p x k hx hk

/-- Every register that exists stands at its own offset (R61). -/
theorem stands_of_regExists (p : Params) (hp : p.nNodes ≤ 1024) (r : Reg) (h : regExists p r = true) : Stands p r := by
  cases r with
  | node i =>
    have hi : i < p.nNodes := of_decide_eq_true h
    exact ⟨by simp only [regOffset]; omega, by simp only [regOffset]; omega, regAt_node p i hp hi⟩
  | codeCfg x => exact stands_codeCfg p x (of_decide_eq_true h)
  | codeBits x k =>
    obtain ⟨hx, hk⟩ := Bool.and_eq_true_iff.mp h
    exact stands_codeBits p x k (of_decide_eq_true hx) (of_decide_eq_true hk)
  | _ => exact ⟨by decide, by decide, rfl⟩

/-- A register that exists stands at an offset that R61 lists. -/
theorem mappedOffset_regOffset (p : Params) (r : Reg) (h : regExists p r = true) : mappedOffset p (regOffset r) := by
  cases r with
  | node i => exact .inr (.inl ⟨i, of_decide_eq_true h, rfl⟩)
  | codeCfg x => exact .inr (.inr (.inl ⟨x, of_decide_eq_true h, rfl⟩))
  | codeBits x k =>
    obtain ⟨hx, hk⟩ := Bool.and_eq_true_iff.mp h
    exact .inr (.inr (.inr ⟨x, k, of_decide_eq_true hx, of_decide_eq_true hk, rfl⟩))
  | _ => exact .inl ⟨by decide, by decide⟩

theorem mappedOffset_of_regAt {p : Params} {off : Nat} {r : Reg} (h4 : off % 4 = 0) (h : regAt p off = some r) :
    mappedOffset p off := by
  obtain ⟨rfl, hex⟩ := regAt_offset p off r h4 h
  exact mappedOffset_regOffset p r hex

/-- Every offset of the map has its register (R61). -/
theorem exists_regAt_of_mappedOffset {p : Params} {off : Nat} (hp : p.nNodes ≤ 1024) (h : mappedOffset p off) :
    ∃ r, regAt p off = some r := by
  obtain ⟨hle, h4⟩ | ⟨i, hi, rfl⟩ | ⟨x, hx, rfl⟩ | ⟨x, k, hx, hk, rfl⟩ := h
  · have key : ∀ n < 0x31, n % 4 = 0 → ∃ e ∈ fixedMap, e.1 = n := by decide
    obtain ⟨e, he, rfl⟩ := key off (by omega) h4
    exact ⟨e.2, regAt_fixed p _ _ he⟩
  · exact ⟨_, regAt_node p i hp hi⟩
  · exact ⟨_, regAt_codeCfg p x hx⟩
  · exact ⟨_, regAt_codeBits p x k hx hk⟩

/-- Settles O10: each kind of offset by its equation, the last two clauses by `regAt_offset` and its converse. -/
theorem registerMap : Obligations.RegisterMap := by
  intro p hp
  have hn := Params.nNodes_le hp
  refine ⟨fun e he => regAt_fixed p e.1 e.2 he, fun i => regAt_node p i hn, regAt_codeCfg p, regAt_codeBits p, fun off h4 hunmapped => ?_,
    fun r hr => ?_⟩
  · by_contra hsome
    obtain ⟨r, hr⟩ := Option.ne_none_iff_exists'.mp hsome
    exact hunmapped (mappedOffset_of_regAt h4 hr)
  · have hstands := stands_of_regExists p hn r hr
    exact ⟨hstands.inWindow, hstands.aligned, hstands.mapped⟩

/-! ### Dropped accesses -/

/-- Rules (c) to (f) of R65, read off the register and off its offset. -/
theorem writeDropped_iff (r : Reg) (w : Word) (s : State) :
    writeDropped r w s = true ↔
      (regOffset r = 0x000 ∧ (s.busy = true ∨ s.status.fault = true)) ∨ (ramOffset (regOffset r) ∧ s.busy = true) ∨
        (regOffset r = 0x014 ∧ s.busy = true ∧ w.getLsbD 31 = false ∧ (w.getLsbD 1 = true ∨ w.getLsbD 2 = true)) ∨
        (regOffset r = 0x010 ∧ s.status.inEnd = true) := by
  have hram : ∀ n, 0x1000 ≤ n → n ≠ 0x000 ∧ ramOffset n ∧ n ≠ 0x014 ∧ n ≠ 0x010 := fun n hn => ⟨by omega, hn, by omega, by omega⟩
  cases r with
  | node i => simp [writeDropped, hram (regOffset (.node i)) (by simp only [regOffset]; omega)]
  | codeCfg x => simp [writeDropped, hram (regOffset (.codeCfg x)) (by simp only [regOffset]; omega)]
  | codeBits x k => simp [writeDropped, hram (regOffset (.codeBits x k)) (by simp only [regOffset]; omega)]
  | _ => simp [writeDropped, regOffset, ramOffset, and_assoc]

/-- Where an aligned word access meets a register, the rules of R65 are that register's. -/
theorem dropRule_iff_of_regAt {a : Access} {s : State} {r : Reg} (hsize : a.size = 4) (h4 : a.offset.toNat % 4 = 0)
    (hr : regAt s.params a.offset.toNat = some r) : dropRule a s ↔ kindDropped r a.kind s = true := by
  have hmapped := mappedOffset_of_regAt h4 hr
  obtain ⟨hoff, -⟩ := regAt_offset _ _ _ h4 hr
  unfold dropRule kindDropped
  cases hk : a.kind with
  | read => simp [hsize, h4, hmapped]
  | write w => simp [hsize, h4, hmapped, writeDropped_iff, hoff]

theorem accessTarget_of_regAt {a : Access} {s : State} {r : Reg} (hsize : a.size = 4) (h4 : a.offset.toNat % 4 = 0)
    (hr : regAt s.params a.offset.toNat = some r) : accessTarget a s = if kindDropped r a.kind s then none else some r := by
  simp [accessTarget, hsize, h4, hr]

/-- An access that a rule of R65 drops reaches no register. -/
theorem accessTarget_of_dropRule {a : Access} {s : State} (h : dropRule a s) : accessTarget a s = none := by
  by_contra hsome
  obtain ⟨r, hr⟩ := Option.ne_none_iff_exists'.mp hsome
  obtain ⟨hsize, h4, hat, hkept⟩ := accessTarget_some a s r hr
  exact Bool.false_ne_true (hkept.symm.trans ((dropRule_iff_of_regAt hsize h4 hat).mp h))

/-- An access that no rule of R65 drops reaches a register (R61). -/
theorem exists_accessTarget_of_not_dropRule {a : Access} {s : State} (hp : s.params.nNodes ≤ 1024) (h : ¬ dropRule a s) :
    ∃ r, accessTarget a s = some r := by
  have hsize : a.size = 4 := by_contra fun hne => h (.inl hne)
  have h4 : a.offset.toNat % 4 = 0 := by_contra fun hne => h (.inr (.inl hne))
  have hmapped : mappedOffset s.params a.offset.toNat := by_contra fun hne => h (.inr (.inr (.inl hne)))
  obtain ⟨r, hr⟩ := exists_regAt_of_mappedOffset hp hmapped
  have hkept : ¬ kindDropped r a.kind s = true := fun hd => h ((dropRule_iff_of_regAt hsize h4 hr).mpr hd)
  exact ⟨r, by rw [accessTarget_of_regAt hsize h4 hr, if_neg hkept]⟩

/-- Settles O8: a dropped access has no target; then by its kind. -/
theorem droppedAccess : Obligations.DroppedAccess := by
  intro a s h
  have htarget := accessTarget_of_dropRule h
  unfold hostAccess
  cases hk : a.kind with
  | read => simp only [htarget, observe, setAccErr]
  | write w => simp only [htarget, setAccErr]

@[simp] theorem readEffect_observed (r : Reg) (s : State) : (readEffect r s).observed = s.observed := by
  obtain h | h := readEffect_cases r s <;> rw [h]
  rfl

/-- Settles O9: the target of the access is the register at its offset; then by the kind of the access. -/
theorem performedAccess : Obligations.PerformedAccess := by
  intro a s hp h
  obtain ⟨r, hr⟩ := exists_accessTarget_of_not_dropRule (Params.nNodes_le hp) h
  obtain ⟨-, h4, hat, -⟩ := accessTarget_some a s r hr
  obtain ⟨hoff, hex⟩ := regAt_offset _ _ _ h4 hat
  refine ⟨r, hex, hoff, ?_⟩
  unfold hostAccess
  cases hk : a.kind with
  | read => simp only [hr, observe, readEffect_observed]
  | write w => simp only [hr]

end Sys2Proof.Machine
end

section
/-! SUPPORT. The host's reads (spec/20_memory.md R61, R66, R72): the word that each register gives, and that only OUT_DATA has a side
effect. -/

namespace Sys2Proof.Machine

/-! ### Reads at a register's offset -/

theorem readEffect_of_ne_outData (r : Reg) (s : State) (h : r ≠ .outData) : readEffect r s = s := by
  cases r with
  | outData => exact absurd rfl h
  | _ => rfl

/-- A read of a register other than OUT_DATA returns its value and changes nothing (R72). -/
theorem readsAt_of_regAt (s : State) (off : BitVec 15) (r : Reg) (h4 : off.toNat % 4 = 0) (hr : regAt s.params off.toNat = some r)
    (hne : r ≠ .outData) : s.readsAt off (readReg r s) := by
  rw [State.readsAt, hostAccess_read off r s h4 hr, readEffect_of_ne_outData r s hne, observe]

/-- The 15-bit offset of a register in the window is aligned and reaches it. -/
theorem Stands.reached {p : Params} {r : Reg} (h : Stands p r) :
    (BitVec.ofNat 15 (regOffset r)).toNat % 4 = 0 ∧ regAt p (BitVec.ofNat 15 (regOffset r)).toNat = some r := by
  rw [BitVec.toNat_ofNat, Nat.mod_eq_of_lt h.inWindow]
  exact ⟨h.aligned, h.mapped⟩

theorem Stands.readsAt {s : State} {r : Reg} (h : Stands s.params r) (hne : r ≠ .outData) :
    s.readsAt (BitVec.ofNat 15 (regOffset r)) (readReg r s) :=
  have ⟨h4, hat⟩ := h.reached
  readsAt_of_regAt s _ r h4 hat hne

/-! ### OUT_DATA -/

/-- VALID and the byte, as a sum (R39). -/
theorem outDataWord_cons (p : OutPath) (b : Byte) (rest : List Byte) (h : p.fifo = b :: rest) :
    outDataWord p = BitVec.ofNat 32 (0x100 + b.toNat) := by
  have hb := b.isLt
  have hor : 0x100 ||| b.toNat = 0x100 + b.toNat := (Nat.two_pow_add_eq_or_of_lt (i := 8) hb 1).symm
  simp only [outDataWord, h]
  apply BitVec.eq_of_toNat_eq
  rw [BitVec.toNat_or, BitVec.toNat_setWidth, Nat.mod_eq_of_lt (by omega), BitVec.toNat_ofNat, BitVec.toNat_ofNat,
    Nat.mod_eq_of_lt (by omega), hor, Nat.mod_eq_of_lt (by omega)]

theorem hostAccess_read_outData (s : State) (b : Byte) (rest : List Byte) (h : s.output.fifo = b :: rest) :
    hostAccess { offset := 0x018#15, size := 4, kind := .read } s =
      { s with
        output := { s.output with fifo := rest },
        observed := s.observed ++ [BitVec.ofNat 32 (0x100 + b.toNat)] } := by
  rw [hostAccess_read 0x018#15 .outData s rfl rfl, readReg, outDataWord_cons s.output b rest h]
  simp only [observe, readEffect, setOutput, popOut, h, List.tail_cons]

/-- A read of OUT_DATA finds nothing to remove (R39). -/
theorem readsAt_outData_empty (s : State) (h : s.output.fifo = []) : s.readsAt 0x018#15 0#32 := by
  have hpop : popOut s.output = s.output := by rw [popOut, h, List.tail_nil, ← h]
  have hword : outDataWord s.output = 0#32 := by simp only [outDataWord, h]
  rw [State.readsAt, hostAccess_read 0x018#15 .outData s rfl rfl, readReg, hword, readEffect, hpop]
  rfl

/-! ### The views, as sums of their fields -/

theorem fifoLevelWord_eq (s : State) (hi : s.input.fifo.length ≤ 65535) :
    fifoLevelWord s = BitVec.ofNat 32 (s.output.fifo.length * 0x10000 + s.input.fifo.length) := by
  apply BitVec.eq_of_toNat_eq
  simp only [fifoLevelWord, toNat_append, BitVec.toNat_ofNat]
  omega

theorem bitStateWord_eq (s : State) (hi : s.input.bits ≤ 8) (ho : s.output.bits ≤ 7) :
    bitStateWord s = BitVec.ofNat 32 (s.output.bits * 0x100 + s.input.bits) := by
  apply BitVec.eq_of_toNat_eq
  simp only [bitStateWord, toNat_append, BitVec.toNat_ofNat]
  omega

theorem param0Word_eq (p : Params) (h : p.nNodes ≤ 1024) : param0Word p = BitVec.ofNat 32 p.nNodes := by
  apply BitVec.eq_of_toNat_eq
  simp only [param0Word, toNat_append, BitVec.toNat_ofNat]
  omega

theorem param1Word_eq (p : Params) (hi : p.inDepth ≤ 65535) :
    param1Word p = BitVec.ofNat 32 (p.outDepth * 0x10000 + p.inDepth) := by
  apply BitVec.eq_of_toNat_eq
  simp only [param1Word, toNat_append, BitVec.toNat_ofNat]
  omega

/-- A legal input FIFO's depth fits 16 bits (R5). -/
theorem Params.inDepth_le {p : Params} (h : p.wellFormed = true) : p.inDepth ≤ 65535 := by
  simp only [Params.wellFormed, Bool.and_eq_true, decide_eq_true_eq] at h
  omega

/-- Settles O11: every read but OUT_DATA's by the register that stands at its offset, the views by their fields. -/
theorem readSideEffects : Obligations.ReadSideEffects := by
  refine ⟨fun r s hp hr hne => ?_, hostAccess_read_outData, readsAt_outData_empty, fun s => ?_, fun s hi _ => ?_, fun s hi ho => ?_,
    fun s hp => ?_⟩
  · exact (stands_of_regExists s.params (Params.nNodes_le hp) r hr).readsAt hne
  · have reads := readsAt_of_regAt s
    exact ⟨reads _ .cmd rfl rfl nofun, reads _ .faultInfo rfl rfl nofun, reads _ .result rfl rfl nofun, reads _ .inData rfl rfl nofun,
      reads _ .ctrl rfl rfl nofun, reads _ .outBitcount rfl rfl nofun, reads _ .symCount rfl rfl nofun⟩
  · exact fifoLevelWord_eq s hi ▸ readsAt_of_regAt s _ .fifoLevel rfl rfl nofun
  · exact bitStateWord_eq s hi ho ▸ readsAt_of_regAt s _ .bitState rfl rfl nofun
  · have hn := Params.nNodes_le hp
    have hi := Params.inDepth_le hp
    refine ⟨param0Word_eq _ hn ▸ readsAt_of_regAt s _ .param0 rfl rfl nofun,
      param1Word_eq _ hi ▸ readsAt_of_regAt s _ .param1 rfl rfl nofun, fun i hlt => ?_, fun x hx => ?_, fun x k hx hk => ?_⟩
    · exact (stands_of_regExists s.params hn (.node i) (decide_eq_true hlt)).readsAt nofun
    · exact (stands_codeCfg s.params x hx).readsAt nofun
    · exact (stands_codeBits s.params x k hx hk).readsAt nofun

end Sys2Proof.Machine
end

section
/-! SUPPORT. The host's writes (spec/20_memory.md R66 to R71): what a write to each register leaves, and what it cannot change while a
command runs (R89). -/

namespace Sys2Proof.Machine

theorem busy_eq_false {s : State} (h : s.current = none) : s.busy = false := by
  rw [State.busy, h, Option.isSome_none]

theorem busy_eq_true {s : State} (h : s.current ≠ none) : s.busy = true := Option.isSome_iff_ne_none.mpr h

/-- A write to a register that stands at its offset and does not drop it. -/
theorem Stands.hostAccess_write {s : State} {r : Reg} (h : Stands s.params r) (w : Word) (hd : writeDropped r w s = false) :
    hostAccess { offset := BitVec.ofNat 15 (regOffset r), size := 4, kind := .write w } s = writeReg r w s :=
  have ⟨h4, hat⟩ := h.reached
  Machine.hostAccess_write _ r w s h4 hat hd

/-! ### Registers that one direction does not reach -/

/-- Settles O13: the write of each RO register is the identity, the read of each WO register is 0. -/
theorem readOnlyAndWriteOnly : Obligations.ReadOnlyAndWriteOnly := by
  intro s w
  simp only [List.forall_mem_cons, List.not_mem_nil, false_imp_iff, implies_true, and_true]
  exact ⟨⟨hostAccess_write _ .faultInfo w s rfl rfl rfl, hostAccess_write _ .result w s rfl rfl rfl,
      hostAccess_write _ .outData w s rfl rfl rfl, hostAccess_write _ .fifoLevel w s rfl rfl rfl,
      hostAccess_write _ .bitState w s rfl rfl rfl, hostAccess_write _ .outBitcount w s rfl rfl rfl,
      hostAccess_write _ .symCount w s rfl rfl rfl, hostAccess_write _ .param0 w s rfl rfl rfl,
      hostAccess_write _ .param1 w s rfl rfl rfl⟩,
    readsAt_of_regAt s _ .inData rfl rfl nofun, readsAt_of_regAt s _ .ctrl rfl rfl nofun⟩

/-! ### CMD -/

/-- The fields of a command word, as R100 places them. -/
theorem opField_eq_ofNat (w : Word) : opField w = BitVec.ofNat 4 w.toNat := by
  apply BitVec.eq_of_toNat_eq
  rw [opField, BitVec.extractLsb'_toNat, BitVec.toNat_ofNat, Nat.shiftRight_zero]

theorem symField_eq_ofNat (w : Word) : symField w = BitVec.ofNat 9 (w.toNat / 0x10000) := by
  apply BitVec.eq_of_toNat_eq
  rw [symField, BitVec.extractLsb'_toNat, BitVec.toNat_ofNat, Nat.shiftRight_eq_div_pow]

/-- While BUSY = 1 a write to CMD is dropped by rule (c) of R65. -/
theorem dropRule_cmd_of_busy (s : State) (w : Word) (h : s.busy = true) :
    dropRule { offset := 0x000#15, size := 4, kind := .write w } s :=
  .inr (.inr (.inr ⟨w, rfl, .inl ⟨rfl, .inl h⟩⟩))

/-- Settles O14: idle, by the fields of the word; busy, by O8's rule of dropped accesses. -/
theorem commandAccepted : Obligations.CommandAccepted := by
  intro s w
  refine ⟨fun hc hf => ?_, fun hc => droppedAccess _ s (dropRule_cmd_of_busy s w (busy_eq_true hc))⟩
  have hkept : writeDropped .cmd w s = false := by simp only [writeDropped, busy_eq_false hc, hf, Bool.or_self]
  rw [hostAccess_write 0x000#15 .cmd w s rfl rfl hkept, writeReg, acceptCommand, opField_eq_ofNat, symField_eq_ofNat]
  rfl

/-! ### IN_DATA and CTRL -/

/-- Settles O15: `offerByte` with the low byte of the word. -/
theorem inDataWrite : Obligations.InDataWrite := by
  intro s w hend
  have hbyte : w.setWidth 8 = BitVec.ofNat 8 w.toNat := BitVec.eq_of_toNat_eq (by rw [BitVec.toNat_setWidth, BitVec.toNat_ofNat])
  rw [hostAccess_write 0x010#15 .inData w s rfl rfl hend, writeReg, hbyte]
  rfl

/-- IN_CLEAR, where bit `b` of the word asks for it (R33). -/
theorem clearIn_if (s : State) (b : Bool) :
    (if b then clearIn s else s) =
      { s with input := if b then InPath.empty else s.input, status := { s.status with inEnd := s.status.inEnd && !b } } := by
  cases b <;> simp [clearIn]

/-- IN_END_SET, where bit `b` of the word asks for it (R33). -/
theorem endInput_if (s : State) (b : Bool) :
    (if b then endInput s else s) = { s with status := { s.status with inEnd := b || s.status.inEnd } } := by
  cases b <;> simp [endInput]

/-- OUT_CLEAR, where bit `b` of the word asks for it (R33). -/
theorem clearOut_if (s : State) (b : Bool) :
    (if b then clearOut s else s) = { s with output := if b then OutPath.empty else s.output } := by
  cases b <;> simp [clearOut]

/-- Settles O16: the three effects one after another. -/
theorem controlWrite : Obligations.ControlWrite := by
  intro s w hsoft h
  have hkept : writeDropped .ctrl w s = false := by
    obtain hc | ⟨hin, hout⟩ := h
    · simp only [writeDropped, busy_eq_false hc, Bool.false_and]
    · simp only [writeDropped, hin, hout, Bool.or_self, Bool.and_false]
  rw [hostAccess_write 0x014#15 .ctrl w s rfl rfl hkept, writeReg, writeCtrl, hsoft]
  simp only [Bool.false_eq_true, if_false, clearIn_if, endInput_if, clearOut_if]
  rfl

/-! ### RAM words -/

/-- Settles O17: the node word is read back, every other word is left. -/
theorem nodeWrite : Obligations.NodeWrite := by
  intro s i w hp hi hc
  have hstands := stands_of_regExists s.params (Params.nNodes_le hp) (.node i) (decide_eq_true hi)
  refine ⟨_, hstands.hostAccess_write w (busy_eq_false hc), ?_⟩
  exact ⟨readNode_writeNode_same _ i w, fun j hj => readNode_writeNode_other _ i j w hj, fun _ => rfl, fun _ _ => rfl, rfl⟩

/-- CODE_BITS words of distinct slots or places have distinct numbers (log 5). -/
theorem codeBits_number_ne {x y k j : Nat} (hk : k ≤ 7) (hj : j ≤ 7) (h : y ≠ x ∨ j ≠ k) : 8 * y + j ≠ 8 * x + k := by omega

/-- Settles O18: the code word is read back, every other word is left. -/
theorem codeWrite : Obligations.CodeWrite := by
  intro s x k w hx hk hc
  have hidle := busy_eq_false hc
  refine ⟨⟨_, (stands_codeCfg s.params x hx).hostAccess_write w hidle, ?_⟩,
    ⟨_, (stands_codeBits s.params x k hx hk).hostAccess_write w hidle, ?_⟩⟩
  · exact ⟨readCfg_writeCfg_same _ x w, fun y hy => readCfg_writeCfg_other _ x y w hy, fun _ => rfl, fun _ _ => rfl, rfl⟩
  · exact ⟨readBits_writeBits_same _ x k w,
      fun y j hj h => readBits_writeBits_other _ x k y j w (codeBits_number_ne hk hj h), fun _ => rfl, fun _ => rfl, rfl⟩

/-! ### While a command runs -/

theorem readEffect_rams_params_current (r : Reg) (s : State) :
    (readEffect r s).rams = s.rams ∧ (readEffect r s).params = s.params ∧ (readEffect r s).current = s.current := by
  obtain h | h := readEffect_cases r s <;> rw [h] <;> exact ⟨rfl, rfl, rfl⟩

/-- A write to CTRL resets, or leaves the current command (R69). -/
theorem writeCtrl_current (w : Word) (s : State) : (writeCtrl w s).current = s.current ∨ writeCtrl w s = softReset s := by
  unfold writeCtrl
  split
  · exact .inr rfl
  · simp only [clearIn_if, endInput_if, clearOut_if]
    exact .inl trivial

theorem offerByte_rams_params_current (b : Byte) (s : State) :
    (offerByte b s).rams = s.rams ∧ (offerByte b s).params = s.params ∧ (offerByte b s).current = s.current := by
  unfold offerByte
  split <;> exact ⟨rfl, rfl, rfl⟩

/-- While BUSY = 1 a write that is not dropped reaches neither CMD nor a RAM word (R65, R89). -/
theorem writeReg_while_busy (r : Reg) (w : Word) (s : State) (hb : s.busy = true) (hd : writeDropped r w s = false) :
    (writeReg r w s).rams = s.rams ∧ (writeReg r w s).params = s.params ∧
      ((writeReg r w s).current = s.current ∨ writeReg r w s = softReset s) := by
  obtain ht | ⟨rfl, ht⟩ | ⟨rfl, ht⟩ | ⟨rfl, ht⟩ | ⟨rfl, ht⟩ | ⟨j, rfl, ht⟩ | ⟨x, rfl, ht⟩ | ⟨x, k, rfl, ht⟩ := writeReg_cases r w s
  · rw [ht]
    exact ⟨rfl, rfl, .inl rfl⟩
  · simp [writeDropped, hb] at hd
  · rw [ht]
    exact ⟨rfl, rfl, .inl rfl⟩
  · obtain ⟨hrams, hparams, hcurrent⟩ := offerByte_rams_params_current (w.setWidth 8) s
    rw [ht]
    exact ⟨hrams, hparams, .inl hcurrent⟩
  · obtain ⟨hrams, hparams⟩ := writeCtrl_rams w s
    rw [ht]
    exact ⟨hrams, hparams, writeCtrl_current w s⟩
  -- a RAM word: rule (d) of R65 drops the write
  all_goals exact absurd (hb.symm.trans hd) Bool.true_eq_false.mp

/-- Settles O46: by what the access does. -/
theorem ramsFixedWhileBusy : Obligations.RamsFixedWhileBusy := by
  intro s a hb
  obtain ht | ht | ⟨r, -, ht⟩ | ⟨r, w, -, hd, ht⟩ := hostAccess_cases a s <;> rw [ht]
  · exact ⟨rfl, rfl, .inl rfl⟩
  · exact ⟨rfl, rfl, .inl rfl⟩
  · obtain ⟨hrams, hparams, hcurrent⟩ := readEffect_rams_params_current r s
    exact ⟨hrams, hparams, .inl hcurrent⟩
  · exact writeReg_while_busy r w s hb hd

end Sys2Proof.Machine
end

section
/-! SUPPORT. The bit stream primitives against the streams as bit sequences (spec/20_memory.md R80 to R84). -/

namespace Sys2Proof.Machine

/-! ### The low bits of a word -/

theorem length_lowBits {w : Nat} (n : Nat) (v : BitVec w) : (lowBits n v).length = n := by
  induction n with
  | zero => rfl
  | succ n ih => rw [lowBits, List.length_cons, ih]

/-- A bit appended to a word is appended to its bits. -/
theorem lowBits_append_ofBool {w : Nat} (n : Nat) (v : BitVec w) (b : Bool) :
    lowBits (n + 1) (v ++ BitVec.ofBool b) = lowBits n v ++ [b] := by
  induction n with
  | zero => rw [lowBits, lowBits, lowBits, getLsbD_append_ofBool_zero, List.nil_append]
  | succ n ih => rw [lowBits, ih, lowBits, getLsbD_append_ofBool_succ, List.cons_append]

/-- A bit shifted into a word with room for it is appended to its bits. -/
theorem lowBits_shiftConcat {w : Nat} (n : Nat) (v : BitVec w) (b : Bool) (h : n < w) :
    lowBits (n + 1) (v.shiftConcat b) = lowBits n v ++ [b] := by
  induction n with
  | zero => simp [lowBits, h]
  | succ n ih =>
    have hbit : (v.shiftConcat b).getLsbD (n + 1) = v.getLsbD n := by
      rw [BitVec.getLsbD_shiftConcat]
      simp [h]
    rw [lowBits, ih (by omega), lowBits, hbit, List.cons_append]

/-- Below its `k` new zeros a shifted word has no other bit. -/
theorem lowBits_shiftLeft_zeros {w : Nat} (n k : Nat) (v : BitVec w) (h : n ≤ k) : lowBits n (v <<< k) = List.replicate n false := by
  induction n with
  | zero => rfl
  | succ n ih =>
    have hbit : (v <<< k).getLsbD n = false := by simp [show n < k by omega]
    rw [lowBits, ih (by omega), hbit, List.replicate_succ]

/-- The bits of a word moved up by `k` places, zeros below them. -/
theorem lowBits_setWidth_shiftLeft {w m : Nat} (n k : Nat) (v : BitVec w) (h : n + k ≤ m) :
    lowBits (n + k) ((v.setWidth m) <<< k) = lowBits n v ++ List.replicate k false := by
  induction n with
  | zero => rw [Nat.zero_add, lowBits_shiftLeft_zeros k k _ le_rfl, lowBits, List.nil_append]
  | succ n ih =>
    have hbit : ((v.setWidth m) <<< k).getLsbD (n + k) = v.getLsbD n := by
      simp [show n + k < m by omega]
    rw [Nat.add_right_comm, lowBits, ih (by omega), lowBits, hbit, List.cons_append]

/-! ### Bytes -/

theorem byteBits_eq_lowBits (b : Byte) : byteBits b = lowBits 8 b := rfl

theorem bytesBits_cons (b : Byte) (bs : List Byte) : bytesBits (b :: bs) = byteBits b ++ bytesBits bs := rfl

theorem bytesBits_concat (bs : List Byte) (b : Byte) : bytesBits (bs ++ [b]) = bytesBits bs ++ byteBits b := by
  simp [bytesBits]

theorem length_bytesBits (bs : List Byte) : (bytesBits bs).length = 8 * bs.length := by
  induction bs with
  | nil => rfl
  | cons b bs ih =>
    rw [bytesBits_cons, List.length_append, ih, byteBits_eq_lowBits, length_lowBits, List.length_cons]
    omega

/-- The 8 bits of a byte, shifted in one after another, are the byte (R81). -/
theorem foldl_byteBits (v : Byte) : (byteBits v).foldl BitVec.shiftConcat 0#8 = v := by
  apply BitVec.eq_of_getLsbD_eq
  intro k hk
  simp only [byteBits, List.foldl_cons, List.foldl_nil, BitVec.getLsbD_shiftConcat]
  interval_cases k <;> simp

/-! ### ReadBit -/

theorem length_sourceBits (p : InPath) : (sourceBits p).length = availBits p := by
  rw [sourceBits, List.length_append, length_lowBits, length_bytesBits, availBits]

/-- Nothing is left where IN_BITS is 0 and the FIFO is empty (R38). -/
theorem sourceBits_eq_nil_iff (p : InPath) : sourceBits p = [] ↔ p.bits = 0 ∧ p.fifo = [] := by
  rw [← List.length_eq_zero_iff, length_sourceBits, availBits, ← List.length_eq_zero_iff]
  omega

/-- The bit at the cursor is the first of the source (R80). -/
theorem sourceBits_takeBit (p : InPath) (h : p.bits ≠ 0) : sourceBits p = (takeBit p).1 :: sourceBits (takeBit p).2 := by
  obtain ⟨n, hn⟩ := Nat.exists_eq_succ_of_ne_zero h
  simp only [sourceBits, takeBit, hn, Nat.succ_eq_add_one, Nat.add_sub_cancel, lowBits, List.cons_append]

/-- The oldest byte of the FIFO moves into IN_SR when IN_BITS is 0; the source stays the same (R80). -/
theorem sourceBits_loadByte (p : InPath) (b : Byte) (rest : List Byte) (h0 : p.bits = 0) (hf : p.fifo = b :: rest) :
    sourceBits { fifo := rest, sr := b, bits := 8 } = sourceBits p := by
  simp only [sourceBits, h0, hf, lowBits, bytesBits_cons, byteBits_eq_lowBits, List.nil_append]

theorem readBit_of_source_nil (ended : Bool) (p : InPath) (h : sourceBits p = []) :
    readBit ended p = if ended then .eoi else .hold := by
  obtain ⟨h0, hf⟩ := (sourceBits_eq_nil_iff p).mp h
  simp only [readBit, h0, hf, if_true]

/-- Taking the bit at the cursor takes the first bit of the source (R80). -/
theorem takeBit_of_source_cons (p : InPath) (b : Bool) (rest : List Bool) (h0 : p.bits ≠ 0) (h : sourceBits p = b :: rest) :
    (takeBit p).1 = b ∧ sourceBits (takeBit p).2 = rest :=
  List.cons.inj ((sourceBits_takeBit p h0).symm.trans h)

theorem readBit_of_source_cons (ended : Bool) (p : InPath) (b : Bool) (rest : List Bool) (h : sourceBits p = b :: rest) :
    ∃ q, readBit ended p = .bit b q ∧ sourceBits q = rest := by
  unfold readBit
  by_cases h0 : p.bits = 0
  · cases hf : p.fifo with
    | nil => exact absurd (h.symm.trans ((sourceBits_eq_nil_iff p).mpr ⟨h0, hf⟩)) (List.cons_ne_nil b rest)
    | cons x fifo =>
      obtain ⟨hbit, hrest⟩ := takeBit_of_source_cons { fifo := fifo, sr := x, bits := 8 } b rest (Nat.succ_ne_zero 7)
        ((sourceBits_loadByte p x fifo h0 hf).trans h)
      exact ⟨_, by rw [if_pos h0, ← hbit], hrest⟩
  · obtain ⟨hbit, hrest⟩ := takeBit_of_source_cons p b rest h0 h
    exact ⟨_, by rw [if_neg h0, ← hbit], hrest⟩

/-- Settles O19: by whether the source is empty. -/
theorem readBitTakesFirstBit : Obligations.ReadBitTakesFirstBit :=
  fun ended p => ⟨readBit_of_source_nil ended p, readBit_of_source_cons ended p⟩

/-! ### ReadBits8 -/

/-- Gathering takes as many bits as it is asked for from the source, the first one highest (R81). -/
theorem gatherBits_of_source (bits rest : List Bool) (v : Byte) (p : InPath) (h : sourceBits p = bits ++ rest) :
    ∃ q, gatherBits bits.length v p = (bits.foldl BitVec.shiftConcat v, q) ∧ sourceBits q = rest := by
  induction bits generalizing v p with
  | nil => exact ⟨p, rfl, h⟩
  | cons b bits ih =>
    obtain ⟨q, hq, hs⟩ := readBit_of_source_cons true p b _ h
    obtain ⟨q', hq', hs'⟩ := ih (v.shiftConcat b) q hs
    exact ⟨q', by simp only [List.length_cons, gatherBits, hq, hq', List.foldl_cons], hs'⟩

theorem readBits8_short (ended : Bool) (p : InPath) (h : (sourceBits p).length < 8) :
    readBits8 ended p = if ended then .eoi else .hold := by
  rw [readBits8, if_pos (length_sourceBits p ▸ h)]

theorem readBits8_of_source (ended : Bool) (p : InPath) (v : Byte) (rest : List Bool) (h : sourceBits p = byteBits v ++ rest) :
    ∃ q, readBits8 ended p = .byte v q ∧ sourceBits q = rest := by
  obtain ⟨q, hq, hs⟩ := gatherBits_of_source (byteBits v) rest 0#8 p h
  have hav : ¬ availBits p < 8 := by
    rw [← length_sourceBits, h, List.length_append, byteBits_eq_lowBits, length_lowBits]
    omega
  rw [foldl_byteBits, byteBits_eq_lowBits, length_lowBits] at hq
  exact ⟨q, by rw [readBits8, if_neg hav, hq], hs⟩

/-- With IN_BITS = 0 the oldest byte goes through IN_SR whole (R81). -/
theorem readBits8_aligned (ended : Bool) (b : Byte) (bs : List Byte) (sr : Byte) :
    readBits8 ended { fifo := b :: bs, sr := sr, bits := 0 } = .byte b { fifo := bs, sr := b, bits := 0 } := by
  have hav : ¬ availBits { fifo := b :: bs, sr := sr, bits := 0 } < 8 := by
    simp only [availBits, List.length_cons]
    omega
  have hgather : gatherBits 8 0#8 { fifo := b :: bs, sr := sr, bits := 0 } =
      ((byteBits b).foldl BitVec.shiftConcat 0#8, { fifo := bs, sr := b, bits := 0 }) := rfl
  rw [readBits8, if_neg hav, hgather, foldl_byteBits]

/-- Settles O20: by how much the source holds, and at a byte boundary by the byte itself. -/
theorem readByteAllOrNothing : Obligations.ReadByteAllOrNothing := by
  intro ended p
  refine ⟨readBits8_short ended p, readBits8_of_source ended p, fun b bs h0 hf => ?_⟩
  obtain ⟨fifo, sr, bits⟩ := p
  obtain rfl : bits = 0 := h0
  obtain rfl : fifo = b :: bs := hf
  exact ⟨_, readBits8_aligned ended b bs sr, rfl, rfl⟩

/-! ### WriteBit -/

/-- A bit that completes no byte goes to OUT_ACC (R82). -/
theorem writeBit_partial (depth : Nat) (b : Bool) (p : OutPath) (h : p.bits ≠ 7) :
    writeBit depth b p = some { p with acc := p.acc.shiftConcat b, bits := p.bits + 1, count := p.count + 1#32 } := by
  rw [writeBit, if_neg h]

/-- A bit that completes a byte sends it to a FIFO with room (R82). -/
theorem writeBit_byte (depth : Nat) (b : Bool) (p : OutPath) (h : p.bits = 7) (hf : p.fifo.length ≠ depth) :
    writeBit depth b p =
      some { fifo := p.fifo ++ [p.acc ++ BitVec.ofBool b], acc := 0#7, bits := 0, count := p.count + 1#32 } := by
  rw [writeBit, if_pos h, if_neg hf]

/-- Settles O21: by whether the bit completes a byte, and then by whether the FIFO has room. -/
theorem writeBitAppends : Obligations.WriteBitAppends := by
  intro depth b p hp
  by_cases h7 : p.bits = 7
  · by_cases hf : p.fifo.length = depth
    · rw [writeBit_full depth b p h7 hf]
      exact ⟨iff_of_true rfl ⟨h7, hf⟩, nofun⟩
    · rw [writeBit_byte depth b p h7 hf]
      refine ⟨iff_of_false nofun fun h => hf h.2, fun q hq => ?_⟩
      obtain rfl := Option.some.inj hq
      refine ⟨?_, rfl, by rw [h7], by simp [h7]⟩
      rw [sinkBits, sinkBits, h7, bytesBits_concat, byteBits_eq_lowBits, lowBits_append_ofBool, lowBits, List.append_nil,
        List.append_assoc]
  · rw [writeBit_partial depth b p h7]
    refine ⟨iff_of_false nofun fun h => h7 h.1, fun q hq => ?_⟩
    obtain rfl := Option.some.inj hq
    refine ⟨?_, rfl, by dsimp only; omega, by dsimp only; omega⟩
    rw [sinkBits, sinkBits, lowBits_shiftConcat p.bits p.acc b (by omega), List.append_assoc]

/-! ### Flush -/

theorem flushOut_aligned (depth : Nat) (p : OutPath) (h : p.bits = 0) : flushOut depth p = some p := by
  rw [flushOut, if_pos h]

/-- A partial byte goes to a FIFO with room, completed with zeros (R83). -/
theorem flushOut_partial (depth : Nat) (p : OutPath) (h : p.bits ≠ 0) (hf : p.fifo.length ≠ depth) :
    flushOut depth p =
      some { fifo := p.fifo ++ [flushByte p], acc := 0#7, bits := 0, count := p.count + BitVec.ofNat 32 (8 - p.bits) } := by
  rw [flushOut, if_neg h, if_neg hf]

/-- The byte of Flush: the bits of OUT_ACC, then zeros (R83). -/
theorem byteBits_flushByte (p : OutPath) (h : p.bits ≤ 7) :
    byteBits (flushByte p) = lowBits p.bits p.acc ++ List.replicate (8 - p.bits) false := by
  have hsum : p.bits + (8 - p.bits) = 8 := by omega
  rw [byteBits_eq_lowBits, flushByte, ← lowBits_setWidth_shiftLeft p.bits (8 - p.bits) p.acc hsum.le, hsum]

/-- Settles O22: by whether there is a partial byte, and then by whether the FIFO has room. -/
theorem flushPads : Obligations.FlushPads := by
  intro depth p hp _
  refine ⟨?_, flushOut_aligned depth p, fun q h0 hq => ?_⟩
  · by_cases h0 : p.bits = 0
    · rw [flushOut_aligned depth p h0]
      exact iff_of_false nofun fun h => h.1 h0
    · by_cases hf : p.fifo.length = depth
      · exact iff_of_true (flushOut_full depth p h0 hf) ⟨h0, hf⟩
      · rw [flushOut_partial depth p h0 hf]
        exact iff_of_false nofun fun h => hf h.2
  · have hf : p.fifo.length ≠ depth := fun hf => nomatch (flushOut_full depth p h0 hf).symm.trans hq
    obtain rfl := Option.some.inj ((flushOut_partial depth p h0 hf).symm.trans hq)
    refine ⟨?_, rfl, rfl, rfl, List.length_append⟩
    rw [sinkBits, sinkBits, bytesBits_concat, byteBits_flushByte p hp, lowBits, List.append_nil, List.append_assoc]

end Sys2Proof.Machine
end

section
/-! SUPPORT. The command word (spec/30_encoding.md R100 to R105): the opcode map read backwards, the bits of the word that a command reads,
and what an illegal OP does. -/

namespace Sys2Proof.Machine

/-! ### The opcode map -/

/-- The map has each command under its own OP, and only ENCODE_SYMBOL reads SYM (R101, R102). -/
theorem decodeFields_eq_ok_iff (op : BitVec 4) (sym : Sym) (i : Instr) :
    decodeFields op sym = .ok i ↔ op = opcodeOf i ∧ ∀ x, i = .encodeSymbol x → sym = x := by
  constructor
  · intro h
    unfold decodeFields at h
    split_ifs at h <;> cases h
    all_goals
      refine ⟨‹_›, fun x hx => ?_⟩
      cases hx <;> rfl
  · rintro ⟨rfl, h⟩
    cases i with
    | encodeSymbol x => rw [h x rfl]; rfl
    | _ => rfl

/-- The map refuses OP 0 and OP 7 to 15, naming that OP (R101, R105). -/
theorem decodeFields_eq_error_iff (op x : BitVec 4) (sym : Sym) :
    decodeFields op sym = .error (.illegalOp x) ↔ x = op ∧ (op.toNat = 0 ∨ 7 ≤ op.toNat) := by
  constructor
  · intro h
    unfold decodeFields at h
    split_ifs at h
    cases h
    exact ⟨rfl, by bv_omega⟩
  · rintro ⟨rfl, h⟩
    rw [decodeFields, if_neg, if_neg, if_neg, if_neg, if_neg, if_neg] <;> bv_omega

/-! ### The bits of the word that a command reads -/

/-- OP is the low digit of the word (R100). -/
theorem opField_toNat (w : Word) : (opField w).toNat = w.toNat % 16 := by
  rw [opField_eq_ofNat, BitVec.toNat_ofNat]

/-- A command word is determined by its two fields. -/
theorem fieldsWord_inj {sym sym' : Sym} {op op' : BitVec 4} :
    0#7 ++ sym ++ 0#12 ++ op = 0#7 ++ sym' ++ 0#12 ++ op' ↔ op = op' ∧ sym = sym' := by
  refine ⟨fun h => ?_, fun ⟨hop, hsym⟩ => by rw [hop, hsym]⟩
  obtain ⟨hop, hsym⟩ := Laws.commandWord_fields sym op
  obtain ⟨hop', hsym'⟩ := Laws.commandWord_fields sym' op'
  exact ⟨by rw [← hop, h, hop'], by rw [← hsym, h, hsym']⟩

/-- The bits that ENCODE_SYMBOL reads are both fields (R100). -/
theorem and_commandMask_eq (w : Word) : w &&& 0x01FF000F#32 = 0#7 ++ symField w ++ 0#12 ++ opField w := by
  apply BitVec.eq_of_getLsbD_eq
  intro k hk
  simp only [opField, symField, BitVec.getLsbD_and, BitVec.getLsbD_append, BitVec.getLsbD_extractLsb']
  interval_cases k <;> simp

/-- The bits that a command without an operand reads are OP (R100). -/
theorem and_opMask_eq (w : Word) : w &&& 0x0000000F#32 = 0#7 ++ 0#9 ++ 0#12 ++ opField w := by
  apply BitVec.eq_of_toNat_eq
  have hmask := Nat.and_two_pow_sub_one_eq_mod w.toNat 4
  simp only [BitVec.toNat_and, toNat_append, opField_toNat, BitVec.toNat_ofNat]
  simpa using hmask

/-- A word is command `i` exactly when the bits that `i` reads are those of its own word (R100, R101, R102). -/
theorem decode_eq_ok_iff (w : Word) (i : Instr) : decode w = .ok i ↔ w &&& usedMask i = encode i := by
  rw [decode, decodeFields_eq_ok_iff]
  cases i with
  | encodeSymbol x =>
    rw [usedMask, encode, and_commandMask_eq, fieldsWord_inj]
    simp [operandOf]
  | _ =>
    rw [usedMask, encode, and_opMask_eq, operandOf, fieldsWord_inj]
    simp

/-- The bits outside a mask do not show under it. -/
theorem or_outside_and_mask {n : Nat} (a v m : BitVec n) : (a ||| (v &&& ~~~m)) &&& m = a &&& m := by
  ext k hk
  cases hm : m[k] <;> simp [hm]

theorem decode_encode (i : Instr) : decode (encode i) = .ok i := by
  rw [decode, encode, (Laws.commandWord_fields _ _).1, (Laws.commandWord_fields _ _).2, decodeFields_eq_ok_iff]
  exact ⟨rfl, fun x hx => by rw [hx, operandOf]⟩

/-- Settles O3: the ignored bits do not show under the mask of the bits the command reads, and its own word decodes to it. -/
theorem decodeOfEncode : Obligations.DecodeOfEncode := by
  intro i ignored
  rw [decode_eq_ok_iff, or_outside_and_mask]
  exact (decode_eq_ok_iff (encode i) i).mp (decode_encode i)

/-- Settles O2: the statement's mask is that of the bits the command reads. -/
theorem decodeReadsUsedBitsOnly : Obligations.DecodeReadsUsedBitsOnly := by
  intro w i
  rw [decode_eq_ok_iff]
  cases i <;> rfl

/-- Settles O4: the opcode map at the word's own OP. -/
theorem illegalOpcodesRejected : Obligations.IllegalOpcodesRejected := by
  intro w op
  rw [decode, decodeFields_eq_error_iff, opField_toNat]

/-- Settles O1: the words with a command by evaluation of the decoder, the others by O4. -/
theorem tableWordsDecode : Obligations.TableWordsDecode := by
  refine ⟨rfl, rfl, rfl, rfl, rfl, rfl, rfl, ?_, ?_, ?_⟩ <;> exact (illegalOpcodesRejected _ _).mpr (by decide)

/-! ### An illegal command -/

/-- FAULT_INFO after ILLEGAL_CMD: DATA = OP (R180, R183). -/
theorem faultWord_illegalCmd (op : BitVec 4) :
    faultWord 1#4 0#4 (op.setWidth 10) = BitVec.ofNat 32 (op.toNat * 0x10000 + 1) := by
  have hop := op.isLt
  apply BitVec.eq_of_toNat_eq
  rw [faultWord_toNat, BitVec.toNat_setWidth, BitVec.toNat_ofNat, BitVec.toNat_ofNat, BitVec.toNat_ofNat]
  omega

/-- Settles O24: the opcode map refuses the OP, and the block's turn is the fault entry. -/
theorem illegalCommandFaults : Obligations.IllegalCommandFaults := by
  intro s c rest hc hop
  have hbad : decodeFields c.op c.sym = .error (.illegalOp c.op) :=
    (decodeFields_eq_error_iff ..).mpr ⟨rfl, hop.imp_left fun h => by rw [h]; rfl⟩
  refine ⟨_, rfl, ?_⟩
  rw [← faultWord_illegalCmd]
  exact ⟨blockStep_illegal s c c.op hc hbad, fun h => (step_unscheduled s h).trans (blockStep_illegal s c c.op hc hbad),
    fun h => (step_block s rest h).trans (blockStep_illegal { s with schedule := rest } c c.op hc hbad)⟩

end Sys2Proof.Machine
end

section
/-! SUPPORT. Codewords (spec/30_encoding.md R104, R109, spec/44_host_tree_header.md R173): the words of a slot hold the codeword's bits,
loading them stores it, and no codeword of a tree begins with another. -/

namespace Sys2Proof.Machine

/-! ### The bits of a CODE_BITS word -/

/-- Bits shifted in one after another, where the word has room for them, are appended to its bits. -/
theorem lowBits_foldl_shiftConcat {w : Nat} (bits : List Bool) (n : Nat) (v : BitVec w) (h : n + bits.length ≤ w) :
    lowBits (n + bits.length) (bits.foldl BitVec.shiftConcat v) = lowBits n v ++ bits := by
  induction bits generalizing n v with
  | nil => simp
  | cons b bits ih =>
    rw [List.length_cons] at h
    rw [List.length_cons, List.foldl_cons, Nat.add_comm bits.length 1, ← Nat.add_assoc, ih (n + 1) _ (by omega),
      lowBits_shiftConcat n v b (by omega), List.append_assoc, List.singleton_append]

/-- Bit `j` of the low `n` bits, the first being bit n - 1 of the word. -/
theorem getElem_lowBits {w : Nat} (n j : Nat) (v : BitVec w) (h : j < (lowBits n v).length) :
    (lowBits n v)[j] = v.getLsbD (n - 1 - j) := by
  induction n generalizing j with
  | zero => exact absurd h (Nat.not_lt_zero j)
  | succ n ih =>
    cases j with
    | zero => rfl
    | succ j =>
      have hidx : n + 1 - 1 - (j + 1) = n - 1 - j := by omega
      simp only [lowBits, List.getElem_cons_succ, ih, hidx]

/-- CODE_BITS word `k` of a codeword holds its bits from 32k on, zeros after its end (R109). -/
theorem lowBits_codewordWord (bits : List Bool) (k : Nat) :
    lowBits 32 (codewordWord bits k) = (List.range 32).map fun j => bits.getD (32 * k + j) false := by
  rw [codewordWord, ← List.foldl_map (f := fun j => bits.getD (32 * k + j) false) (g := BitVec.shiftConcat)]
  exact lowBits_foldl_shiftConcat ((List.range 32).map fun j => bits.getD (32 * k + j) false) 0 0#32 (by simp)

/-- The place that R104 gives to codeword bit `j` holds that bit. -/
theorem codewordWord_getLsbD (bits : List Bool) (j : Nat) :
    (codewordWord bits (j / 32)).getLsbD (31 - j % 32) = bits.getD j false := by
  have hlt : j % 32 < (lowBits 32 (codewordWord bits (j / 32))).length := by
    rw [length_lowBits]
    exact Nat.mod_lt j (by decide)
  rw [← getElem_lowBits 32 (j % 32) _ hlt]
  simp only [lowBits_codewordWord, List.getElem_map, List.getElem_range, Nat.div_add_mod]

/-! ### The CODE_CFG word -/

theorem cfgValid_codewordCfg (bits : List Bool) : cfgValid (cfgForm (codewordCfg bits)) = true := by
  simp [cfgValid, cfgForm, codewordCfg]

/-- LEN has room for a length of 256 (R104). -/
theorem cfgLen_codewordCfg (bits : List Bool) (h : bits.length ≤ 256) : cfgLen (cfgForm (codewordCfg bits)) = bits.length := by
  have hvalid : (0x80000000#32).extractLsb' 0 9 = 0#9 := by decide
  have hmask : (0x800001FF#32).extractLsb' 0 9 = BitVec.allOnes 9 := by decide
  rw [cfgLen, cfgForm, codewordCfg, BitVec.extractLsb'_and, BitVec.extractLsb'_or, hvalid, hmask, BitVec.zero_or,
    BitVec.and_allOnes, BitVec.extractLsb'_toNat, BitVec.toNat_ofNat, Nat.shiftRight_zero]
  omega

/-! ### Loading a codeword -/

theorem hostAccess_codeCfg (s : State) (x : Nat) (w : Word) (hc : s.current = none) (hx : x ≤ 256) :
    hostAccess (wrAccess (.codeCfg x) w) s = { s with rams := writeCfg x w s.rams } :=
  (stands_codeCfg s.params x hx).hostAccess_write w (busy_eq_false hc)

theorem hostAccess_codeBits (s : State) (x k : Nat) (w : Word) (hc : s.current = none) (hx : x ≤ 256) (hk : k ≤ 7) :
    hostAccess (wrAccess (.codeBits x k) w) s = { s with rams := writeBits x k w s.rams } :=
  (stands_codeBits s.params x k hx hk).hostAccess_write w (busy_eq_false hc)

/-- Words `f k` written at CODE_BITS[x][k] for each `k` of a list leave the configuration of every slot, and read back. -/
theorem hostAccesses_codeBits (f : Nat → Word) (x : Nat) (hx : x ≤ 256) (ks : List Nat) (hks : ∀ k ∈ ks, k ≤ 7) (s : State)
    (hc : s.current = none) :
    (∀ y, readCfg (hostAccesses (ks.map fun k => wrAccess (.codeBits x k) (f k)) s).rams y = readCfg s.rams y) ∧
      ∀ k, readBits (hostAccesses (ks.map fun k => wrAccess (.codeBits x k) (f k)) s).rams x k =
        if k ∈ ks then f k else readBits s.rams x k := by
  induction ks generalizing s with
  | nil => exact ⟨fun _ => rfl, fun _ => rfl⟩
  | cons a ks ih =>
    obtain ⟨ha, hks⟩ := List.forall_mem_cons.mp hks
    obtain ⟨hcfg, hbits⟩ := ih hks { s with rams := writeBits x a (f a) s.rams } hc
    rw [List.map_cons, hostAccesses, hostAccess_codeBits s x a (f a) hc hx ha]
    refine ⟨fun y => (hcfg y).trans (readCfg_writeBits ..), fun k => (hbits k).trans ?_⟩
    by_cases hka : k = a
    · subst hka
      simp
    · simp [hka, readBits_writeBits_other s.rams x a x k (f a) (by omega)]

/-- A loaded slot: its configuration and its 8 words (R109). -/
theorem hostAccesses_codeword (s : State) (x : Sym) (bits : List Bool) (hc : s.current = none) (hx : x.toNat ≤ 256) :
    readCfg (hostAccesses (expandLine (.codeword x bits)) s).rams x.toNat = cfgForm (codewordCfg bits) ∧
      ∀ k < 8, readBits (hostAccesses (expandLine (.codeword x bits)) s).rams x.toNat k = codewordWord bits k := by
  obtain ⟨hcfg, hbits⟩ := hostAccesses_codeBits (codewordWord bits) x.toNat hx (List.range 8)
    (fun k hk => Nat.le_of_lt_succ (List.mem_range.mp hk)) { s with rams := writeCfg x.toNat (codewordCfg bits) s.rams } hc
  rw [expandLine, hostAccesses, hostAccess_codeCfg s x.toNat _ hc hx]
  exact ⟨(hcfg _).trans (readCfg_writeCfg_same ..), fun k hk => (hbits k).trans (if_pos (List.mem_range.mpr hk))⟩

/-- A slot that holds the words of a codeword of at most 256 bits is usable, and its codeword is that one (R104). -/
theorem slot_of_codeword_words (r : Rams) (x : Sym) (bits : List Bool) (hx : x.toNat ≤ 256) (hlen : bits.length ≤ 256)
    (hcfg : readCfg r x.toNat = cfgForm (codewordCfg bits)) (hbits : ∀ k < 8, readBits r x.toNat k = codewordWord bits k) :
    slotUsable r x ∧ slotCodeword r x = bits := by
  have hvalid : cfgValid (readCfg r x.toNat) = true := hcfg ▸ cfgValid_codewordCfg bits
  have hL : cfgLen (readCfg r x.toNat) = bits.length := hcfg ▸ cfgLen_codewordCfg bits hlen
  refine ⟨⟨hx, hvalid, hL ▸ hlen⟩, List.ext_getElem (by simp [slotCodeword, hL]) fun j hj hj' => ?_⟩
  have hword : readBits r x.toNat (j / 32) = codewordWord bits (j / 32) := hbits _ (by omega)
  simp [slotCodeword, codeBit, hword, codewordWord_getLsbD, hj']

/-! ### No codeword begins with another -/

theorem prefixFree_comm {a b : List Bool} (h : prefixFree a b) : prefixFree b a := ⟨h.2, h.1⟩

theorem prefixFree_cons (b : Bool) {u v : List Bool} (h : prefixFree u v) : prefixFree (b :: u) (b :: v) := by
  simpa [prefixFree] using h

theorem prefixFree_of_head_ne (u v : List Bool) : prefixFree (false :: u) (true :: v) := by
  simp [prefixFree]

/-- Two codewords of one child share their first bit, two of different children differ in it (R173). -/
theorem codewords_pairwise_prefixFree (t : PrefixTree) : (codewords t).Pairwise fun c d => prefixFree c.2 d.2 := by
  induction t with
  | leaf s => exact List.pairwise_singleton _ _
  | branch l r ihl ihr =>
    rw [codewords, List.pairwise_append, List.pairwise_map, List.pairwise_map]
    refine ⟨ihl.imp (prefixFree_cons false), ihr.imp (prefixFree_cons true), ?_⟩
    simp only [List.forall_mem_map]
    exact fun c _ d _ => prefixFree_of_head_ne c.2 d.2

/-- Leaves of distinct symbols are distinct leaves. -/
theorem prefixFree_of_mem_codewords {t : PrefixTree} {x y : Sym} {u v : List Bool} (hx : (x, u) ∈ codewords t)
    (hy : (y, v) ∈ codewords t) (hxy : x ≠ y) : prefixFree u v :=
  have : Std.Symm fun c d : Sym × List Bool => prefixFree c.2 d.2 := ⟨fun _ _ => prefixFree_comm⟩
  (codewords_pairwise_prefixFree t).forall hx hy fun h => hxy (congrArg Prod.fst h)

/-- Settles O60: the loaded slot by its words; the tree by the first bits of its codewords; the table by the leaves it is derived from. -/
theorem codewordLoaded : Obligations.CodewordLoaded := by
  refine ⟨fun s x bits hc hx hlen => ⟨_, rfl, ?_⟩, fun tree => List.pairwise_map.mpr (codewords_pairwise_prefixFree tree),
    fun r tree x y htable hx hy hxy hvx hvy => ?_⟩
  · obtain ⟨hcfg, hbits⟩ := hostAccesses_codeword s x bits hc hx
    exact slot_of_codeword_words _ x bits hx hlen hcfg hbits
  · exact prefixFree_of_mem_codewords (htable x hx hvx).2 (htable y hy hvy).2 hxy

end Sys2Proof.Machine
end

section
/-! SUPPORT. One iteration of TreeCheck (spec/40_tree_check.md R121), one equation per branch, over the fields of a node word as numbers
(spec/30_encoding.md R103). -/

namespace Sys2Proof.Machine

/-! ### The fields of a node word -/

theorem nodeSym_toNat (n : Word) : (nodeSym n).toNat = n.toNat % 512 := by
  rw [nodeSym, BitVec.extractLsb'_toNat, Nat.shiftRight_zero]

theorem nodeSym_eq_eosSym_iff (n : Word) : nodeSym n = eosSym ↔ n.toNat % 512 = 256 := by
  rw [← BitVec.toNat_inj, nodeSym_toNat]
  rfl

theorem nodeLeft_eq_ofNat (n : Word) : nodeLeft n = BitVec.ofNat 10 (n.toNat / 0x10000) := by
  apply BitVec.eq_of_toNat_eq
  rw [nodeLeft, BitVec.extractLsb'_toNat, BitVec.toNat_ofNat, Nat.shiftRight_eq_div_pow]

theorem nodeRight_eq_ofNat (n : Word) : nodeRight n = BitVec.ofNat 10 n.toNat := by
  apply BitVec.eq_of_toNat_eq
  rw [nodeRight, BitVec.extractLsb'_toNat, BitVec.toNat_ofNat, Nat.shiftRight_zero]

/-! ### The branches of an iteration -/

section
variable {p : Params} {r : Rams} {i : NodeIndex} {rest visited : List NodeIndex} {e : Bool}

theorem checkIteration_outOfRange (h : p.nNodes ≤ i.toNat) : checkIteration p r (i :: rest) visited e = .bad 1#4 i :=
  if_pos h

theorem checkIteration_revisited (hi : i.toNat < p.nNodes) (h : i ∈ visited) :
    checkIteration p r (i :: rest) visited e = .bad 2#4 i := by
  rw [checkIteration, if_neg (Nat.not_le.mpr hi), if_pos h]

theorem checkIteration_branch (hi : i.toNat < p.nNodes) (hnew : i ∉ visited) (hb : nodeIsBranch (readNode r i.toNat) = true) :
    checkIteration p r (i :: rest) visited e =
      .more (nodeLeft (readNode r i.toNat) :: nodeRight (readNode r i.toNat) :: rest) (i :: visited) e := by
  rw [checkIteration, if_neg (Nat.not_le.mpr hi), if_neg hnew, if_pos hb]

theorem checkIteration_badSymbol (hi : i.toNat < p.nNodes) (hnew : i ∉ visited) (hb : nodeIsBranch (readNode r i.toNat) = false)
    (hx : 256 < (nodeSym (readNode r i.toNat)).toNat) : checkIteration p r (i :: rest) visited e = .bad 3#4 i := by
  rw [checkIteration, if_neg (Nat.not_le.mpr hi), if_neg hnew, if_neg (Bool.not_eq_true _ ▸ hb), if_pos hx]

/-- At a Leaf that holds EOS the check goes on, or fails where EOS was seen before. -/
theorem checkIteration_eosLeaf (hi : i.toNat < p.nNodes) (hnew : i ∉ visited) (hb : nodeIsBranch (readNode r i.toNat) = false)
    (hx : nodeSym (readNode r i.toNat) = eosSym) :
    checkIteration p r (i :: rest) visited e = if e then .bad 4#4 i else .more rest (i :: visited) true := by
  rw [checkIteration, if_neg (Nat.not_le.mpr hi), if_neg hnew, if_neg (Bool.not_eq_true _ ▸ hb), if_neg (by rw [hx]; decide), if_pos hx]

theorem checkIteration_leaf (hi : i.toNat < p.nNodes) (hnew : i ∉ visited) (hb : nodeIsBranch (readNode r i.toNat) = false)
    (hx : (nodeSym (readNode r i.toNat)).toNat ≤ 256) (hne : nodeSym (readNode r i.toNat) ≠ eosSym) :
    checkIteration p r (i :: rest) visited e = .more rest (i :: visited) e := by
  rw [checkIteration, if_neg (Nat.not_le.mpr hi), if_neg hnew, if_neg (Bool.not_eq_true _ ▸ hb), if_neg (Nat.not_lt.mpr hx), if_neg hne]

end

end Sys2Proof.Machine
end

section
/-! SUPPORT. How long TreeCheck runs (spec/40_tree_check.md R121, R123): a well-formed tree of R nodes passes in its iteration R + 1, and
any check has a verdict by its iteration N_NODES + 1, since each iteration that goes on visits one more node. -/

namespace Sys2Proof.Machine

variable {p : Params} {r : Rams} {n m : Nat} {stack rest visited st vis : List NodeIndex} {e e' : Bool} {i : NodeIndex} {v w : CheckOut}

/-! ### Runs of the loop -/

theorem checkRun_more (h : checkIteration p r stack visited e = .more st vis e') :
    checkRun p r (n + 1) stack visited e = checkRun p r n st vis e' := by
  rw [checkRun, h]

/-- An iteration that does not go on is the run's verdict. -/
theorem checkRun_verdict (h : checkIteration p r stack visited e = v) (hv : ∀ st vis e', v ≠ .more st vis e') :
    checkRun p r (n + 1) stack visited e = some v := by
  rw [checkRun, h]
  cases v with
  | bad | passed => rfl
  | more st vis e' => exact absurd rfl (hv st vis e')

/-- However long two runs of one check are, their verdicts agree. -/
theorem checkRun_unique (hv : checkRun p r n stack visited e = some v) (hw : checkRun p r m stack visited e = some w) : v = w := by
  induction n generalizing m stack visited e with
  | zero => cases hv
  | succ n ih =>
    cases m with
    | zero => cases hw
    | succ m =>
      cases hit : checkIteration p r stack visited e with
      | more st vis e' =>
        rw [checkRun_more hit] at hv hw
        exact ih hv hw
      | bad | passed =>
        rw [checkRun_verdict hit nofun] at hv hw
        exact Option.some.inj (hv.symm.trans hw)

/-- A verdict is a failure or success. -/
theorem checkRun_ne_more : checkRun p r n stack visited e ≠ some (.more st vis e') := by
  induction n generalizing stack visited e with
  | zero => exact nofun
  | succ n ih =>
    cases hit : checkIteration p r stack visited e with
    | more => rw [checkRun_more hit]; exact ih
    | bad | passed => rw [checkRun_verdict hit nofun]; exact nofun

/-! ### A verdict within N_NODES + 1 iterations -/

/-- Node RAM bounds the number of nodes visited. -/
theorem checkOk.length_visited_le (h : checkOk p stack visited) : visited.length ≤ p.nNodes := by
  obtain ⟨-, hnodup, hrange⟩ := h
  have hsub : visited.map BitVec.toNat ⊆ List.range p.nNodes := by
    intro k hk
    obtain ⟨i, hi, rfl⟩ := List.mem_map.mp hk
    exact List.mem_range.mpr (hrange i hi)
  simpa using ((hnodup.map fun _ _ => BitVec.eq_of_toNat_eq).subperm hsub).length_le

/-- A check that may still visit fewer than `n` nodes has a verdict within `n` iterations. -/
theorem exists_checkRun_verdict (h : checkOk p stack visited) (hn : p.nNodes < n + visited.length) :
    ∃ v, checkRun p r n stack visited e = some v := by
  induction n generalizing stack visited e with
  | zero => exact absurd h.length_visited_le (by omega)
  | succ n ih =>
    cases hit : checkIteration p r stack visited e with
    | bad | passed => exact ⟨_, checkRun_verdict hit nofun⟩
    | more st vis e' =>
      obtain ⟨i, rest, -, -, -, hvis, -⟩ := checkIteration_more p r stack visited st vis e e' hit
      rw [checkRun_more hit]
      exact ih (checkOk_more h hit) (by rw [hvis, List.length_cons]; omega)

/-! ### A well-formed tree passes -/

variable {t a b : PrefixTree} {ts : List PrefixTree} {occ : List NodeIndex}

theorem forestOccupied_branch : forestOccupied r (i :: rest) (.branch a b :: ts) =
    i :: forestOccupied r (nodeLeft (readNode r i.toNat) :: nodeRight (readNode r i.toNat) :: rest) (a :: b :: ts) := by
  simp [forestOccupied, occupied]

theorem forestOccupied_leaf (x : Sym) : forestOccupied r (i :: rest) (.leaf x :: ts) = i :: forestOccupied r rest ts := rfl

/-- The index on top of the stack passes the check's first two tests, and what the trees occupy besides is unvisited after it. -/
theorem ForestChecked.uncons_occupied (h : ForestChecked p r (i :: rest) visited e (t :: ts))
    (hocc : forestOccupied r (i :: rest) (t :: ts) = i :: occ) :
    i.toNat < p.nNodes ∧ i ∉ visited ∧ occ.Nodup ∧ (∀ j ∈ occ, j ∉ i :: visited) ∧ ∀ j ∈ occ, j.toNat < p.nNodes := by
  obtain ⟨-, hnodup, hfresh, hrange, -, -⟩ := h
  rw [hocc] at hnodup hfresh hrange
  obtain ⟨hni, hnodup⟩ := List.nodup_cons.mp hnodup
  obtain ⟨hi, hrange⟩ := List.forall_mem_cons.mp hrange
  obtain ⟨hnew, hfresh⟩ := List.forall_mem_cons.mp hfresh
  exact ⟨hi, hnew, hnodup, fun j hj => List.not_mem_cons_of_ne_of_not_mem (ne_of_mem_of_not_mem hj hni) (hfresh j hj), hrange⟩

/-- A Branch on top of the stack: the check goes on with its two subtrees in its place. -/
theorem ForestChecked.iterate_branch (h : ForestChecked p r (i :: rest) visited e (.branch a b :: ts)) :
    ∃ st vis, checkIteration p r (i :: rest) visited e = .more st vis e ∧ ForestChecked p r st vis e (a :: b :: ts) := by
  obtain ⟨hi, hnew, hnodup, hfresh, hrange⟩ := h.uncons_occupied forestOccupied_branch
  obtain ⟨hstored, -, -, -, hsymbols, heos⟩ := h
  obtain ⟨⟨hb, ha, hb'⟩, hrest⟩ := List.forall₂_cons.mp hstored
  exact ⟨_, _, checkIteration_branch hi hnew hb,
    { stored := .cons ha (.cons hb' hrest)
      nodup := hnodup
      fresh := hfresh
      inRange := hrange
      symbols := by simpa [leafSyms] using hsymbols
      eosOnce := by simpa [leafSyms] using heos }⟩

/-- A Leaf on top of the stack: the check goes on without it, and remembers EOS. -/
theorem ForestChecked.iterate_leaf {x : Sym} (h : ForestChecked p r (i :: rest) visited e (.leaf x :: ts)) :
    ∃ e', checkIteration p r (i :: rest) visited e = .more rest (i :: visited) e' ∧ ForestChecked p r rest (i :: visited) e' ts := by
  obtain ⟨hi, hnew, hnodup, hfresh, hrange⟩ := h.uncons_occupied (forestOccupied_leaf x)
  obtain ⟨hstored, -, -, -, hsymbols, heos⟩ := h
  obtain ⟨⟨hb, rfl⟩, hrest⟩ := List.forall₂_cons.mp hstored
  obtain ⟨hx, hsymbols⟩ := List.forall_mem_cons.mp hsymbols
  rw [List.flatMap_cons, leafSyms, List.singleton_append] at heos
  by_cases hxe : nodeSym (readNode r i.toNat) = eosSym
  · rw [hxe, List.count_cons_self] at heos
    obtain rfl : e = false := Bool.toNat_eq_zero.mp (by omega)
    exact ⟨true, checkIteration_eosLeaf hi hnew hb hxe, hrest, hnodup, hfresh, hrange, hsymbols, heos⟩
  · rw [List.count_cons_of_ne hxe] at heos
    exact ⟨e, checkIteration_leaf hi hnew hb hx hxe, hrest, hnodup, hfresh, hrange, hsymbols, heos⟩

/-- The check takes one iteration for each node of the trees on its stack, and one more to pass. -/
theorem ForestChecked.checkRun_eq (h : ForestChecked p r stack visited e ts) (hn : (ts.map treeSize).sum = n) :
    checkRun p r (n + 1) stack visited e = some .passed ∧ checkRun p r n stack visited e = none := by
  induction n generalizing stack visited e ts with
  | zero =>
    match ts with
    | [] =>
      obtain rfl := List.forall₂_nil_right_iff.mp h.stored
      obtain rfl : e = true := Bool.toNat_eq_one.mp (by simpa using h.eosOnce)
      exact ⟨rfl, rfl⟩
    | .leaf _ :: _ | .branch _ _ :: _ => simp [treeSize] at hn
  | succ n ih =>
    match ts with
    | [] => cases hn
    | .leaf x :: ts =>
      obtain ⟨i, rest, -, -, rfl⟩ := List.forall₂_cons_right_iff.mp h.stored
      obtain ⟨e', hit, h'⟩ := h.iterate_leaf
      rw [checkRun_more hit, checkRun_more hit]
      exact ih h' (by simp [treeSize] at hn; omega)
    | .branch a b :: ts =>
      obtain ⟨i, rest, -, -, rfl⟩ := List.forall₂_cons_right_iff.mp h.stored
      obtain ⟨st, vis, hit, h'⟩ := h.iterate_branch
      rw [checkRun_more hit, checkRun_more hit]
      exact ih h' (by simp [treeSize] at hn ⊢; omega)

/-- The tree in node RAM is the one the check finds below the root (R122). -/
theorem holdsTree.forestChecked (h : holdsTree p r t) : ForestChecked p r [0#10] [] false [t] := by
  obtain ⟨hstored, hnodup, hrange, hwf⟩ := h
  simp only [treeWellFormed, Bool.and_eq_true, List.all_eq_true, decide_eq_true_eq] at hwf
  obtain ⟨hsymbols, heos⟩ := hwf
  have hocc : forestOccupied r [0#10] [t] = occupied r 0#10 t := List.append_nil _
  exact
    { stored := .cons hstored .nil
      nodup := hocc ▸ hnodup
      fresh := fun _ _ => List.not_mem_nil
      inRange := hocc ▸ hrange
      symbols := by simpa using hsymbols
      eosOnce := by simpa [eosSym] using heos }

/-- Settles O52: the count for a stack of trees, at the one tree below the root. -/
theorem checkMicroStepCount : Obligations.CheckMicroStepCount :=
  fun _ _ _ h => h.forestChecked.checkRun_eq (by simp)

end Sys2Proof.Machine
end

section
/-! SUPPORT. A run of VALIDATE_TREE from its first micro-step to the verdict of the check (spec/40_tree_check.md R120 to R123). -/

namespace Sys2Proof.Machine

/-- The state in which VALIDATE_TREE ends with the check's verdict (R120, R122). -/
def validateEnd (v : CheckOut) (s : State) : State :=
  match v with
  | .bad sub data => raiseFault 2#4 sub data (setTreeOk false s)
  | .more _ _ _ => s
  | .passed => finish (setTreeOk true s)

variable {s t : State} {c : Command} {stack visited st vis : List NodeIndex} {e : Bool} {n : Nat} {v : CheckOut}

theorem blockRun_succ (h : blockStep s = .next t) : blockRun (n + 1) s = blockRun n t := by
  rw [blockRun, h]

theorem blockRun_idle (h : s.current = none) : blockRun n s = .next s := by
  induction n with
  | zero => rfl
  | succ n ih => rw [blockRun_succ (blockStep_idle s h), ih]

/-- The end of the command clears the position and the WAIT bits, so an advance before it does not show. -/
theorem validateEnd_goTo (hv : ∀ st vis e', v ≠ .more st vis e') (pos : Pos) : validateEnd v (goTo pos s) = validateEnd v s := by
  cases v with
  | bad | passed => rfl
  | more st vis e' => exact absurd rfl (hv st vis e')

theorem blockStep_validateTree_check (hc : s.current = some c) (hi : decodeFields c.op c.sym = .ok .validateTree)
    (hp : c.pos = .check stack visited e) : blockStep s = .next (checkStep finish stack visited e s) := by
  obtain ⟨op, y, pos⟩ := c
  obtain rfl : pos = .check stack visited e := hp
  rw [blockStep_legal s _ _ hc hi, execValidateTree_at_check s op y stack visited e hc]

/-- VALIDATE_TREE at an iteration of the check ends with the verdict of the iterations to come. -/
theorem blockRun_of_checkRun (hc : s.current = some c) (hi : decodeFields c.op c.sym = .ok .validateTree)
    (hp : c.pos = .check stack visited e) (hv : checkRun s.params s.rams n stack visited e = some v) :
    blockRun n s = .next (validateEnd v s) := by
  have hmore : ∀ st vis e', v ≠ .more st vis e' := fun _ _ _ h => checkRun_ne_more (h ▸ hv)
  induction n generalizing s c stack visited e with
  | zero => cases hv
  | succ n ih =>
    rw [blockRun_succ (blockStep_validateTree_check hc hi hp)]
    obtain ⟨sub, data, hit, ht⟩ | ⟨st, vis, e', hit, ht⟩ | ⟨hit, ht⟩ := checkStep_cases finish stack visited e s <;> rw [ht]
    · rw [checkRun_verdict hit nofun] at hv
      cases hv
      exact blockRun_idle rfl
    · rw [checkRun_more hit] at hv
      rw [ih (s := goTo (.check st vis e') s) (c := { c with pos := .check st vis e' }) (by simp [hc]) hi rfl hv,
        validateEnd_goTo hmore]
    · rw [checkRun_verdict hit nofun] at hv
      cases hv
      exact blockRun_idle rfl

/-- VALIDATE_TREE from its first micro-step ends with the verdict of the whole check. -/
theorem blockRun_validateTree (hs : startsCommand .validateTree s) (hv : checkRun s.params s.rams n [0#10] [] false = some v) :
    blockRun (n + 1) s = .next (validateEnd v s) := by
  obtain ⟨⟨op, y, pos⟩, hc, hi, rfl⟩ := hs
  have hfirst : blockStep s = .next (goTo checkStart s) := by
    rw [blockStep_legal s _ _ hc hi, execValidateTree_at_first s op y hc]
  have hcheck := blockRun_of_checkRun (s := goTo checkStart s) (c := { op := op, sym := y, pos := checkStart }) (by simp [hc]) hi rfl hv
  rw [blockRun_succ hfirst, hcheck, validateEnd_goTo fun _ _ _ h => checkRun_ne_more (h ▸ hv)]

/-- Settles O51: the check has a verdict within N_NODES + 1 iterations; success reads a tree back, and a tree would have passed. -/
theorem validateTreeDecides : Obligations.ValidateTreeDecides := by
  intro s hs hdone hfault
  obtain ⟨v, hv⟩ : ∃ v, checkRun s.params s.rams (s.params.nNodes + 1) [0#10] [] false = some v :=
    exists_checkRun_verdict (checkOk_start s.params) (by simp)
  refine ⟨s.params.nNodes + 2, validateEnd v s, le_rfl, blockRun_validateTree hs hv, ?_⟩
  cases v with
  | passed => exact ⟨rfl, rfl, .inl ⟨rfl, hfault, rfl, holdsTree_of_checkRun_passed _ _ _ hv⟩⟩
  | more st vis e => exact absurd hv checkRun_ne_more
  | bad sub data =>
    refine ⟨rfl, rfl, .inr ⟨hdone, rfl, rfl, ?_, fun ⟨tree, htree⟩ => ?_⟩⟩
    · change (faultWord 2#4 sub data).toNat % 16 = 2
      rw [faultWord_toNat, BitVec.toNat_ofNat]
      omega
    · cases checkRun_unique hv (checkMicroStepCount _ _ tree htree).1

end Sys2Proof.Machine
end

section
/-! SUPPORT. The micro-steps of the tree check in its three commands (spec/40_tree_check.md R120, R121, spec/41_symbol_decode.md R130,
spec/43_stream.md R150) and the first micro-step of all six, with the whole next state written out. -/

namespace Sys2Proof.Machine

variable {s : State} {op : BitVec 4} {y : Sym} {pos : Pos} {stack visited st vis : List NodeIndex} {e e' : Bool}

/-- Advancing moves the position and clears the WAIT bits (R23). -/
theorem goTo_of_current (q : Pos) (hc : s.current = some { op := op, sym := y, pos := pos }) :
    goTo q s = { s with
      current := some { op := op, sym := y, pos := q }
      status := { s.status with waitIn := false, waitOut := false } } := by
  rw [goTo, hc]
  rfl

theorem startDecode_eq (s : State) : startDecode s = goTo (if s.status.treeOk then walkStart else checkStart) s :=
  (apply_ite (goTo · s) _ _ _).symm

/-- Settles O25: each command's first micro-step is an advance, in the decode commands to the position TREE_OK selects. -/
theorem firstMicroSteps : Obligations.FirstMicroSteps := by
  intro s op y x hc
  refine ⟨_, rfl, ?_, ?_, ?_, ?_, ?_, ?_⟩
  · rw [execValidateTree_at_first s op y hc, goTo_of_current checkStart hc]
    rfl
  · rw [execDecodeSymbol_at_first s op y hc, startDecode_eq, goTo_of_current (s := clearResult s) _ hc]
    rfl
  · rw [execEncodeSymbol_at_first x s op y hc, goTo_of_current _ hc]
  · rw [execFlush_at_first s op y hc, goTo_of_current _ hc]
  · rw [execDecompress_at_first s op y hc, startDecode_eq, goTo_of_current (s := clearSymCount (clearResult s)) _ hc]
    rfl
  · rw [execCompress_at_first s op y hc, goTo_of_current (s := clearSymCount s) _ hc]
    rfl

/-! ### An iteration of the check -/

theorem checkStep_passed (after : State → State) (h : checkIteration s.params s.rams stack visited e = .passed) :
    checkStep after stack visited e s = after (setTreeOk true s) := by
  rw [checkStep, h]

theorem checkStep_bad (after : State → State) {sub : BitVec 4} {data : NodeIndex}
    (h : checkIteration s.params s.rams stack visited e = .bad sub data) :
    checkStep after stack visited e s = raiseFault 2#4 sub data (setTreeOk false s) := by
  rw [checkStep, h]

theorem checkStep_more (after : State → State) (h : checkIteration s.params s.rams stack visited e = .more st vis e') :
    checkStep after stack visited e s = goTo (.check st vis e') s := by
  rw [checkStep, h]

theorem exec_at_check (hc : s.current = some { op := op, sym := y, pos := .check stack visited e }) (i : Instr)
    (hi : i ∈ [Instr.validateTree, .decodeSymbol, .decompress]) :
    ∃ after, exec i s = .next (checkStep after stack visited e s) := by
  simp only [List.mem_cons, List.not_mem_nil, or_false] at hi
  obtain rfl | rfl | rfl := hi
  · exact ⟨finish, execValidateTree_at_check s op y stack visited e hc⟩
  · exact ⟨goTo walkStart, execDecodeSymbol_at_check s op y stack visited e hc⟩
  · exact ⟨goTo walkStart, execDecompress_at_check s op y stack visited e hc⟩

/-- Settles O26: the passing iteration, followed by the end of the command or the advance to the root. -/
theorem treeCheckPasses : Obligations.TreeCheckPasses := by
  intro s op y visited hc
  have hpass (after : State → State) : checkStep after [] visited true s = after (setTreeOk true s) := checkStep_passed after rfl
  have hwalk := goTo_of_current (s := setTreeOk true s) walkStart hc
  refine ⟨?_, fun i hi => ?_⟩
  · rw [execValidateTree_at_check s op y _ _ _ hc, hpass]
    rfl
  · simp only [List.mem_cons, List.not_mem_nil, or_false] at hi
    obtain rfl | rfl := hi
    · rw [execDecodeSymbol_at_check s op y _ _ _ hc, hpass, hwalk]
      rfl
    · rw [execDecompress_at_check s op y _ _ _ hc, hpass, hwalk]
      rfl

/-- FAULT_INFO after TREE_INVALID: code 2, with the sub-code and the index (R180, R183). -/
theorem faultWord_treeInvalid (sub : Nat) (data : NodeIndex) (h : sub < 16) :
    faultWord 2#4 (BitVec.ofNat 4 sub) data = BitVec.ofNat 32 (data.toNat * 0x10000 + sub * 0x10 + 2) := by
  have hdata := data.isLt
  apply BitVec.eq_of_toNat_eq
  rw [faultWord_toNat, BitVec.toNat_ofNat, BitVec.toNat_ofNat, BitVec.toNat_ofNat]
  omega

/-- A failing iteration ends each of the three commands with TREE_INVALID (R121, R183). -/
theorem exec_check_bad {sub : Nat} {data : NodeIndex} (hc : s.current = some { op := op, sym := y, pos := .check stack visited e })
    (hsub : sub < 16) (h : checkIteration s.params s.rams stack visited e = .bad (BitVec.ofNat 4 sub) data) (i : Instr)
    (hi : i ∈ [Instr.validateTree, .decodeSymbol, .decompress]) :
    exec i s = .next { s with
      current := none
      faultInfo := BitVec.ofNat 32 (data.toNat * 0x10000 + sub * 0x10 + 2)
      status := { s.status with treeOk := false, fault := true, waitIn := false, waitOut := false } } := by
  obtain ⟨after, hexec⟩ := exec_at_check hc i hi
  rw [hexec, checkStep_bad after h, raiseFault, faultWord_treeInvalid sub data hsub]
  rfl

/-- Settles O27: one equation of the iteration for each failure. -/
theorem treeCheckFailures : Obligations.TreeCheckFailures := by
  rintro s op y stack visited e sub data hc (⟨rfl, rfl, rfl, rfl⟩ | ⟨rest, rfl,
    ⟨hi, rfl⟩ | ⟨hi, hvis, rfl⟩ | ⟨hi, hnew, hb, ⟨hx, rfl⟩ | ⟨hx, rfl, rfl⟩⟩⟩)
  · exact exec_check_bad (sub := 5) (data := 0#10) hc (by decide) rfl
  · exact exec_check_bad hc (by decide) (checkIteration_outOfRange hi)
  · exact exec_check_bad hc (by decide) (checkIteration_revisited hi hvis)
  · exact exec_check_bad hc (by decide) (checkIteration_badSymbol hi hnew hb (by rwa [nodeSym_toNat]))
  · exact exec_check_bad hc (by decide) (checkIteration_eosLeaf hi hnew hb ((nodeSym_eq_eosSym_iff _).mpr hx))

/-- Settles O28: one equation of the iteration for a Branch, a Leaf and a Leaf with EOS. -/
theorem treeCheckAdvances : Obligations.TreeCheckAdvances := by
  intro s op y j rest visited e hc hj hnew
  refine ⟨_, rfl, fun i hi pos hpos => ?_⟩
  obtain ⟨after, hexec⟩ := exec_at_check hc i hi
  have hstep : checkStep after (j :: rest) visited e s = goTo pos s := by
    obtain ⟨hb, rfl⟩ | ⟨hb, hx, rfl⟩ | ⟨hb, hx, rfl, rfl⟩ := hpos
    · rw [← nodeLeft_eq_ofNat, ← nodeRight_eq_ofNat]
      exact checkStep_more after (checkIteration_branch hj hnew hb)
    · refine checkStep_more after (checkIteration_leaf hj hnew hb ?_ fun h => ?_)
      · rw [nodeSym_toNat]
        exact hx.le
      · exact hx.ne ((nodeSym_eq_eosSym_iff _).mp h)
    · exact checkStep_more after (checkIteration_eosLeaf hj hnew hb ((nodeSym_eq_eosSym_iff _).mpr hx))
  rw [hexec, hstep, goTo_of_current pos hc]

end Sys2Proof.Machine
end

section
/-! SUPPORT. What VALIDATE_TREE and DECODE_SYMBOL leave untouched (spec/40_tree_check.md R120, spec/41_symbol_decode.md R130). -/

namespace Sys2Proof.Machine

/-- `t` has the streams, the results, the counter and the decode flags of `s` (R120). -/
structure DecodeStateKept (s t : State) : Prop where
  input : t.input = s.input
  output : t.output = s.output
  result : t.result = s.result
  symCount : t.symCount = s.symCount
  eos : t.status.eos = s.status.eos
  eoi : t.status.eoi = s.status.eoi
  trunc : t.status.trunc = s.status.trunc

/-- `t` has what DECODE_SYMBOL never writes: the output, SYM_COUNT and TRUNC (R130). -/
structure OutputStateKept (s t : State) : Prop where
  output : t.output = s.output
  symCount : t.symCount = s.symCount
  trunc : t.status.trunc = s.status.trunc

theorem DecodeStateKept.goTo (s : State) (p : Pos) : DecodeStateKept s (goTo p s) := by constructor <;> rfl

variable {s t : State}

/-- An iteration of the check touches nothing of a decode, whatever follows it (R120, R121). -/
theorem checkStep_keeps_decodeState (after : State → State) (stack visited : List NodeIndex) (e : Bool)
    (hafter : DecodeStateKept s (after (setTreeOk true s))) : DecodeStateKept s (checkStep after stack visited e s) := by
  obtain ⟨sub, data, -, ht⟩ | ⟨st, vis, e', -, ht⟩ | ⟨-, ht⟩ := checkStep_cases after stack visited e s <;> rw [ht]
  · constructor <;> rfl
  · exact .goTo s _
  · exact hafter

theorem execValidateTree_keeps_decodeState (h : exec .validateTree s = .next t) : DecodeStateKept s t := by
  obtain ⟨c, -, ⟨-, rfl⟩ | ⟨st, vis, e, -, rfl⟩⟩ := execValidateTree_cases s t h
  · exact .goTo s _
  · exact checkStep_keeps_decodeState finish st vis e (by constructor <;> rfl)

theorem execDecodeSymbol_keeps_outputState (h : exec .decodeSymbol s = .next t) : OutputStateKept s t := by
  obtain ⟨c, -, ⟨-, rfl⟩ | ⟨st, vis, e, -, rfl⟩ | ⟨cur, n, -, rfl⟩⟩ := execDecodeSymbol_cases s t h
  · rw [startDecode_eq]
    constructor <;> rfl
  · have hkept := checkStep_keeps_decodeState (goTo walkStart) st vis e (s := s) (by constructor <;> rfl)
    exact ⟨hkept.output, hkept.symCount, hkept.trunc⟩
  · obtain ⟨-, ht⟩ | ⟨-, -, ht⟩ | ⟨-, -, ht⟩ | ⟨b, q, -, -, ht⟩ :=
      walkStep_cases (fun _ => finish) (raiseFault 5#4 0#4) cur n s <;> rw [ht]
    · exact ⟨rfl, rfl, detect_trunc _ _⟩
    · constructor <;> rfl
    · constructor <;> rfl
    · constructor <;> rfl

/-- Settles O42: what each command leaves untouched at every one of its positions. -/
theorem frameValidateTreeAndDecodeSymbol : Obligations.FrameValidateTreeAndDecodeSymbol := by
  refine fun s t => ⟨fun h => ?_, fun h => ?_⟩
  · obtain ⟨hin, hout, hresult, hcount, heos, heoi, htrunc⟩ := execValidateTree_keeps_decodeState h
    exact ⟨hin, hout, hresult, hcount, heos, heoi, htrunc⟩
  · obtain ⟨hout, hcount, htrunc⟩ := execDecodeSymbol_keeps_outputState h
    exact ⟨hout, hcount, htrunc⟩

end Sys2Proof.Machine
end

section
/-! SUPPORT. One iteration of DecodeSymbol (spec/41_symbol_decode.md R132), one equation per outcome, and the micro-steps of the two decode
commands built on it (R130, spec/43_stream.md R150), with the whole next state written out. -/

namespace Sys2Proof.Machine

/-! ### The bit that is read -/

/-- With IN_BITS > 0 the bit is that at the cursor of IN_SR (R80). -/
theorem readBit_inSr (ended : Bool) (p : InPath) (h : p.bits ≠ 0) :
    readBit ended p = .bit (p.sr.getLsbD (p.bits - 1)) { p with bits := p.bits - 1 } := by
  rw [readBit, if_neg h]
  rfl

/-- With IN_SR empty the bit is the top one of the FIFO's oldest byte (R80). -/
theorem readBit_refill (ended : Bool) (p : InPath) (x : Byte) (rest : List Byte) (h0 : p.bits = 0) (hf : p.fifo = x :: rest) :
    readBit ended p = .bit (x.getLsbD 7) { fifo := rest, sr := x, bits := 7 } := by
  rw [readBit, if_pos h0, hf]
  rfl

/-! ### The outcomes of an iteration -/

variable {s : State} {op : BitVec 4} {y : Sym} {cur : NodeIndex} {n : BitVec 10} {b : Bool} {q : InPath}

theorem walkStep_leaf (onSymbol : Sym → State → State) (onEoi : BitVec 10 → State → State)
    (h : nodeIsBranch (readNode s.rams cur.toNat) = false) :
    walkStep onSymbol onEoi cur n s =
      onSymbol (nodeSym (readNode s.rams cur.toNat)) (returnSymbol (nodeSym (readNode s.rams cur.toNat)) s) := by
  simp only [walkStep, walkIteration, h, Bool.false_eq_true, if_false]

theorem walkStep_eoi (onSymbol : Sym → State → State) (onEoi : BitVec 10 → State → State)
    (h : nodeIsBranch (readNode s.rams cur.toNat) = true) (hr : readBit s.status.inEnd s.input = .eoi) :
    walkStep onSymbol onEoi cur n s = onEoi n (setEoi s) := by
  simp only [walkStep, walkIteration, h, hr, if_true]

theorem walkStep_bit (onSymbol : Sym → State → State) (onEoi : BitVec 10 → State → State)
    (h : nodeIsBranch (readNode s.rams cur.toNat) = true) (hr : readBit s.status.inEnd s.input = .bit b q) :
    walkStep onSymbol onEoi cur n s = goTo (.walk (nodeChild (readNode s.rams cur.toNat) b) (n + 1#10)) (setInput q s) := by
  simp only [walkStep, walkIteration, h, hr, if_true]

/-! ### At a Branch -/

theorem exec_at_walk (hc : s.current = some { op := op, sym := y, pos := .walk cur n }) (i : Instr)
    (hi : i ∈ [Instr.decodeSymbol, .decompress]) :
    ∃ onSymbol onEoi, exec i s = .next (walkStep onSymbol onEoi cur n s) := by
  simp only [List.mem_cons, List.not_mem_nil, or_false] at hi
  obtain rfl | rfl := hi
  · exact ⟨fun _ => finish, raiseFault 5#4 0#4, execDecodeSymbol_at_walk s op y cur n hc⟩
  · exact ⟨decompressSymbol, fun _ t => goTo .flush (setTrunc t), execDecompress_at_walk s op y cur n hc⟩

/-- Both decode commands descend to the child that the bit selects (R132). -/
theorem exec_walk_bit (hc : s.current = some { op := op, sym := y, pos := .walk cur n }) (i : Instr)
    (hi : i ∈ [Instr.decodeSymbol, .decompress]) (h : nodeIsBranch (readNode s.rams cur.toNat) = true)
    (hr : readBit s.status.inEnd s.input = .bit b q) :
    exec i s = .next (goTo (.walk (nodeChild (readNode s.rams cur.toNat) b) (n + 1#10)) (setInput q s)) := by
  obtain ⟨onSymbol, onEoi, hexec⟩ := exec_at_walk hc i hi
  rw [hexec, walkStep_bit onSymbol onEoi h hr]

/-- The child of a Branch as a number: RIGHT for 1, LEFT for 0 (R103). -/
theorem nodeChild_eq_ofNat (w : Word) (b : Bool) :
    nodeChild w b = if b then BitVec.ofNat 10 w.toNat else BitVec.ofNat 10 (w.toNat / 0x10000) := by
  rw [nodeChild, nodeLeft_eq_ofNat, nodeRight_eq_ofNat]

/-- Settles O30: the bit is IN_SR's or, after a refill, the FIFO's. -/
theorem walkReadsBit : Obligations.WalkReadsBit := by
  intro s op y cur n b p hc hbranch hbit i hi
  have hread : readBit s.status.inEnd s.input = .bit b p := by
    obtain ⟨hbits, rfl, rfl⟩ | ⟨hbits, x, rest, hfifo, rfl, rfl⟩ := hbit
    · exact readBit_inSr _ _ hbits
    · exact readBit_refill _ _ x rest hbits hfifo
  rw [exec_walk_bit hc i hi hbranch hread, goTo_of_current (s := setInput p s) _ hc, nodeChild_eq_ofNat]
  rfl

/-- FAULT_INFO after END_OF_INPUT: DATA = CONSUMED (R180, R183). -/
theorem faultWord_endOfInput (consumed : BitVec 10) :
    faultWord 5#4 0#4 consumed = BitVec.ofNat 32 (consumed.toNat * 0x10000 + 5) := by
  have hconsumed := consumed.isLt
  apply BitVec.eq_of_toNat_eq
  rw [faultWord_toNat, BitVec.toNat_ofNat, BitVec.toNat_ofNat, BitVec.toNat_ofNat]
  omega

/-- Settles O31: no bit is left and the input has ended, so the iteration is the fault entry with EOI set. -/
theorem decodeSymbolEndOfInput : Obligations.DecodeSymbolEndOfInput := by
  intro s op y cur n hc hbranch hbits hfifo hend
  have hread : readBit s.status.inEnd s.input = .eoi := by
    rw [readBit_of_source_nil _ _ ((sourceBits_eq_nil_iff _).mpr ⟨hbits, hfifo⟩), hend, if_pos rfl]
  rw [execDecodeSymbol_at_walk s op y cur n hc, walkStep_eoi _ _ hbranch hread, raiseFault, faultWord_endOfInput]
  rfl

/-! ### At a Leaf -/

theorem exec_decodeSymbol_leaf (hc : s.current = some { op := op, sym := y, pos := .walk cur n })
    (h : nodeIsBranch (readNode s.rams cur.toNat) = false) :
    exec .decodeSymbol s = .next (finish (returnSymbol (nodeSym (readNode s.rams cur.toNat)) s)) := by
  rw [execDecodeSymbol_at_walk s op y cur n hc, walkStep_leaf _ _ h]

/-- RESULT has VALID and the symbol (R32). -/
theorem resultWord_eq_ofNat (r : Sym) : resultWord r = BitVec.ofNat 32 (0x80000000 + r.toNat) := by
  have hr := r.isLt
  apply BitVec.eq_of_toNat_eq
  rw [resultWord_toNat, BitVec.toNat_ofNat]
  omega

/-- The flags of a decode that ends: DONE, and EOS where the symbol is 256 (R131, R182). -/
theorem ended_detect (st : Status) (r : Sym) : (st.detect r).ended =
    { st with done := true, waitIn := false, waitOut := false, eos := if r.toNat = 256 then true else st.eos } := by
  have heos : r = eosSym ↔ r.toNat = 256 := BitVec.toNat_inj.symm
  by_cases h : r = eosSym
  · rw [Status.detect, if_pos h, if_pos (heos.mp h)]
    rfl
  · rw [Status.detect, if_neg h, if_neg (mt heos.mpr h)]
    rfl

/-- Settles O29: the Leaf's symbol goes to RESULT and past the sentinel detector, and the command ends. -/
theorem decodeSymbolReturns : Obligations.DecodeSymbolReturns := by
  rintro s op y cur n r hc hleaf rfl
  rw [exec_decodeSymbol_leaf hc hleaf, ← nodeSym_toNat, ← resultWord_eq_ofNat, ← ended_detect]
  rfl

end Sys2Proof.Machine
end

section
/-! SUPPORT. A whole decode (spec/41_symbol_decode.md R130 to R133): from the root, the bits of a codeword lead along its path to its leaf
(spec/44_host_tree_header.md R173). -/

namespace Sys2Proof.Machine

/-! ### The path of a codeword in node RAM -/

section
variable {r : Rams} {i : NodeIndex} {t : PrefixTree} {x : Sym} {b : Bool} {v : List Bool}

/-- The empty codeword is that of a tree that is a Leaf. -/
theorem storedAt.leaf_of_mem_codewords (h : storedAt r i t) (hx : (x, []) ∈ codewords t) :
    nodeIsBranch (readNode r i.toNat) = false ∧ nodeSym (readNode r i.toNat) = x := by
  cases t with
  | leaf z =>
    obtain rfl : x = z := by simpa [codewords] using hx
    exact h
  | branch l rt => simp [codewords] at hx

/-- A codeword that begins with bit `b` goes on below the child that `b` selects. -/
theorem storedAt.child_of_mem_codewords (h : storedAt r i t) (hx : (x, b :: v) ∈ codewords t) :
    nodeIsBranch (readNode r i.toNat) = true ∧
      ∃ u, storedAt r (nodeChild (readNode r i.toNat) b) u ∧ (x, v) ∈ codewords u := by
  cases t with
  | leaf z => simp [codewords] at hx
  | branch l rt =>
    obtain ⟨hbranch, hl, hr⟩ := h
    cases b with
    | false => exact ⟨hbranch, l, hl, by simpa [codewords] using hx⟩
    | true => exact ⟨hbranch, rt, hr, by simpa [codewords] using hx⟩

end

/-! ### The walk -/

/-- An advance overwrites the position and the input path of an advance before it. -/
theorem goTo_setInput_goTo (pos pos' : Pos) (p p' : InPath) (s : State) :
    goTo pos' (setInput p' (goTo pos (setInput p s))) = goTo pos' (setInput p' s) := by
  simp only [goTo, setInput, Option.map_map]
  rfl

variable {s : State} {op : BitVec 4} {y : Sym} {pos : Pos} {i : Instr}

/-- The walk of either decode command takes a codeword at the head of the source, one bit in each micro-step, and stands at its leaf
(R132). -/
theorem blockRun_walk (hc : s.current = some { op := op, sym := y, pos := pos }) (hd : decodeFields op y = .ok i)
    (hi : i ∈ [Instr.decodeSymbol, .decompress]) {x : Sym} {word rest : List Bool} {tree : PrefixTree} {cur : NodeIndex}
    {n : BitVec 10} {p : InPath} (hstored : storedAt s.rams cur tree) (hx : (x, word) ∈ codewords tree)
    (hp : sourceBits p = word ++ rest) (k : Nat) :
    ∃ leaf m q, nodeIsBranch (readNode s.rams leaf.toNat) = false ∧ nodeSym (readNode s.rams leaf.toNat) = x ∧
      sourceBits q = rest ∧
      blockRun (word.length + k) (goTo (.walk cur n) (setInput p s)) = blockRun k (goTo (.walk leaf m) (setInput q s)) := by
  induction word generalizing tree cur n p with
  | nil =>
    obtain ⟨hleaf, hsym⟩ := hstored.leaf_of_mem_codewords hx
    exact ⟨cur, n, p, hleaf, hsym, hp, by rw [List.length_nil, Nat.zero_add]⟩
  | cons b v ih =>
    obtain ⟨hbranch, u, hu, hxu⟩ := hstored.child_of_mem_codewords hx
    obtain ⟨p', hread, hp'⟩ := readBit_of_source_cons s.status.inEnd p b (v ++ rest) hp
    have hcur : (goTo (.walk cur n) (setInput p s)).current = some { op := op, sym := y, pos := .walk cur n } := by simp [hc]
    have hstep : blockStep (goTo (.walk cur n) (setInput p s)) =
        .next (goTo (.walk (nodeChild (readNode s.rams cur.toNat) b) (n + 1#10)) (setInput p' s)) := by
      rw [blockStep_legal _ _ i hcur hd, exec_walk_bit hcur i hi hbranch hread, goTo_setInput_goTo]
      rfl
    obtain ⟨leaf, m, q, hleaf, hsym, hq, hrun⟩ := ih hu hxu hp'
    exact ⟨leaf, m, q, hleaf, hsym, hq, by rw [List.length_cons, Nat.add_right_comm, blockRun_succ hstep, hrun]⟩

/-- Settles O53: the first micro-step goes to the root, the walk takes the codeword, and the micro-step at its leaf ends the command. -/
theorem decodeSymbolDecodes : Obligations.DecodeSymbolDecodes := by
  rintro s tree x word rest ⟨⟨op, y, pos⟩, hc, hd, rfl⟩ htree heos hstored hx hsource
  have hfirst : blockStep s = .next (goTo walkStart (setInput s.input (clearResult s))) := by
    rw [blockStep_legal s _ _ hc hd, execDecodeSymbol_at_first s op y hc, startDecode_eq, clearResult_status, htree]
    rfl
  obtain ⟨leaf, m, q, hleaf, rfl, hq, hrun⟩ :=
    blockRun_walk (s := clearResult s) (n := 0#10) hc hd (.head _) hstored hx hsource 1
  have hcur : (goTo (.walk leaf m) (setInput q (clearResult s))).current = some { op := op, sym := y, pos := .walk leaf m } := by
    simp [hc]
  have hlast := (blockStep_legal _ _ _ hcur hd).trans (exec_decodeSymbol_leaf hcur hleaf)
  refine ⟨_, (blockRun_succ hfirst).trans (hrun.trans (blockRun_succ hlast)), rfl, rfl, ?_, resultWord_eq_ofNat _, ?_, hq, rfl⟩
  · simp
  · change _ ↔ _ = eosSym
    simp [heos]

end Sys2Proof.Machine
end

section
/-! SUPPORT. The lookup of EncodeSymbol and the bits of its codeword (spec/42_symbol_encode.md R140, R142, spec/30_encoding.md R104), with
the whole next state written out. -/

namespace Sys2Proof.Machine

variable {s : State} {op : BitVec 4} {y x : Sym} {len j : Nat} {q : OutPath}

/-! ### The next codeword bit -/

/-- What a micro-step of EncodeSymbol leads to when codeword bit j is the next: the position of that bit, or `after` where the codeword has
no more (R142). -/
def codeFrom (after : State → State) (x : Sym) (len j : Nat) (s : State) : State :=
  if j < len then goTo (.code x len j) s else after s

theorem codeFrom_bit (after : State → State) (h : j < len) : codeFrom after x len j s = goTo (.code x len j) s := if_pos h

theorem codeFrom_end (after : State → State) (h : len ≤ j) : codeFrom after x len j s = after s := if_neg h.not_gt

theorem writeStep_bit {b : Bool} (k : State → State) (h : writeBit s.params.outDepth b s.output = some q) :
    writeStep b k s = k (setOutput q s) := by
  rw [writeStep, h]

theorem codeStep_bit (after : State → State) (h : writeBit s.params.outDepth (codeBit s.rams x j) s.output = some q) :
    codeStep after x len j s = codeFrom after x len (j + 1) (setOutput q s) :=
  writeStep_bit _ h

/-- The micro-step of a codeword bit is held, or writes the bit (R82, R142). -/
theorem codeStep_cases (after : State → State) (x : Sym) (len j : Nat) (s : State) :
    codeStep after x len j s = holdOut s ∨ ∃ q, codeStep after x len j s = codeFrom after x len (j + 1) (setOutput q s) :=
  (writeStep_cases _ _ s).imp And.right fun ⟨q, _, ht⟩ => ⟨q, ht⟩

/-! ### The branches of the lookup -/

/-- LEN as a number (R104). -/
theorem cfgLen_eq_mod (c : Word) : cfgLen c = c.toNat % 512 := by
  rw [cfgLen, BitVec.extractLsb'_toNat, Nat.shiftRight_zero]

theorem lookupStep_unknown (after : State → State) (h : 256 < x.toNat ∨ cfgValid (readCfg s.rams x.toNat) = false) :
    lookupStep after x s = raiseFault 3#4 0#4 (x.setWidth 10) s := by
  by_cases hx : 256 < x.toNat
  · rw [lookupStep, if_pos hx]
  · rw [lookupStep, if_neg hx, h.resolve_left hx, if_neg Bool.false_ne_true]

theorem lookupStep_badLen (after : State → State) (hx : x.toNat ≤ 256) (hvalid : cfgValid (readCfg s.rams x.toNat) = true)
    (hlen : 256 < cfgLen (readCfg s.rams x.toNat)) : lookupStep after x s = raiseFault 4#4 0#4 (x.setWidth 10) s := by
  rw [lookupStep, if_neg hx.not_gt, if_pos hvalid, if_pos hlen]

/-- The lookup of a usable slot leads to bit 0 of its codeword (R142). -/
theorem lookupStep_usable (after : State → State) (h : slotUsable s.rams x) :
    lookupStep after x s = codeFrom after x (cfgLen (readCfg s.rams x.toNat)) 0 s := by
  obtain ⟨hx, hvalid, hlen⟩ := h
  rw [lookupStep, if_neg hx.not_gt, if_pos hvalid, if_neg hlen.not_gt]
  by_cases h0 : cfgLen (readCfg s.rams x.toNat) = 0
  · rw [if_pos h0, codeFrom_end after h0.le]
  · rw [if_neg h0, codeFrom_bit after (Nat.pos_of_ne_zero h0)]

/-! ### The commands -/

/-- Command `i` encodes symbol x by EncodeSymbol and goes on with `after` (R140, R152). -/
structure EncodesThen (i : Instr) (after : State → State) (x : Sym) : Prop where
  lookup : ∀ s op y, s.current = some { op := op, sym := y, pos := .lookup x } → exec i s = .next (lookupStep after x s)
  code : ∀ s op y len j, s.current = some { op := op, sym := y, pos := .code x len j } → exec i s = .next (codeStep after x len j s)

theorem encodesThen_encodeSymbol (z x : Sym) : EncodesThen (.encodeSymbol z) finish x where
  lookup s op y := execEncodeSymbol_at_lookup z s op y x
  code s op y := execEncodeSymbol_at_code z s op y x

theorem encodesThen_compress (x : Sym) : EncodesThen .compress (afterCodeword x) x where
  lookup s op y := execCompress_at_lookup s op y x
  code s op y := execCompress_at_code s op y x

theorem exists_encodesThen (z x : Sym) (i : Instr) (hi : i ∈ [Instr.encodeSymbol z, .compress]) : ∃ after, EncodesThen i after x := by
  simp only [List.mem_cons, List.not_mem_nil, or_false] at hi
  obtain rfl | rfl := hi
  · exact ⟨finish, encodesThen_encodeSymbol z x⟩
  · exact ⟨afterCodeword x, encodesThen_compress x⟩

/-- FAULT_INFO after a fault of the lookup: the code, no sub-code, DATA = the symbol (R180, R183). -/
theorem faultWord_lookup (code : Nat) (x : Sym) (h : code < 16) :
    faultWord (BitVec.ofNat 4 code) 0#4 (x.setWidth 10) = BitVec.ofNat 32 (x.toNat * 0x10000 + code) := by
  have hx := x.isLt
  apply BitVec.eq_of_toNat_eq
  rw [faultWord_toNat, BitVec.toNat_setWidth, BitVec.toNat_ofNat, BitVec.toNat_ofNat, BitVec.toNat_ofNat]
  omega

/-- Settles O33: one equation of the lookup for each fault. -/
theorem lookupFaults : Obligations.LookupFaults := by
  intro s op y x z code hc hslot i hi
  obtain ⟨after, hencode⟩ := exists_encodesThen z x i hi
  have hfault : code < 16 ∧ lookupStep after x s = raiseFault (BitVec.ofNat 4 code) 0#4 (x.setWidth 10) s := by
    obtain ⟨hx, rfl⟩ | ⟨-, hvalid, rfl⟩ | ⟨hx, hvalid, hlen, rfl⟩ := hslot
    · exact ⟨by decide, lookupStep_unknown after (.inl hx)⟩
    · exact ⟨by decide, lookupStep_unknown after (.inr hvalid)⟩
    · exact ⟨by decide, lookupStep_badLen after hx hvalid (by rwa [cfgLen_eq_mod])⟩
  rw [hencode.lookup s op y hc, hfault.2, raiseFault, faultWord_lookup code x hfault.1]
  rfl

/-- Settles O34: a usable slot leads to bit 0 of its codeword, which an empty one does not have. -/
theorem lookupStartsCodeword : Obligations.LookupStartsCodeword := by
  rintro s op y x z len hc hx hvalid rfl hlen
  rw [← cfgLen_eq_mod] at hlen ⊢
  have husable : slotUsable s.rams x := ⟨hx, hvalid, hlen⟩
  refine ⟨fun h0 => ?_, fun hpos i hi => ?_⟩
  · rw [execEncodeSymbol_at_lookup z s op y x hc, lookupStep_usable _ husable, codeFrom_end _ h0.le]
    rfl
  · obtain ⟨after, hencode⟩ := exists_encodesThen z x i hi
    rw [hencode.lookup s op y hc, lookupStep_usable after husable, codeFrom_bit after hpos, goTo_of_current _ hc]

/-- Settles O35: the written bit is followed by the next one or by the end of the command. -/
theorem encodeSymbolWritesBit : Obligations.EncodeSymbolWritesBit := by
  intro s op y x z len j q hc hq
  have hexec : exec (.encodeSymbol z) s = .next (codeFrom finish x len (j + 1) (setOutput q s)) := by
    rw [execEncodeSymbol_at_code z s op y x len j hc, codeStep_bit finish hq]
  refine ⟨fun hmore => ?_, fun hlast => ?_⟩
  · rw [hexec, codeFrom_bit _ hmore, goTo_of_current (s := setOutput q s) _ hc]
    rfl
  · rw [hexec, codeFrom_end _ hlast]
    rfl

end Sys2Proof.Machine
end

section
/-! SUPPORT. The Flush micro-step (spec/20_memory.md R83, spec/42_symbol_encode.md R141), and what ENCODE_SYMBOL and FLUSH leave untouched
(R140, R141). -/

namespace Sys2Proof.Machine

/-! ### Flush -/

/-- The byte of Flush as a number (R83). -/
theorem flushByte_eq_ofNat (p : OutPath) : flushByte p = BitVec.ofNat 8 (p.acc.toNat * 2 ^ (8 - p.bits)) := by
  have hacc := p.acc.isLt
  apply BitVec.eq_of_toNat_eq
  rw [flushByte, BitVec.toNat_shiftLeft, BitVec.toNat_setWidth, BitVec.toNat_ofNat, Nat.shiftLeft_eq,
    Nat.mod_eq_of_lt (show p.acc.toNat < 2 ^ 8 by omega)]

theorem flushStep_done (s : State) {q : OutPath} (h : flushOut s.params.outDepth s.output = some q) :
    flushStep s = finish (setOutput q s) := by
  rw [flushStep, h]

theorem exec_at_flush {s : State} {op : BitVec 4} {y : Sym} (hc : s.current = some { op := op, sym := y, pos := .flush }) (i : Instr)
    (hi : i ∈ [Instr.flush, .decompress, .compress]) : exec i s = .next (flushStep s) := by
  simp only [List.mem_cons, List.not_mem_nil, or_false] at hi
  obtain rfl | rfl | rfl := hi
  · exact execFlush_at_flush s op y hc
  · exact execDecompress_at_flush s op y hc
  · exact execCompress_at_flush s op y hc

/-- Settles O36: by whether there is a partial byte. -/
theorem flushEndsCommand : Obligations.FlushEndsCommand := by
  intro s op y hc hroom i hi
  rw [exec_at_flush hc i hi]
  by_cases h0 : s.output.bits = 0
  · rw [flushStep_done s (flushOut_aligned _ _ h0), if_pos h0]
    rfl
  · rw [flushStep_done s (flushOut_partial _ _ h0 (hroom.resolve_left h0)), if_neg h0, flushByte_eq_ofNat]
    rfl

/-! ### Frames -/

/-- `t` has what ENCODE_SYMBOL never writes: the input, RESULT, SYM_COUNT and the flags of decodes (R140). -/
structure EncodeFrame (s t : State) : Prop where
  input : t.input = s.input
  result : t.result = s.result
  symCount : t.symCount = s.symCount
  eos : t.status.eos = s.status.eos
  eoi : t.status.eoi = s.status.eoi
  trunc : t.status.trunc = s.status.trunc
  treeOk : t.status.treeOk = s.status.treeOk

/-- `t` has what FLUSH never writes: besides, FAULT and FAULT_INFO (R141). -/
structure FlushFrame (s t : State) : Prop extends EncodeFrame s t where
  fault : t.status.fault = s.status.fault
  faultInfo : t.faultInfo = s.faultInfo

variable {s t : State}

/-- A step to the next codeword bit or to the end of the command, with the output written before it. -/
theorem EncodeFrame.codeFrom (s : State) (q : OutPath) (x : Sym) (len j : Nat) :
    EncodeFrame s (codeFrom finish x len j (setOutput q s)) := by
  unfold Machine.codeFrom
  split <;> constructor <;> rfl

theorem execEncodeSymbol_frame {sym : Sym} (h : exec (.encodeSymbol sym) s = .next t) : EncodeFrame s t := by
  obtain ⟨c, -, ⟨-, rfl⟩ | ⟨x, -, rfl⟩ | ⟨x, len, j, -, rfl⟩⟩ := execEncodeSymbol_cases sym s t h
  · constructor <;> rfl
  · obtain ⟨code, -, ht⟩ | ⟨-, -, -, ⟨-, ht⟩ | ⟨-, ht⟩⟩ := lookupStep_cases finish x s <;> rw [ht] <;> constructor <;> rfl
  · obtain ht | ⟨q, ht⟩ := codeStep_cases finish x len j s <;> rw [ht]
    · constructor <;> rfl
    · exact .codeFrom s q x len (j + 1)

theorem execFlush_frame (h : exec .flush s = .next t) : FlushFrame s t := by
  obtain ⟨c, -, ⟨-, rfl⟩ | ⟨-, rfl⟩⟩ := execFlush_cases s t h
  · exact ⟨by constructor <;> rfl, rfl, rfl⟩
  · obtain ⟨-, ht⟩ | ⟨q, -, ht⟩ := flushStep_cases s <;> rw [ht] <;> exact ⟨by constructor <;> rfl, rfl, rfl⟩

/-- Settles O43: what each command leaves untouched at every one of its positions. -/
theorem frameEncodeSymbolAndFlush : Obligations.FrameEncodeSymbolAndFlush := by
  refine fun s t => ⟨fun x h => ?_, fun h => ?_⟩
  · obtain ⟨hin, hresult, hcount, heos, heoi, htrunc, htree⟩ := execEncodeSymbol_frame h
    exact ⟨hin, hresult, hcount, heos, heoi, htrunc, htree⟩
  · obtain ⟨⟨hin, hresult, hcount, heos, heoi, htrunc, htree⟩, hfault, hinfo⟩ := execFlush_frame h
    exact ⟨hin, hresult, hcount, heos, heoi, htrunc, htree, hfault, hinfo⟩

end Sys2Proof.Machine
end

section
/-! SUPPORT. A whole encode (spec/42_symbol_encode.md R140, R142, spec/20_memory.md R82): where the output has room, the micro-steps of
EncodeSymbol append the slot's codeword, whichever command runs them. -/

namespace Sys2Proof.Machine

/-! ### Room in the output -/

/-- `n` more bits find room in the output path (R82). -/
def OutRoom (depth n : Nat) (p : OutPath) : Prop := p.bits ≤ 7 ∧ p.fifo.length + (p.bits + n) / 8 ≤ depth

/-- A bit with room is written, and the room of the bits after it is left (R82). -/
theorem OutRoom.writeBit {depth n : Nat} {p : OutPath} (h : OutRoom depth (n + 1) p) (b : Bool) :
    ∃ q, writeBit depth b p = some q ∧ OutRoom depth n q ∧ sinkBits q = sinkBits p ++ [b] ∧ q.count = p.count + 1#32 := by
  obtain ⟨hbits, hroom⟩ := h
  obtain ⟨hnone, hsome⟩ := writeBitAppends depth b p hbits
  cases hq : Machine.writeBit depth b p with
  | none =>
    obtain ⟨h7, hfull⟩ := hnone.mp hq
    omega
  | some q =>
    obtain ⟨hsink, hcount, hbits', hfifo⟩ := hsome q hq
    exact ⟨q, rfl, ⟨by omega, by omega⟩, hsink, hcount⟩

/-! ### The codeword -/

theorem length_slotCodeword (r : Rams) (x : Sym) : (slotCodeword r x).length = cfgLen (readCfg r x.toNat) := by
  simp [slotCodeword]

/-- An advance overwrites the position of an advance before it. -/
theorem goTo_goTo (pos pos' : Pos) (s : State) : goTo pos' (goTo pos s) = goTo pos' s := by
  simp only [goTo, Option.map_map]
  rfl

variable {s : State} {op : BitVec 4} {y x : Sym} {pos : Pos} {i : Instr} {after : State → State}

/-- Codeword bits j to j + n - 1, the last ones of the codeword, are written one in each micro-step, and `after` follows (R142). The room of
`m` bits more is left. -/
theorem blockRun_code (hc : s.current = some { op := op, sym := y, pos := pos }) (hd : decodeFields op y = .ok i)
    (he : EncodesThen i after x) {len j n m : Nat} (hn : j + n = len) {pos' : Pos} {p : OutPath}
    (hroom : OutRoom s.params.outDepth (n + m) p) (k : Nat) :
    ∃ last q, OutRoom s.params.outDepth m q ∧ sinkBits q = sinkBits p ++ (List.range' j n).map (codeBit s.rams x) ∧
      q.count = p.count + BitVec.ofNat 32 n ∧
      blockRun (n + k) (codeFrom after x len j (goTo pos' (setOutput p s))) = blockRun k (after (goTo last (setOutput q s))) := by
  induction n generalizing j pos' p with
  | zero =>
    refine ⟨pos', p, by rwa [Nat.zero_add] at hroom, by simp, by simp, ?_⟩
    rw [codeFrom_end after (by omega), Nat.zero_add]
  | succ n ih =>
    rw [Nat.add_right_comm] at hroom
    obtain ⟨p', hwrite, hroom', hsink, hcount⟩ := hroom.writeBit (codeBit s.rams x j)
    obtain ⟨last, q, hq, hsink', hcount', hrun⟩ := ih (j := j + 1) (pos' := .code x len j) (by omega) hroom'
    have hcur : (goTo (.code x len j) (setOutput p s)).current = some { op := op, sym := y, pos := .code x len j } := by simp [hc]
    have hstep : blockStep (goTo (.code x len j) (setOutput p s)) =
        .next (codeFrom after x len (j + 1) (goTo (.code x len j) (setOutput p' s))) := by
      rw [blockStep_legal _ _ i hcur hd, he.code _ _ _ _ _ hcur, codeStep_bit after hwrite]
      rfl
    refine ⟨last, q, hq, ?_, ?_, ?_⟩
    · rw [hsink', hsink, List.range'_succ, List.map_cons, List.append_assoc, List.singleton_append]
    · rw [hcount', hcount, BitVec.add_assoc, Nat.add_comm n 1, BitVec.ofNat_add]
    · rw [codeFrom_bit after (by omega), goTo_goTo, Nat.add_right_comm, blockRun_succ hstep, hrun]

/-- The lookup of a usable slot and the micro-steps of its bits append its codeword, and `after` follows (R142). -/
theorem blockRun_encode (hc : s.current = some { op := op, sym := y, pos := pos }) (hd : decodeFields op y = .ok i)
    (he : EncodesThen i after x) (hslot : slotUsable s.rams x) {m : Nat} {p : OutPath}
    (hroom : OutRoom s.params.outDepth ((slotCodeword s.rams x).length + m) p) (k : Nat) :
    ∃ last q, OutRoom s.params.outDepth m q ∧ sinkBits q = sinkBits p ++ slotCodeword s.rams x ∧
      q.count = p.count + BitVec.ofNat 32 (slotCodeword s.rams x).length ∧
      blockRun ((slotCodeword s.rams x).length + k + 1) (goTo (.lookup x) (setOutput p s)) =
        blockRun k (after (goTo last (setOutput q s))) := by
  have hcur : (goTo (.lookup x) (setOutput p s)).current = some { op := op, sym := y, pos := .lookup x } := by simp [hc]
  have hfirst := blockStep_legal _ _ i hcur hd
  rw [he.lookup _ _ _ hcur, lookupStep_usable (s := goTo (.lookup x) (setOutput p s)) after hslot] at hfirst
  obtain ⟨last, q, hq, hsink, hcount, hrun⟩ := blockRun_code hc hd he (Nat.zero_add _) (pos' := .lookup x) hroom k
  refine ⟨last, q, hq, ?_, hcount, ?_⟩
  · rw [hsink, length_slotCodeword, ← List.range_eq_range', slotCodeword]
  · rw [blockRun_succ hfirst, ← hrun, length_slotCodeword]
    rfl

/-- Settles O54: the first micro-step goes to the lookup, and the command ends after the last codeword bit. -/
theorem encodeSymbolEncodes : Obligations.EncodeSymbolEncodes := by
  rintro s x ⟨⟨op, y, pos⟩, hc, hd, rfl⟩ hslot hbits hroom
  have hfirst : blockStep s = .next (goTo (.lookup x) (setOutput s.output s)) := by
    rw [blockStep_legal s _ _ hc hd, execEncodeSymbol_at_first x s op y hc]
    rfl
  obtain ⟨last, q, -, hsink, hcount, hrun⟩ := blockRun_encode (m := 0) hc hd (encodesThen_encodeSymbol x x) hslot
    ⟨hbits, hroom⟩ 0
  exact ⟨finish (goTo last (setOutput q s)), (blockRun_succ hfirst).trans hrun, rfl, rfl, rfl, hsink, hcount, rfl⟩

end Sys2Proof.Machine
end

section
/-! SUPPORT. The micro-steps of DECOMPRESS and COMPRESS (spec/43_stream.md R150 to R153), with the whole next state written out. -/

namespace Sys2Proof.Machine

variable {s : State} {op : BitVec 4} {y : Sym}

/-! ### DECOMPRESS -/

theorem decompressSymbol_eq (r : Sym) (s : State) :
    decompressSymbol r s = goTo (if r = eosSym then .flush else .emit r 7) s :=
  (apply_ite (goTo · s) _ _ _).symm

theorem nodeSym_eq_ofNat (n : Word) : nodeSym n = BitVec.ofNat 9 n.toNat :=
  BitVec.eq_of_toNat_eq (by rw [nodeSym_toNat, BitVec.toNat_ofNat])

/-- The flags of an advance after a decode: EOS is set where the symbol is 256 (R23, R131). -/
theorem noWait_detect (st : Status) (r : Sym) : (st.detect r).noWait =
    { st with waitIn := false, waitOut := false, eos := if r = eosSym then true else st.eos } := by
  by_cases h : r = eosSym
  · rw [Status.detect, if_pos h, if_pos h]
    rfl
  · rw [Status.detect, if_neg h, if_neg h]
    rfl

/-- Settles O37: at a Leaf the symbol decides between Flush and its first bit; after a bit, its number between the count and the next. -/
theorem decompressSymbol_microSteps : Obligations.DecompressSymbol := by
  refine fun s op y => ⟨?_, fun r k q hc hq => ?_⟩
  · rintro cur consumed r hc hleaf rfl
    rw [execDecompress_at_walk s op y cur consumed hc, walkStep_leaf _ _ hleaf, decompressSymbol_eq, ← nodeSym_eq_ofNat,
      ← resultWord_eq_ofNat, goTo, returnSymbol_current, hc, returnSymbol_status, noWait_detect]
    rfl
  · rw [execDecompress_at_emit s op y r k hc, writeStep_bit _ hq, afterEmit]
    by_cases hk : k = 0
    · rw [if_pos hk, if_pos hk, if_pos hk, goTo_of_current (s := countSymbol (setOutput q s)) walkStart hc]
      rfl
    · rw [if_neg hk, if_neg hk, if_neg hk, goTo_of_current (s := setOutput q s) _ hc]
      rfl

/-- Settles O38: no bit is left and the input has ended, so the iteration is the advance to Flush with EOI and TRUNC set. -/
theorem decompressTruncates : Obligations.DecompressTruncates := by
  intro s op y cur n hc hbranch hbits hfifo hend
  have hread : readBit s.status.inEnd s.input = .eoi := by
    rw [readBit_of_source_nil _ _ ((sourceBits_eq_nil_iff _).mpr ⟨hbits, hfifo⟩), hend, if_pos rfl]
  rw [execDecompress_at_walk s op y cur n hc, walkStep_eoi _ _ hbranch hread, goTo_of_current (s := setTrunc (setEoi s)) _ hc]
  rfl

/-! ### COMPRESS reads -/

theorem readStep_byte {v : Byte} {q : InPath} (h : readBits8 s.status.inEnd s.input = .byte v q) :
    readStep s = goTo (.lookup (byteSym v)) (countSymbol (setInput q s)) := by
  rw [readStep, h]
  rfl

theorem readStep_eoi (h : (sourceBits s.input).length < 8) (hend : s.status.inEnd = true) :
    readStep s = goTo (.lookup eosSym) (setEoi s) := by
  rw [readStep, readBits8_short _ _ h, hend, if_pos rfl]

theorem byteSym_eq_ofNat (b : Byte) : byteSym b = BitVec.ofNat 9 b.toNat := (BitVec.ofNat_toNat 9 b).symm

/-- Settles O39: by what ReadBits8 answers. -/
theorem compressReads : Obligations.CompressReads := by
  refine fun s op y hc => ⟨fun v q hq => ?_, fun hshort hend => ?_⟩
  · rw [execCompress_at_read s op y hc, readStep_byte hq, byteSym_eq_ofNat,
      goTo_of_current (s := countSymbol (setInput q s)) _ hc]
    rfl
  · have hlen : (sourceBits s.input).length < 8 := by rwa [length_sourceBits]
    rw [execCompress_at_read s op y hc, readStep_eoi hlen hend, goTo_of_current (s := setEoi s) _ hc]
    rfl

/-! ### COMPRESS writes -/

/-- What follows a bit of COMPRESS when `left` padding bits are still to write: the position of the next one, or Flush (R152). -/
def padFrom (left : Nat) (s : State) : State := goTo (if left = 0 then .flush else .pad left) s

theorem startPad_eq (s : State) : startPad s = padFrom (padCount s.output) s := (apply_ite (goTo · s) _ _ _).symm

theorem afterPad_eq (left : Nat) (s : State) : afterPad left s = padFrom (left - 1) s := by
  simp only [afterPad, padFrom, Nat.sub_eq_zero_iff_le, apply_ite (goTo · s)]

/-- After a byte's codeword COMPRESS reads on, after the terminator's it pads (R152, R153). -/
theorem afterCodeword_eq (x : Sym) (s : State) :
    afterCodeword x s = goTo
      (if x ≠ eosSym then .read else if padCount s.output = 0 then .flush else .pad (padCount s.output)) s := by
  by_cases h : x = eosSym
  · rw [afterCodeword, if_pos h, if_neg (not_not.mpr h), startPad_eq, padFrom]
  · rw [afterCodeword, if_neg h, if_pos h]

/-- Settles O40: a codeword bit is followed by the next one or by what follows the codeword, a padding bit by the next one or Flush. -/
theorem compressWritesAndPads : Obligations.CompressWritesAndPads := by
  refine fun s op y b q hq => ⟨fun x len j hc hb => ?_, fun left hc hb => ?_⟩
  · rw [execCompress_at_code s op y x len j hc, codeStep_bit _ (hb ▸ hq), codeFrom, afterCodeword_eq,
      ← apply_ite (goTo · (setOutput q s)), goTo_of_current (s := setOutput q s) _ hc]
    rfl
  · subst hb
    rw [execCompress_at_pad s op y left hc, writeStep_bit _ hq, afterPad, ← apply_ite (goTo · (setOutput q s)),
      goTo_of_current (s := setOutput q s) _ hc]
    rfl

end Sys2Proof.Machine
end

section
/-! SUPPORT. What DECOMPRESS and COMPRESS leave untouched (spec/43_stream.md R150, R152, R155). -/

namespace Sys2Proof.Machine

/-- From `s` to `t` at most one of the two streams changes, and neither they nor the results change with FAULT (R155, R183). -/
structure StreamFrame (s t : State) : Prop where
  oneStream : t.input = s.input ∨ t.output = s.output
  faulted : t.status.fault ≠ s.status.fault →
    t.input = s.input ∧ t.output = s.output ∧ t.symCount = s.symCount ∧ t.result = s.result

/-- `t` has besides what COMPRESS never writes: RESULT, EOS, TRUNC and TREE_OK (R152). -/
structure CompressFrame (s t : State) : Prop extends StreamFrame s t where
  result : t.result = s.result
  eos : t.status.eos = s.status.eos
  trunc : t.status.trunc = s.status.trunc
  treeOk : t.status.treeOk = s.status.treeOk

variable {s t : State}

theorem StreamFrame.of_fault_eq (hs : t.input = s.input ∨ t.output = s.output) (hf : t.status.fault = s.status.fault) :
    StreamFrame s t :=
  ⟨hs, fun hne => absurd hf hne⟩

theorem StreamFrame.checkStep (st vis : List NodeIndex) (e : Bool) (s : State) :
    StreamFrame s (checkStep (goTo walkStart) st vis e s) := by
  obtain ⟨sub, data, -, ht⟩ | ⟨st', vis', e', -, ht⟩ | ⟨-, ht⟩ := checkStep_cases (goTo walkStart) st vis e s <;> rw [ht]
  · exact ⟨.inl rfl, fun _ => ⟨rfl, rfl, rfl, rfl⟩⟩
  · exact .of_fault_eq (.inl rfl) rfl
  · exact .of_fault_eq (.inl rfl) rfl

theorem execDecompress_frame (h : exec .decompress s = .next t) : StreamFrame s t := by
  obtain ⟨c, -, ⟨-, rfl⟩ | ⟨st, vis, e, -, rfl⟩ | ⟨cur, n, -, rfl⟩ | ⟨r, k, -, rfl⟩ | ⟨-, rfl⟩⟩ := execDecompress_cases s t h
  · rw [startDecode_eq]
    exact .of_fault_eq (.inl rfl) rfl
  · exact .checkStep st vis e s
  · obtain ⟨-, ht⟩ | ⟨-, -, ht⟩ | ⟨-, -, ht⟩ | ⟨b, q, -, -, ht⟩ :=
      walkStep_cases decompressSymbol (fun _ u => goTo .flush (setTrunc u)) cur n s <;> rw [ht]
    · rw [decompressSymbol_eq]
      exact .of_fault_eq (.inl rfl) (detect_fault _ _)
    · exact .of_fault_eq (.inl rfl) rfl
    · exact .of_fault_eq (.inl rfl) rfl
    · exact .of_fault_eq (.inr rfl) rfl
  · obtain ⟨-, ht⟩ | ⟨q, -, ht⟩ := writeStep_cases (r.getLsbD k) (afterEmit r k) s <;> rw [ht]
    · exact .of_fault_eq (.inl rfl) rfl
    · unfold afterEmit
      split <;> exact .of_fault_eq (.inl rfl) rfl
  · obtain ⟨-, ht⟩ | ⟨q, -, ht⟩ := flushStep_cases s <;> rw [ht] <;> exact .of_fault_eq (.inl rfl) rfl

/-- An advance writes nothing but the position and the WAIT bits (R23). -/
theorem CompressFrame.goTo {u : State} (h : CompressFrame s u) (p : Pos) : CompressFrame s (goTo p u) := { h with }

theorem CompressFrame.setOutput (s : State) (q : OutPath) : CompressFrame s (setOutput q s) :=
  ⟨.of_fault_eq (.inl rfl) rfl, rfl, rfl, rfl, rfl⟩

theorem CompressFrame.refl (s : State) : CompressFrame s s := .setOutput s s.output

theorem CompressFrame.lookupStep (x : Sym) (s : State) : CompressFrame s (lookupStep (afterCodeword x) x s) := by
  obtain ⟨code, -, ht⟩ | ⟨-, -, -, ⟨-, ht⟩ | ⟨-, ht⟩⟩ := lookupStep_cases (afterCodeword x) x s <;> rw [ht]
  · exact ⟨⟨.inl rfl, fun _ => ⟨rfl, rfl, rfl, rfl⟩⟩, rfl, rfl, rfl, rfl⟩
  · rw [afterCodeword_eq]
    exact (refl s).goTo _
  · exact (refl s).goTo _

theorem execCompress_frame (h : exec .compress s = .next t) : CompressFrame s t := by
  obtain ⟨c, -, ⟨-, rfl⟩ | ⟨-, rfl⟩ | ⟨x, -, rfl⟩ | ⟨x, len, j, -, rfl⟩ | ⟨left, -, rfl⟩ | ⟨-, rfl⟩⟩ := execCompress_cases s t h
  · exact ⟨.of_fault_eq (.inl rfl) rfl, rfl, rfl, rfl, rfl⟩
  · obtain ⟨-, ht⟩ | ⟨-, ht⟩ | ⟨v, q, -, ht⟩ := readStep_cases s <;> rw [ht] <;>
      exact ⟨.of_fault_eq (.inr rfl) rfl, rfl, rfl, rfl, rfl⟩
  · exact .lookupStep x s
  · obtain ht | ⟨q, ht⟩ := codeStep_cases (afterCodeword x) x len j s <;> rw [ht]
    · exact { CompressFrame.refl s with }
    · rw [codeFrom, afterCodeword_eq]
      split <;> exact (CompressFrame.setOutput s q).goTo _
  · obtain ⟨-, ht⟩ | ⟨q, -, ht⟩ := writeStep_cases false (afterPad left) s <;> rw [ht]
    · exact { CompressFrame.refl s with }
    · rw [afterPad_eq]
      exact (CompressFrame.setOutput s q).goTo _
  · obtain ⟨-, ht⟩ | ⟨q, -, ht⟩ := flushStep_cases s <;> rw [ht]
    · exact { CompressFrame.refl s with }
    · exact { CompressFrame.setOutput s q with }

/-- Settles O44: what each command leaves untouched at every one of its positions. -/
theorem frameStreamCommands : Obligations.FrameStreamCommands := by
  refine fun s t => ⟨fun h => ?_, fun h => ?_⟩
  · obtain ⟨hone, hfault⟩ := execDecompress_frame h
    exact ⟨hone, hfault⟩
  · obtain ⟨⟨hone, hfault⟩, hresult, heos, htrunc, htree⟩ := execCompress_frame h
    refine ⟨hresult, heos, htrunc, htree, hone, fun hne => ?_⟩
    obtain ⟨hin, hout, hcount, -⟩ := hfault hne
    exact ⟨hin, hout, hcount⟩

end Sys2Proof.Machine
end

section
/-! SUPPORT. Runs of the block of any length, and the bits a run appends to the output (spec/00_scope.md R9, spec/20_memory.md R82 to R84):
what the whole runs of the stream commands are put together from. -/

namespace Sys2Proof.Machine

/-! ### Runs of any length -/

/-- Micro-steps of the block alone lead from `s` to `t`. -/
def Reaches (s t : State) : Prop := ∃ n, blockRun n s = .next t

theorem Reaches.refl (s : State) : Reaches s s := ⟨0, rfl⟩

/-- A micro-step before a run. -/
theorem Reaches.head {s t u : State} (h : blockStep s = .next t) (hr : Reaches t u) : Reaches s u := by
  obtain ⟨n, hn⟩ := hr
  exact ⟨n + 1, (blockRun_succ h).trans hn⟩

theorem Reaches.trans {s t u : State} (h : Reaches s t) (hr : Reaches t u) : Reaches s u := by
  obtain ⟨n, hn⟩ := h
  induction n generalizing s with
  | zero =>
    cases hn
    exact hr
  | succ n ih =>
    cases hstep : blockStep s with
    | next s' => exact .head hstep (ih ((blockRun_succ hstep).symm.trans hn))
    | fault f => simp [blockRun, hstep] at hn
    | refused r => simp [blockRun, hstep] at hn

/-! ### Bits appended to the output -/

/-- Output path `q` is `p` with `bits` appended and counted (R34, R82, R84). -/
structure Appended (p : OutPath) (bits : List Bool) (q : OutPath) : Prop where
  sink : sinkBits q = sinkBits p ++ bits
  count : q.count = p.count + BitVec.ofNat 32 bits.length

theorem Appended.refl (p : OutPath) : Appended p [] p := ⟨by simp, by simp⟩

theorem Appended.trans {p q r : OutPath} {u v : List Bool} (h : Appended p u q) (h' : Appended q v r) : Appended p (u ++ v) r where
  sink := by rw [h'.sink, h.sink, List.append_assoc]
  count := by rw [h'.count, h.count, BitVec.add_assoc, ← BitVec.ofNat_add, List.length_append]

theorem length_sinkBits (p : OutPath) : (sinkBits p).length = 8 * p.fifo.length + p.bits := by
  rw [sinkBits, List.length_append, length_bytesBits, length_lowBits]

/-- OUT_BITS after bits are appended (R36). -/
theorem Appended.bits_eq {p q : OutPath} {u : List Bool} (h : Appended p u q) (hq : q.bits ≤ 7) :
    q.bits = (p.bits + u.length) % 8 := by
  have hlen := congrArg List.length h.sink
  rw [List.length_append, length_sinkBits, length_sinkBits] at hlen
  omega

/-- OUT_BITCOUNT mod 8 = OUT_BITS stays true when bits are appended (R34). -/
theorem Appended.count_mod {p q : OutPath} {u : List Bool} (h : Appended p u q) (hq : q.bits ≤ 7)
    (hp : p.count.toNat % 8 = p.bits) : q.count.toNat % 8 = q.bits := by
  rw [h.bits_eq hq, h.count, BitVec.toNat_add, BitVec.toNat_ofNat]
  omega

theorem OutRoom.mono {depth n k : Nat} {p : OutPath} (h : OutRoom depth n p) (hk : k ≤ n) : OutRoom depth k p := by
  obtain ⟨hbits, hroom⟩ := h
  exact ⟨hbits, by omega⟩

/-! ### Streams at a byte boundary -/

/-- The source at a byte boundary is the bits of the FIFO (R38, R84). -/
theorem sourceBits_aligned (p : InPath) (h : p.bits = 0) : sourceBits p = bytesBits p.fifo := by
  rw [sourceBits, h, lowBits, List.nil_append]

/-- The sink at a byte boundary is the bits of the FIFO (R37, R84). -/
theorem sinkBits_aligned (p : OutPath) (h : p.bits = 0) : sinkBits p = bytesBits p.fifo := by
  rw [sinkBits, h, lowBits, List.append_nil]

theorem bytesBits_append (bs cs : List Byte) : bytesBits (bs ++ cs) = bytesBits bs ++ bytesBits cs := List.flatMap_append

/-- The bytes are read back from their bits. -/
theorem bytesBits_injective : Function.Injective bytesBits := by
  have hbyte : Function.Injective byteBits := (show Function.LeftInverse _ _ from foldl_byteBits).injective
  intro bs cs h
  induction bs generalizing cs with
  | nil => cases cs with
    | nil => rfl
    | cons c cs => cases h
  | cons b bs ih => cases cs with
    | nil => cases h
    | cons c cs =>
      obtain ⟨hb, hbs⟩ := List.append_inj h rfl
      rw [hbyte hb, ih hbs]

/-- Whole bytes appended at a byte boundary go to the FIFO (R37, R84). -/
theorem Appended.fifo_eq {p q : OutPath} {bs : List Byte} (h : Appended p (bytesBits bs) q) (hp : p.bits = 0) (hq : q.bits = 0) :
    q.fifo = p.fifo ++ bs := by
  have hsink := h.sink
  rw [sinkBits_aligned _ hp, sinkBits_aligned _ hq, ← bytesBits_append] at hsink
  exact bytesBits_injective hsink

/-! ### A micro-step at a position -/

section
variable {s : State} {op : BitVec 4} {y : Sym} {pos : Pos} {i : Instr}
variable (hc : s.current = some { op := op, sym := y, pos := pos }) (hd : decodeFields op y = .ok i)
include hc hd

/-- The block's turn where the running command has advanced to `pos'`, by what the command does at that position. -/
theorem blockStep_goTo {pos' : Pos} {f : State → State}
    (hexec : ∀ u, u.current = some { op := op, sym := y, pos := pos' } → exec i u = .next (f u)) :
    blockStep (goTo pos' s) = .next (f (goTo pos' s)) := by
  have hcur : (goTo pos' s).current = some { op := op, sym := y, pos := pos' } := by rw [goTo_current, hc]; rfl
  rw [blockStep_legal _ _ i hcur hd, hexec _ hcur]

/-- A micro-step at position `pos'` that writes bit `b` and goes on with `k`: where the output has room for the bit, `k` follows with it
written, and the room of the bits after it is left (R82). -/
theorem blockStep_write {pos' : Pos} {b : Bool} {k : State → State} (hk : ∀ p u, k (goTo p u) = k u)
    (hexec : ∀ u, u.current = some { op := op, sym := y, pos := pos' } → exec i u = .next (writeStep b k u)) {n : Nat}
    (hroom : OutRoom s.params.outDepth (n + 1) s.output) :
    ∃ q, OutRoom s.params.outDepth n q ∧ Appended s.output [b] q ∧ blockStep (goTo pos' s) = .next (k (setOutput q s)) := by
  obtain ⟨q, hwrite, hq, hsink, hcount⟩ := hroom.writeBit b
  refine ⟨q, hq, ⟨hsink, hcount⟩, ?_⟩
  rw [blockStep_goTo hc hd hexec, writeStep_bit (s := goTo pos' s) k hwrite, ← hk pos' (setOutput q s)]
  rfl

/-- At a byte boundary Flush has nothing to do, and the command ends (R83). -/
theorem reaches_finish (hi : i ∈ [Instr.flush, .decompress, .compress]) (h0 : s.output.bits = 0) :
    Reaches (goTo .flush s) (finish s) := by
  have hstep := blockStep_goTo hc hd fun u hu => exec_at_flush hu i hi
  rw [flushStep_done (goTo .flush s) (flushOut_aligned _ _ h0)] at hstep
  exact .head hstep (.refl _)

end

end Sys2Proof.Machine
end

section
/-! SUPPORT. A whole COMPRESS (spec/43_stream.md R152, R153): the codewords of the bytes and of the terminator, one after another, then
the padding and Flush. -/

namespace Sys2Proof.Machine

variable {s u : State} {op : BitVec 4} {y x : Sym} {pos : Pos} {m : Nat}

/-! ### A position overwrites the one before it -/

theorem padFrom_goTo (left : Nat) (pos : Pos) (s : State) : padFrom left (goTo pos s) = padFrom left s := goTo_goTo pos _ s

theorem afterPad_goTo (left : Nat) (pos : Pos) (s : State) : afterPad left (goTo pos s) = afterPad left s := by
  rw [afterPad_eq, afterPad_eq, padFrom_goTo]

theorem afterCodeword_goTo (x : Sym) (pos : Pos) (s : State) : afterCodeword x (goTo pos s) = afterCodeword x s := by
  rw [afterCodeword_eq, afterCodeword_eq, goTo_goTo]
  rfl

/-! ### Bytes and their codewords -/

/-- A byte's symbol is not EOS (R107). -/
theorem byteSym_ne_eosSym (b : Byte) : byteSym b ≠ eosSym := by
  unfold byteSym eosSym
  bv_omega

theorem compressedBits_cons (r : Rams) (b : Byte) (bytes : List Byte) :
    compressedBits r (b :: bytes) = slotCodeword r (byteSym b) ++ compressedBits r bytes := by
  simp [compressedBits]

/-- From `u` to `w` COMPRESS has read and encoded all of `bytes`, and the terminator (R152). -/
structure Encoded (u : State) (bytes : List Byte) (w : State) : Prop extends Prepares u w where
  eoi : w.status.eoi = true
  symCount : w.symCount = u.symCount + BitVec.ofNat 32 bytes.length
  source : sourceBits w.input = []
  appended : Appended u.output (compressedBits u.rams bytes) w.output

/-! ### Input -/

section
variable (hc : u.current = some { op := op, sym := y, pos := pos }) (hd : decodeFields op y = .ok .compress)
include hc hd

/-- The bits of a byte to come are read as its symbol, which is counted (R152). -/
theorem blockStep_read_byte {b : Byte} {rest : List Bool} (h : sourceBits u.input = byteBits b ++ rest) :
    ∃ q, sourceBits q = rest ∧ blockStep (goTo .read u) = .next (goTo (.lookup (byteSym b)) (countSymbol (setInput q u))) := by
  obtain ⟨q, hread, hq⟩ := readBits8_of_source u.status.inEnd u.input b rest h
  refine ⟨q, hq, ?_⟩
  rw [blockStep_goTo hc hd fun v hv => execCompress_at_read v op y hv, readStep_byte (s := goTo .read u) hread]
  exact congrArg _ (goTo_goTo .read _ (countSymbol (setInput q u)))

/-- Where the input has ended and holds no bit, the terminator is next (R152). -/
theorem blockStep_read_eoi (h : sourceBits u.input = []) (hend : u.status.inEnd = true) :
    blockStep (goTo .read u) = .next (goTo (.lookup eosSym) (setEoi u)) := by
  have hshort : (sourceBits (goTo .read u).input).length < 8 := by simp [h]
  rw [blockStep_goTo hc hd fun v hv => execCompress_at_read v op y hv, readStep_eoi hshort hend]
  exact congrArg _ (goTo_goTo .read _ (setEoi u))

/-! ### Codewords -/

/-- From its lookup on, a symbol's codeword is appended (R142, R152). -/
theorem reaches_afterCodeword (hslot : slotUsable u.rams x)
    (hroom : OutRoom u.params.outDepth ((slotCodeword u.rams x).length + m) u.output) :
    ∃ q, OutRoom u.params.outDepth m q ∧ Appended u.output (slotCodeword u.rams x) q ∧
      Reaches (goTo (.lookup x) u) (afterCodeword x (setOutput q u)) := by
  obtain ⟨last, q, hq, hsink, hcount, hrun⟩ := blockRun_encode hc hd (encodesThen_compress x) hslot hroom 0
  rw [afterCodeword_goTo] at hrun
  exact ⟨q, hq, ⟨hsink, hcount⟩, _, hrun⟩

/-- From the first byte on, all bytes and the terminator are encoded, and the padding is next (R152). -/
theorem reaches_startPad {bytes : List Byte} (hsource : sourceBits u.input = bytesBits bytes) (hend : u.status.inEnd = true)
    (hslots : ∀ b ∈ bytes, slotUsable u.rams (byteSym b)) (heos : slotUsable u.rams eosSym)
    (hroom : OutRoom u.params.outDepth ((compressedBits u.rams bytes).length + m) u.output) :
    ∃ w, Encoded u bytes w ∧ OutRoom u.params.outDepth m w.output ∧ Reaches (goTo .read u) (startPad w) := by
  induction bytes generalizing u with
  | nil =>
    obtain ⟨q, hq, happ, hrun⟩ := reaches_afterCodeword (u := setEoi u) hc hd heos hroom
    refine ⟨setOutput q (setEoi u), ?_, hq, .head (blockStep_read_eoi hc hd hsource hend) hrun⟩
    exact { (Prepares.setEoi u).trans (.setOutput _ q) with
      eoi := rfl, symCount := (BitVec.add_zero _).symm, source := hsource, appended := happ }
  | cons b bytes ih =>
    obtain ⟨hslot, hslots⟩ := List.forall_mem_cons.mp hslots
    rw [compressedBits_cons, List.length_append, Nat.add_assoc] at hroom
    obtain ⟨p, hp, hstep⟩ := blockStep_read_byte hc hd hsource
    obtain ⟨q, hq, happ, hrun⟩ := reaches_afterCodeword (u := countSymbol (setInput p u)) hc hd hslot hroom
    rw [afterCodeword, if_neg (byteSym_ne_eosSym b)] at hrun
    obtain ⟨w, hw, hwroom, hwrun⟩ := ih (u := setOutput q (countSymbol (setInput p u))) hc hp hend hslots heos hq
    refine ⟨w, ?_, hwroom, .head hstep (hrun.trans hwrun)⟩
    exact { ((Prepares.setInput u p).trans ((Prepares.countSymbol _).trans (.setOutput _ q))).trans hw.toPrepares with
      eoi := hw.eoi
      symCount := by
        rw [hw.symCount, List.length_cons, Nat.add_comm bytes.length 1, BitVec.ofNat_add, ← BitVec.add_assoc]
        rfl
      source := hw.source
      appended := compressedBits_cons u.rams b bytes ▸ happ.trans hw.appended }

/-! ### Padding -/

/-- Padding with room for it is written, and Flush follows (R152, R153). -/
theorem reaches_flush_of_padFrom {n : Nat} (hroom : OutRoom u.params.outDepth n u.output) :
    ∃ q, q.bits ≤ 7 ∧ Appended u.output (List.replicate n false) q ∧ Reaches (padFrom n u) (goTo .flush (setOutput q u)) := by
  induction n generalizing u with
  | zero => exact ⟨u.output, hroom.1, .refl _, .refl _⟩
  | succ n ih =>
    obtain ⟨p, hp, happ, hstep⟩ :=
      blockStep_write hc hd (afterPad_goTo (n + 1)) (fun v hv => execCompress_at_pad v op y (n + 1) hv) hroom
    rw [afterPad_eq] at hstep
    obtain ⟨q, hq, happ', hrun⟩ := ih (u := setOutput p u) hc hp
    exact ⟨q, hq, happ.trans happ', .head hstep hrun⟩

/-- The padding reaches a byte boundary, where Flush ends the command (R83, R153). -/
theorem reaches_finish_of_startPad (hcount : u.output.count.toNat % 8 = u.output.bits)
    (hroom : OutRoom u.params.outDepth 7 u.output) :
    ∃ k q, k < 8 ∧ q.bits = 0 ∧ Appended u.output (List.replicate k false) q ∧
      Reaches (startPad u) (finish (setOutput q u)) := by
  have hpad : padCount u.output = (8 - u.output.bits) % 8 := by rw [padCount, hcount]
  have hlt : padCount u.output < 8 := hpad ▸ Nat.mod_lt _ (by decide)
  obtain ⟨q, hq, happ, hrun⟩ := reaches_flush_of_padFrom hc hd (hroom.mono (Nat.le_of_lt_succ hlt))
  have h0 : q.bits = 0 := by
    have hbits := happ.bits_eq hq
    have hle := hroom.1
    rw [List.length_replicate, hpad] at hbits
    omega
  rw [startPad_eq]
  exact ⟨_, q, hlt, h0, happ, hrun.trans (reaches_finish (s := setOutput q u) hc hd (by simp) h0)⟩

end

/-- Settles O55: the bytes and the terminator are encoded, the padding reaches a byte boundary, and Flush ends the command there. -/
theorem compressOutput : Obligations.CompressOutput := by
  rintro s bytes ⟨⟨op, y, pos⟩, hc, hd, rfl⟩ hbits hfifo hend hout hcount hslots heos hroom
  have hfirst : blockStep s = .next (goTo .read (clearSymCount s)) := by
    rw [blockStep_legal s _ _ hc hd, execCompress_at_first s op y hc]
  have hsource : sourceBits s.input = bytesBits bytes := by rw [sourceBits_aligned _ hbits, hfifo]
  obtain ⟨w, hw, hwroom, hread⟩ := reaches_startPad (u := clearSymCount s) (m := 7) hc hd hsource hend hslots heos
    ⟨hout, by rwa [← Nat.add_assoc]⟩
  obtain ⟨k, q, hk, h0, happ, hpad⟩ := reaches_finish_of_startPad (u := w) (hw.current.trans hc) hd
    (hw.appended.count_mod hwroom.1 hcount) (hw.params.symm ▸ hwroom)
  obtain ⟨n, hn⟩ := (Reaches.head hfirst hread).trans hpad
  exact ⟨n, finish (setOutput q w), k, hn, rfl, rfl, hw.fault, hw.eoi, hw.symCount.trans (BitVec.zero_add _), hw.source, h0, hk,
    (hw.appended.trans happ).sink.trans (List.append_assoc ..).symm⟩

end Sys2Proof.Machine
end

section
/-! SUPPORT. A whole DECOMPRESS (spec/43_stream.md R150, R154): the tree check where TREE_OK = 0, the bytes of the codewords before EOS,
and Flush, with nothing read after EOS. -/

namespace Sys2Proof.Machine

variable {s u w v : State} {op : BitVec 4} {y x : Sym} {pos : Pos} {tree : PrefixTree} {word rest : List Bool} {m : Nat}

/-! ### To the root -/

/-- A check that passes leads to the root, with TREE_OK set (R121, R150). -/
theorem reaches_root_of_checkRun (hc : u.current = some { op := op, sym := y, pos := pos })
    (hd : decodeFields op y = .ok .decompress) {n : Nat} {st vis : List NodeIndex} {e : Bool}
    (hv : checkRun u.params u.rams n st vis e = some .passed) :
    Reaches (goTo (.check st vis e) u) (goTo walkStart (setTreeOk true u)) := by
  induction n generalizing st vis e with
  | zero => cases hv
  | succ n ih =>
    have hstep := blockStep_goTo hc hd fun v hv => execDecompress_at_check v op y st vis e hv
    cases hit : checkIteration u.params u.rams st vis e with
    | bad sub data =>
      rw [checkRun_verdict hit nofun] at hv
      cases hv
    | more st' vis' e' =>
      rw [checkStep_more (s := goTo (.check st vis e) u) _ hit, goTo_goTo] at hstep
      exact .head hstep (ih (checkRun_more hit ▸ hv))
    | passed =>
      rw [checkStep_passed (s := goTo (.check st vis e) u) _ hit] at hstep
      exact .head (hstep.trans (congrArg _ (goTo_goTo _ walkStart (setTreeOk true u)))) (.refl _)

/-- The state in which DECOMPRESS starts at the root, but for the position (R150). -/
def rooted (s : State) : State := setTreeOk true (clearSymCount (clearResult s))

/-- With TREE_OK = 1, or a well-formed tree that the check finds, DECOMPRESS gets to the root (R150). -/
theorem reaches_root (hs : startsCommand .decompress s) (htree : s.status.treeOk = true ∨ ∃ t, holdsTree s.params s.rams t) :
    Reaches s (goTo walkStart (rooted s)) := by
  obtain ⟨⟨op, y, pos⟩, hc, hd, rfl⟩ := hs
  have hfirst := (blockStep_legal s _ _ hc hd).trans (execDecompress_at_first s op y hc)
  rw [startDecode_eq, clearSymCount_status, clearResult_status] at hfirst
  by_cases hok : s.status.treeOk = true
  · rw [if_pos hok] at hfirst
    have hroot : rooted s = clearSymCount (clearResult s) := by
      rw [rooted, setTreeOk, ← hok]
      rfl
    rw [hroot]
    exact .head hfirst (.refl _)
  · obtain ⟨t, ht⟩ := htree.resolve_left hok
    rw [if_neg hok] at hfirst
    exact .head hfirst (reaches_root_of_checkRun (u := clearSymCount (clearResult s)) hc hd (checkMicroStepCount _ _ t ht).1)

/-! ### One codeword -/

/-- An advance after a decode overwrites the position of an advance before it. -/
theorem goTo_returnSymbol_goTo (p p' : Pos) (x : Sym) (s : State) :
    goTo p (returnSymbol x (goTo p' s)) = goTo p (returnSymbol x s) := by
  simp only [goTo, returnSymbol, noWait_detect, Option.map_map]
  rfl

theorem afterEmit_goTo (r : Sym) (k : Nat) (p : Pos) (s : State) : afterEmit r k (goTo p s) = afterEmit r k s := by
  rw [afterEmit, afterEmit, goTo_goTo]
  exact congrArg (ite _ · _) (goTo_goTo p walkStart (countSymbol s))

/-- The 8 bits that DECOMPRESS writes of a byte's symbol are the byte's (R84, R107). -/
theorem lowBits_byteSym (b : Byte) : lowBits 8 (byteSym b) = byteBits b := by
  simp [lowBits, byteBits, byteSym]

/-- From `u` to `w` DECOMPRESS has decoded and written `bytes`, and `rest` is left of the input (R150). -/
structure Decoded (u : State) (bytes : List Byte) (rest : List Bool) (w : State) : Prop extends Prepares u w where
  trunc : w.status.trunc = u.status.trunc
  symCount : w.symCount = u.symCount + BitVec.ofNat 32 bytes.length
  source : sourceBits w.input = rest
  appended : Appended u.output (bytesBits bytes) w.output

theorem Decoded.refl (u : State) : Decoded u [] (sourceBits u.input) u :=
  { Prepares.refl u with trunc := rfl, symCount := (BitVec.add_zero _).symm, source := rfl, appended := .refl _ }

theorem Decoded.trans {bs cs : List Byte} {rest' : List Bool} (h : Decoded u bs rest w) (h' : Decoded w cs rest' v) :
    Decoded u (bs ++ cs) rest' v :=
  { h.toPrepares.trans h'.toPrepares with
    trunc := h'.trunc.trans h.trunc
    symCount := by rw [h'.symCount, h.symCount, BitVec.add_assoc, ← BitVec.ofNat_add, List.length_append]
    source := h'.source
    appended := bytesBits_append bs cs ▸ h.appended.trans h'.appended }

section
variable (hc : u.current = some { op := op, sym := y, pos := pos }) (hd : decodeFields op y = .ok .decompress)
include hc hd

/-- From the root DECOMPRESS takes a codeword at the head of the source and decodes its symbol (R132, R150). -/
theorem reaches_decompressSymbol (hstored : storedAt u.rams 0#10 tree) (hx : (x, word) ∈ codewords tree)
    (hsource : sourceBits u.input = word ++ rest) :
    ∃ q, sourceBits q = rest ∧ Reaches (goTo walkStart u) (decompressSymbol x (returnSymbol x (setInput q u))) := by
  obtain ⟨leaf, n, q, hleaf, rfl, hq, hrun⟩ := blockRun_walk (n := 0#10) hc hd (by simp) hstored hx hsource 0
  have hstep := blockStep_goTo (s := setInput q u) hc hd fun v hv => execDecompress_at_walk v op y leaf n hv
  rw [walkStep_leaf (s := goTo (.walk leaf n) (setInput q u)) _ _ hleaf, decompressSymbol_eq, goTo_returnSymbol_goTo,
    ← decompressSymbol_eq] at hstep
  exact ⟨q, hq, .trans ⟨_, hrun⟩ (.head hstep (.refl _))⟩

/-- Bits k to 0 of a decoded symbol are written, and the symbol is counted (R150). -/
theorem reaches_root_of_emit (r : Sym) {k : Nat} (hroom : OutRoom u.params.outDepth (m + (k + 1)) u.output) :
    ∃ q, OutRoom u.params.outDepth m q ∧ Appended u.output (lowBits (k + 1) r) q ∧
      Reaches (goTo (.emit r k) u) (goTo walkStart (countSymbol (setOutput q u))) := by
  induction k generalizing u with
  | zero =>
    obtain ⟨q, hq, happ, hstep⟩ := blockStep_write hc hd (afterEmit_goTo r 0) (fun v hv => execDecompress_at_emit v op y r 0 hv) hroom
    exact ⟨q, hq, happ, .head hstep (.refl _)⟩
  | succ k ih =>
    obtain ⟨p, hp, happ, hstep⟩ :=
      blockStep_write hc hd (afterEmit_goTo r (k + 1)) (fun v hv => execDecompress_at_emit v op y r (k + 1) hv) hroom
    obtain ⟨q, hq, happ', hrun⟩ := ih (u := setOutput p u) hc hp
    exact ⟨q, hq, happ.trans happ', .head hstep hrun⟩

/-! ### A message -/

/-- A byte's codeword at the head of the source is decoded, and its byte is written (R150). -/
theorem reaches_root_of_byte (hstored : storedAt u.rams 0#10 tree) {b : Byte} (hx : (byteSym b, word) ∈ codewords tree)
    (hsource : sourceBits u.input = word ++ rest) (hroom : OutRoom u.params.outDepth (m + 8) u.output) :
    ∃ w, Decoded u [b] rest w ∧ OutRoom u.params.outDepth m w.output ∧ Reaches (goTo walkStart u) (goTo walkStart w) := by
  obtain ⟨p, hp, hdecode⟩ := reaches_decompressSymbol hc hd hstored hx hsource
  rw [decompressSymbol, if_neg (byteSym_ne_eosSym b)] at hdecode
  obtain ⟨q, hq, happ, hemit⟩ := reaches_root_of_emit (u := returnSymbol (byteSym b) (setInput p u)) hc hd (byteSym b) (k := 7) hroom
  rw [lowBits_byteSym] at happ
  refine ⟨countSymbol (setOutput q (returnSymbol (byteSym b) (setInput p u))), ?_, hq, hdecode.trans hemit⟩
  exact { (Prepares.setInput u p).trans ((Prepares.returnSymbol _ _).trans ((Prepares.setOutput _ q).trans (.countSymbol _))) with
    trunc := detect_trunc _ _, symCount := rfl, source := hp, appended := happ }

/-- The codewords of a message at the head of the source are decoded one after another (R150). -/
theorem reaches_root_of_message {msg : List (Byte × List Bool)} (hstored : storedAt u.rams 0#10 tree)
    (hmsg : ∀ c ∈ msg, (byteSym c.1, c.2) ∈ codewords tree)
    (hsource : sourceBits u.input = msg.flatMap (fun c => c.2) ++ rest)
    (hroom : OutRoom u.params.outDepth (8 * msg.length) u.output) :
    ∃ w, Decoded u (msg.map (fun c => c.1)) rest w ∧ w.output.bits ≤ 7 ∧ Reaches (goTo walkStart u) (goTo walkStart w) := by
  induction msg generalizing u with
  | nil =>
    rw [List.flatMap_nil, List.nil_append] at hsource
    exact ⟨u, hsource ▸ .refl u, hroom.1, .refl _⟩
  | cons c msg ih =>
    obtain ⟨hx, hmsg⟩ := List.forall_mem_cons.mp hmsg
    rw [List.flatMap_cons, List.append_assoc] at hsource
    obtain ⟨w, hw, hwroom, hbyte⟩ := reaches_root_of_byte hc hd hstored hx hsource hroom
    obtain ⟨v, hv, hbits, hrun⟩ :=
      ih (hw.current.trans hc) (hw.rams.symm ▸ hstored) hmsg hw.source (hw.params.symm ▸ hwroom)
    exact ⟨v, hw.trans hv, hbits, hbyte.trans hrun⟩

end

/-! ### The whole command -/

/-- In `t` DECOMPRESS, started in `s`, has ended at EOS with `bytes` written and `rest` unread (R150, R154 (c)). -/
structure EndedAtEos (s : State) (bytes : List Byte) (rest : List Bool) (t : State) : Prop where
  current : t.current = none
  done : t.status.done = true
  fault : t.status.fault = s.status.fault
  eos : t.status.eos = true
  trunc : t.status.trunc = s.status.trunc
  result : t.result = resultWord eosSym
  symCount : t.symCount = BitVec.ofNat 32 bytes.length
  source : sourceBits t.input = rest
  bits : t.output.bits = 0
  fifo : t.output.fifo = s.output.fifo ++ bytes

/-- A message of byte codewords and the codeword of EOS at the head of the source: DECOMPRESS writes the bytes and ends (R150, R154 (c)). -/
theorem reaches_endedAtEos {msg : List (Byte × List Bool)} (hs : startsCommand .decompress s)
    (htree : s.status.treeOk = true ∨ ∃ t, holdsTree s.params s.rams t) (hstored : storedAt s.rams 0#10 tree)
    (hmsg : ∀ c ∈ msg, (byteSym c.1, c.2) ∈ codewords tree) (heos : (eosSym, word) ∈ codewords tree)
    (hsource : sourceBits s.input = msg.flatMap (fun c => c.2) ++ word ++ rest) (hbits : s.output.bits = 0)
    (hroom : s.output.fifo.length + msg.length ≤ s.params.outDepth) :
    ∃ t, EndedAtEos s (msg.map (fun c => c.1)) rest t ∧ Reaches s t := by
  have hroot := reaches_root hs htree
  obtain ⟨⟨op, y, pos⟩, hc, hd, rfl⟩ := hs
  rw [List.append_assoc] at hsource
  have hmsgRoom : OutRoom s.params.outDepth (8 * msg.length) s.output := ⟨by omega, by omega⟩
  obtain ⟨w, hw, hwbits, hbytes⟩ := reaches_root_of_message (u := rooted s) hc hd hstored hmsg hsource hmsgRoom
  obtain ⟨q, hq, hend⟩ := reaches_decompressSymbol (hw.current.trans hc) hd (hw.rams.symm ▸ hstored) heos hw.source
  have h0 : w.output.bits = 0 := by
    rw [hw.appended.bits_eq hwbits, length_bytesBits]
    change (s.output.bits + _) % 8 = 0
    omega
  refine ⟨finish (returnSymbol eosSym (setInput q w)), ?_, hroot.trans (hbytes.trans (hend.trans
    (reaches_finish (s := returnSymbol eosSym (setInput q w)) (hw.current.trans hc) hd (by simp) h0)))⟩
  exact
    { current := rfl
      done := rfl
      fault := (detect_fault _ _).trans hw.fault
      eos := rfl
      trunc := (detect_trunc _ _).trans hw.trunc
      result := rfl
      symCount := hw.symCount.trans (BitVec.zero_add _)
      source := hq
      bits := h0
      fifo := hw.appended.fifo_eq hbits h0 }

/-- Settles O56: TREE_OK = 1 leads to the root, and the message and EOS from there to the end. -/
theorem decompressOutput : Obligations.DecompressOutput := by
  intro s tree msg eosWord rest hs hok _ hstored hmsg heos hsource hbits hroom
  obtain ⟨t, ht, n, hn⟩ := reaches_endedAtEos hs (.inl hok) hstored hmsg heos hsource hbits hroom
  refine ⟨n, t, hn, ht.current, ht.done, ht.fault, ht.eos, ht.trunc, ht.result, ?_, ht.source, ht.bits, ht.fifo⟩
  rw [ht.symCount, List.length_map]

end Sys2Proof.Machine
end

section
/-! SUPPORT. The round trip of the two stream commands (spec/43_stream.md R154 (a)). -/

namespace Sys2Proof.Machine

/-- Each byte of a message with the codeword of its slot (R152). -/
def slotMessage (r : Rams) (bytes : List Byte) : List (Byte × List Bool) := bytes.map fun b => (b, slotCodeword r (byteSym b))

theorem slotMessage_bytes (r : Rams) (bytes : List Byte) : (slotMessage r bytes).map (fun c => c.1) = bytes := by
  simp [slotMessage, Function.comp_def]

theorem compressedBits_eq (r : Rams) (bytes : List Byte) :
    compressedBits r bytes = (slotMessage r bytes).flatMap (fun c => c.2) ++ slotCodeword r eosSym := by
  rw [compressedBits, slotMessage, List.flatMap_map]

/-- Settles O57: what COMPRESS wrote is the message of the slots' codewords, which are the tree's, with the padding left unread. -/
theorem roundTrip : Obligations.RoundTrip := by
  intro s u tree bytes htree hbytes heos hs hbits hfifo hend hfault hout hroom
  obtain ⟨n, t, k, hrun, -, hdone, hfault', -, -, -, hbits', -, hsink⟩ :=
    compressOutput s bytes hs hbits hfifo hend (by simp [hout]) (by simp [hout]) (fun b hb => (hbytes b hb).1) heos.1
      (by simpa [hout] using hroom)
  refine ⟨n, t, hrun, hdone, hfault'.trans hfault, fun hu hparams hrams _ htrunc hufault hin hubits huout huroom => ?_⟩
  have hsource : sourceBits u.input =
      (slotMessage s.rams bytes).flatMap (fun c => c.2) ++ slotCodeword s.rams eosSym ++ List.replicate k false := by
    rw [sourceBits_aligned _ hubits, hin, ← sinkBits_aligned _ hbits', hsink, hout, ← compressedBits_eq]
    rfl
  obtain ⟨v, hv, m, hm⟩ := reaches_endedAtEos hu (.inr ⟨tree, hparams ▸ hrams ▸ htree⟩) (hrams ▸ htree.1)
    (by simpa [slotMessage] using fun b hb => (hbytes b hb).2) heos.2 hsource (by rw [huout])
    (by simpa [huout, slotMessage] using huroom)
  refine ⟨m, v, hm, hv.done, hv.fault.trans hufault, hv.eos, hv.trunc.trans htrunc, ?_⟩
  rw [hv.fifo, huout, slotMessage_bytes, List.nil_append]

end Sys2Proof.Machine
end

section
/-! SUPPORT. The tree header (spec/44_host_tree_header.md R170 to R172, R175): reading takes a written tree off the front of its bits, and
packing to bytes only adds zero bits behind them. -/

namespace Sys2Proof.Machine

/-! ### Reading a tree back (R170, R172) -/

/-- The bits of a word, shifted in one after another, are the word. -/
theorem foldl_lowBits {w : Nat} (v : BitVec w) : (lowBits w v).foldl BitVec.shiftConcat 0#w = v := by
  have hbits := lowBits_foldl_shiftConcat (lowBits w v) 0 0#w (by simp [length_lowBits])
  simp only [length_lowBits, Nat.zero_add, lowBits, List.nil_append] at hbits
  refine BitVec.eq_of_getLsbD_eq fun i hi => ?_
  have hlt (u : BitVec w) : w - 1 - i < (lowBits w u).length := by
    rw [length_lowBits]
    omega
  have hbit := List.getElem_of_eq hbits (hlt _)
  rwa [getElem_lowBits, getElem_lowBits, show w - 1 - (w - 1 - i) = i by omega] at hbit

theorem symBits_eq_lowBits (x : Sym) : symBits x = lowBits 9 x := rfl

theorem readSym_symBits (x : Sym) (rest : List Bool) (hx : x.toNat ≤ 256) : readSym (symBits x ++ rest) = .ok (x, rest) := by
  have hval : (symBits x).foldl (fun v b => v.shiftConcat b) 0#9 = x := symBits_eq_lowBits x ▸ foldl_lowBits x
  simp only [symBits] at hval ⊢
  simp only [List.cons_append, List.nil_append, readSym, hval, if_neg (Nat.not_lt.mpr hx)]

theorem length_writeTreeBits (t : PrefixTree) : (writeTreeBits t).length + 1 = 11 * leafCount t := by
  induction t with
  | leaf x => rfl
  | branch l r ihl ihr =>
    simp only [writeTreeBits, leafCount, List.length_cons, List.length_append]
    omega

/-- A written tree is read back with any fuel not below its length: a subtree has fewer bits than its parent. -/
theorem readTreeFuel_writeTreeBits (t : PrefixTree) (hsyms : ∀ x ∈ leafSyms t, x.toNat ≤ 256) (fuel : Nat)
    (hfuel : (writeTreeBits t).length ≤ fuel) (rest : List Bool) : readTreeFuel fuel (writeTreeBits t ++ rest) = .ok (t, rest) := by
  induction t generalizing fuel rest with
  | leaf x =>
    obtain _ | fuel := fuel
    · exact absurd hfuel (Nat.not_succ_le_zero _)
    have hx := hsyms x List.mem_cons_self
    simp only [writeTreeBits, List.cons_append, readTreeFuel, readSym_symBits x rest hx]
  | branch l r ihl ihr =>
    obtain _ | fuel := fuel
    · exact absurd hfuel (Nat.not_succ_le_zero _)
    simp only [writeTreeBits, List.length_cons, List.length_append] at hfuel
    simp only [leafSyms, List.forall_mem_append] at hsyms
    have hl := ihl hsyms.1 fuel (by omega) (writeTreeBits r ++ rest)
    have hr := ihr hsyms.2 fuel (by omega) rest
    simp only [writeTreeBits, List.cons_append, List.append_assoc, readTreeFuel, hl, hr]

theorem readTreeBits_writeTreeBits (t : PrefixTree) (hsyms : ∀ x ∈ leafSyms t, x.toNat ≤ 256) (rest : List Bool) :
    readTreeBits (writeTreeBits t ++ rest) = .ok (t, rest) :=
  readTreeFuel_writeTreeBits t hsyms _ (by rw [List.length_append]; omega) rest

/-! ### Packing bits to bytes (R171) -/

/-- A byte packed from at most 8 bits holds them, and zeros after them. -/
theorem byteBits_bitsByte (bits : List Bool) (h : bits.length ≤ 8) :
    byteBits (bitsByte bits) = bits ++ List.replicate (8 - bits.length) false := by
  have hbyte := lowBits_foldl_shiftConcat ([0, 1, 2, 3, 4, 5, 6, 7].map fun j => bits.getD j false) 0 0#8 (by simp)
  rw [List.foldl_map] at hbyte
  have hrange : [0, 1, 2, 3, 4, 5, 6, 7] = List.range 8 := rfl
  refine hbyte.trans (List.ext_getElem (by simp [lowBits, h]) fun j hj hj' => ?_)
  by_cases hin : j < bits.length
  · simp [lowBits, hrange, hin]
  · simp [lowBits, hrange, hin, List.getElem_append]

theorem length_packBytes (n : Nat) (bits : List Bool) : (packBytes n bits).length = n := by
  induction n generalizing bits with
  | zero => rfl
  | succ n ih => rw [packBytes, List.length_cons, ih]

/-- Bytes with room for a bit sequence hold it, and zeros after it. -/
theorem bytesBits_packBytes (n : Nat) (bits : List Bool) (h : bits.length ≤ 8 * n) :
    bytesBits (packBytes n bits) = bits ++ List.replicate (8 * n - bits.length) false := by
  induction n generalizing bits with
  | zero =>
    rw [List.length_eq_zero_iff.mp (Nat.le_zero.mp h)]
    rfl
  | succ n ih =>
    have hhead := byteBits_bitsByte (bits.take 8) (List.length_take_le _ _)
    have htail := ih (bits.drop 8) (by rw [List.length_drop]; omega)
    rw [packBytes, bytesBits_cons, hhead, htail]
    obtain hlong | hshort := Nat.le_total 8 bits.length
    · have htake : 8 - (bits.take 8).length = 0 := by rw [List.length_take]; omega
      have hdrop : 8 * n - (bits.drop 8).length = 8 * (n + 1) - bits.length := by rw [List.length_drop]; omega
      rw [htake, hdrop, List.replicate_zero, List.append_nil, ← List.append_assoc, List.take_append_drop]
    · have hpad : 8 - bits.length + 8 * n = 8 * (n + 1) - bits.length := by omega
      rw [List.take_of_length_le hshort, List.drop_of_length_le hshort, List.nil_append, List.length_nil, Nat.sub_zero,
        List.append_assoc, List.replicate_append_replicate, hpad]

/-- The header's bits are the tree's, and padding that ends in the header's last byte. -/
theorem bytesBits_headerBytes (t : PrefixTree) :
    ∃ k, bytesBits (headerBytes t) = writeTreeBits t ++ List.replicate k false :=
  ⟨_, bytesBits_packBytes _ _ (by omega)⟩

theorem length_headerBytes (t : PrefixTree) : (headerBytes t).length = ((writeTreeBits t).length + 7) / 8 := length_packBytes _ _

/-- The file read stops at the end of the header's last byte (R172). -/
theorem readHeader_fileBytes (t : PrefixTree) (hsyms : ∀ x ∈ leafSyms t, x.toNat ≤ 256) (payload : List Byte) :
    readHeader (fileBytes t payload) = .ok (t, payload) := by
  obtain ⟨k, hk⟩ := bytesBits_headerBytes t
  have hbits : bytesBits (fileBytes t payload) = writeTreeBits t ++ (List.replicate k false ++ bytesBits payload) := by
    rw [fileBytes, bytesBits, List.flatMap_append, ← List.append_assoc, ← hk]
    rfl
  simp only [readHeader, hbits, readTreeBits_writeTreeBits t hsyms, List.length_append (as := writeTreeBits t), Nat.add_sub_cancel,
    ← length_headerBytes]
  rw [fileBytes, List.drop_left]

/-- Settles O58: the tree's length by its leaves, its bits by induction on the tree, the file by the padding of its header. -/
theorem headerRoundTrip : Obligations.HeaderRoundTrip := fun t hsyms =>
  ⟨length_writeTreeBits t, readTreeBits_writeTreeBits t hsyms, readHeader_fileBytes t hsyms⟩

end Sys2Proof.Machine
end

section
/-! SUPPORT. The canonical layout (spec/44_host_tree_header.md R174): its node words keep their fields in their stored form, the host's
writes place them one after another, and a node RAM that holds them holds the tree. -/

namespace Sys2Proof.Machine

/-! ### The fields of the layout's node words (R30, R174) -/

theorem nodeForm_branchWord (a b : NodeIndex) : nodeForm (branchWord a b) = branchWord a b &&& 0x83FF03FF#32 :=
  if_pos (by simp [branchWord])

theorem nodeForm_leafWord (x : Sym) : nodeForm (leafWord x) = leafWord x &&& 0x000001FF#32 :=
  if_neg (by simp [leafWord])

theorem nodeIsBranch_branchWord (a b : NodeIndex) : nodeIsBranch (nodeForm (branchWord a b)) = true := by
  rw [nodeIsBranch, nodeForm_branchWord, branchWord]
  simp

theorem nodeLeft_branchWord (a b : NodeIndex) : nodeLeft (nodeForm (branchWord a b)) = a := by
  apply BitVec.eq_of_getLsbD_eq
  intro k hk
  rw [nodeLeft, nodeForm_branchWord, branchWord, BitVec.getLsbD_extractLsb', BitVec.getLsbD_and, BitVec.getLsbD_or, BitVec.getLsbD_or]
  interval_cases k <;> simp

theorem nodeRight_branchWord (a b : NodeIndex) : nodeRight (nodeForm (branchWord a b)) = b := by
  apply BitVec.eq_of_getLsbD_eq
  intro k hk
  rw [nodeRight, nodeForm_branchWord, branchWord, BitVec.getLsbD_extractLsb', BitVec.getLsbD_and, BitVec.getLsbD_or, BitVec.getLsbD_or]
  interval_cases k <;> simp

theorem nodeIsBranch_leafWord (x : Sym) : nodeIsBranch (nodeForm (leafWord x)) = false := by
  rw [nodeIsBranch, nodeForm_leafWord, leafWord]
  simp

theorem nodeSym_leafWord (x : Sym) : nodeSym (nodeForm (leafWord x)) = x := by
  have hmask : (0x1FF#32).extractLsb' 0 9 = BitVec.allOnes 9 := by decide
  rw [nodeSym, nodeForm_leafWord, BitVec.extractLsb'_and, hmask, BitVec.and_allOnes, leafWord,
    ← BitVec.setWidth_eq_extractLsb' (by decide), BitVec.setWidth_setWidth_of_le _ (by decide), BitVec.setWidth_eq]

/-! ### Loading node words -/

/-- Node RAM holds the stored forms of `ws` at NODE[k], NODE[k+1], ..., where `loadNodes` writes them. -/
def holdsNodes (r : Rams) : Nat → List Word → Prop
  | _, [] => True
  | k, w :: ws => readNode r k = nodeForm w ∧ holdsNodes r (k + 1) ws

theorem holdsNodes_append (r : Rams) (k : Nat) (ws vs : List Word) :
    holdsNodes r k (ws ++ vs) ↔ holdsNodes r k ws ∧ holdsNodes r (k + ws.length) vs := by
  induction ws generalizing k with
  | nil => simp [holdsNodes]
  | cons w ws ih => rw [List.cons_append, holdsNodes, holdsNodes, ih, and_assoc, List.length_cons, Nat.add_assoc, Nat.add_comm 1]

/-- The host's writes of node words while idle: the words are held, and every node before them keeps its word. -/
theorem hostAccesses_loadNodes (s : State) (k : Nat) (ws : List Word) (hp : s.params.wellFormed = true) (hc : s.current = none)
    (hroom : k + ws.length ≤ s.params.nNodes) :
    holdsNodes (hostAccesses (loadNodes k ws) s).rams k ws ∧
      ∀ j < k, readNode (hostAccesses (loadNodes k ws) s).rams j = readNode s.rams j := by
  induction ws generalizing k s with
  | nil => exact ⟨trivial, fun _ _ => rfl⟩
  | cons w ws ih =>
    rw [List.length_cons] at hroom
    have hstands := stands_of_regExists s.params (Params.nNodes_le hp) (.node k) (decide_eq_true (by omega))
    have hwrite : hostAccess (wrAccess (.node k) w) s = writeReg (.node k) w s := hstands.hostAccess_write w (busy_eq_false hc)
    obtain ⟨hheld, hkept⟩ := ih (writeReg (.node k) w s) (k + 1) hp hc (by simp only [writeReg, setTreeOk]; omega)
    rw [loadNodes, hostAccesses, hwrite]
    exact ⟨⟨(hkept k (by omega)).trans (readNode_writeNode_same ..), hheld⟩,
      fun j hj => (hkept j (by omega)).trans (readNode_writeNode_other _ _ _ _ (by omega))⟩

/-! ### The tree the layout's words hold -/

theorem length_layoutFrom (k : Nat) (t : PrefixTree) : (layoutFrom k t).length = treeSize t := by
  induction t generalizing k with
  | leaf x => rfl
  | branch l r ihl ihr =>
    simp only [layoutFrom, treeSize, List.length_cons, List.length_append, ihl, ihr]
    omega

/-- The children's words follow their parent's, the left child's first (R174). -/
theorem holdsNodes_layoutFrom_branch (r : Rams) (k : Nat) (a b : PrefixTree) :
    holdsNodes r k (layoutFrom k (.branch a b)) ↔
      readNode r k = nodeForm (branchWord (BitVec.ofNat 10 (k + 1)) (BitVec.ofNat 10 (k + 1 + treeSize a))) ∧
        holdsNodes r (k + 1) (layoutFrom (k + 1) a) ∧ holdsNodes r (k + 1 + treeSize a) (layoutFrom (k + 1 + treeSize a) b) := by
  rw [layoutFrom, holdsNodes, holdsNodes_append, length_layoutFrom]

/-- A node RAM that holds a tree's canonical words from `k` on holds the tree at `k`, at rising indices. -/
theorem storedAt_and_occupied_of_layoutFrom (r : Rams) (k : Nat) (t : PrefixTree) (hroom : k + treeSize t ≤ 1024)
    (hheld : holdsNodes r k (layoutFrom k t)) :
    storedAt r (BitVec.ofNat 10 k) t ∧
      occupied r (BitVec.ofNat 10 k) t = (List.range' k (treeSize t)).map (BitVec.ofNat 10) := by
  induction t generalizing k with
  | leaf x =>
    have hindex : (BitVec.ofNat 10 k).toNat = k := Nat.mod_eq_of_lt hroom
    have hword : readNode r (BitVec.ofNat 10 k).toNat = nodeForm (leafWord x) := by rw [hindex]; exact hheld.1
    exact ⟨⟨hword ▸ nodeIsBranch_leafWord x, hword ▸ nodeSym_leafWord x⟩, rfl⟩
  | branch a b iha ihb =>
    obtain ⟨hword, ha, hb⟩ := (holdsNodes_layoutFrom_branch r k a b).mp hheld
    simp only [treeSize] at hroom
    have hindex : (BitVec.ofNat 10 k).toNat = k := Nat.mod_eq_of_lt (by omega)
    obtain ⟨hsa, hoa⟩ := iha (k + 1) (by omega) ha
    obtain ⟨hsb, hob⟩ := ihb (k + 1 + treeSize a) (by omega) hb
    simp only [storedAt, occupied, hindex, hword, nodeIsBranch_branchWord, nodeLeft_branchWord, nodeRight_branchWord]
    refine ⟨⟨trivial, hsa, hsb⟩, ?_⟩
    rw [hoa, hob, treeSize, ← List.map_append, List.range'_append_1, Nat.add_comm 1, Nat.add_right_comm, List.range'_succ, List.map_cons]

/-- Settles O59: the words the host wrote are held from NODE[0] on, and they hold the tree at the root. -/
theorem canonicalLayoutStored : Obligations.CanonicalLayoutStored := by
  intro s t hp hc hroom
  have hlen : 0 + (layout t).length ≤ s.params.nNodes := by rw [layout, length_layoutFrom]; omega
  have hn := Params.nNodes_le hp
  have hheld := (hostAccesses_loadNodes s 0 (layout t) hp hc hlen).1
  refine ⟨_, rfl, ?_⟩
  rw [List.range_eq_range']
  exact storedAt_and_occupied_of_layoutFrom _ 0 t (by omega) hheld

end Sys2Proof.Machine
end

section
/-! SUPPORT. The fault codes of each command (spec/60_exceptions.md R180): a micro-step leaves FAULT, or it is a fault entry with one of
its command's codes. -/

namespace Sys2Proof.Machine

/-- From `s` to `t` FAULT is left, or FAULT_INFO records a code among `codes` (R29, R183). -/
def FaultsOnly (codes : List Nat) (s t : State) : Prop :=
  t.status.fault = s.status.fault ∨ t.faultInfo.toNat % 16 ∈ codes

/-- The codes of R180's table by command: TREE_INVALID 2, UNKNOWN_SYMBOL 3, BAD_CODE_LEN 4, END_OF_INPUT 5. -/
def faultCodes : Instr → List Nat
  | .validateTree | .decompress => [2]
  | .decodeSymbol => [2, 5]
  | .encodeSymbol _ | .compress => [3, 4]
  | .flush => []

/-- The code field of FAULT_INFO holds the code of the fault entry (R29, R183). -/
theorem FaultsOnly.raiseFault {codes : List Nat} {code : BitVec 4} (sub : BitVec 4) (data : BitVec 10) (s u : State)
    (h : code.toNat ∈ codes) : FaultsOnly codes s (raiseFault code sub data u) := by
  have hcode : (faultWord code sub data).toNat % 16 = code.toNat := by
    have := code.isLt
    rw [faultWord_toNat]
    omega
  exact .inr (by rwa [raiseFault_faultInfo, hcode])

/-! ### The micro-steps without a fault -/

theorem goTo_fault (p : Pos) (s : State) : (goTo p s).status.fault = s.status.fault := rfl

theorem finish_fault (s : State) : (finish s).status.fault = s.status.fault := rfl

theorem startDecode_fault (s : State) : (startDecode s).status.fault = s.status.fault := by
  rw [startDecode_eq]
  rfl

theorem decompressSymbol_fault (r : Sym) (s : State) : (decompressSymbol r s).status.fault = s.status.fault := by
  rw [decompressSymbol_eq]
  rfl

theorem afterEmit_fault (r : Sym) (k : Nat) (s : State) : (afterEmit r k s).status.fault = s.status.fault := by
  unfold afterEmit
  split <;> rfl

theorem afterCodeword_fault (x : Sym) (s : State) : (afterCodeword x s).status.fault = s.status.fault := by
  rw [afterCodeword_eq]
  rfl

theorem afterPad_fault (left : Nat) (s : State) : (afterPad left s).status.fault = s.status.fault := by
  rw [afterPad_eq]
  rfl

theorem readStep_fault (s : State) : (readStep s).status.fault = s.status.fault := by
  obtain ⟨-, ht⟩ | ⟨-, ht⟩ | ⟨v, q, -, ht⟩ := readStep_cases s <;> rw [ht] <;> rfl

theorem flushStep_fault (s : State) : (flushStep s).status.fault = s.status.fault := by
  obtain ⟨-, ht⟩ | ⟨q, -, ht⟩ := flushStep_cases s <;> rw [ht] <;> rfl

theorem writeStep_fault (b : Bool) {k : State → State} (hk : ∀ u, (k u).status.fault = u.status.fault) (s : State) :
    (writeStep b k s).status.fault = s.status.fault := by
  obtain ⟨-, ht⟩ | ⟨q, -, ht⟩ := writeStep_cases b k s <;> rw [ht]
  · rfl
  · exact hk _

theorem codeStep_fault (after : State → State) (hafter : ∀ u, (after u).status.fault = u.status.fault) (x : Sym) (len j : Nat)
    (s : State) : (codeStep after x len j s).status.fault = s.status.fault := by
  refine writeStep_fault _ (fun u => ?_) s
  split
  · rfl
  · exact hafter u

/-! ### The micro-steps with a fault -/

theorem checkStep_faultsOnly {codes : List Nat} (after : State → State) (hcode : 2 ∈ codes)
    (hafter : ∀ u, (after u).status.fault = u.status.fault) (stack visited : List NodeIndex) (e : Bool) (s : State) :
    FaultsOnly codes s (checkStep after stack visited e s) := by
  obtain ⟨sub, data, -, ht⟩ | ⟨st, vis, e', -, ht⟩ | ⟨-, ht⟩ := checkStep_cases after stack visited e s <;> rw [ht]
  · exact .raiseFault sub data s _ hcode
  · exact .inl rfl
  · exact .inl (hafter _)

theorem walkStep_faultsOnly {codes : List Nat} (onSymbol : Sym → State → State) (onEoi : BitVec 10 → State → State) (cur : NodeIndex)
    (n : BitVec 10) (s : State) (hsymbol : ∀ r u, (onSymbol r u).status.fault = u.status.fault)
    (heoi : FaultsOnly codes s (onEoi n (setEoi s))) : FaultsOnly codes s (walkStep onSymbol onEoi cur n s) := by
  obtain ⟨-, ht⟩ | ⟨-, -, ht⟩ | ⟨-, -, ht⟩ | ⟨b, q, -, -, ht⟩ := walkStep_cases onSymbol onEoi cur n s <;> rw [ht]
  · exact .inl ((hsymbol _ _).trans (Prepares.returnSymbol s _).fault)
  · exact heoi
  · exact .inl rfl
  · exact .inl rfl

theorem lookupStep_faultsOnly (after : State → State) (hafter : ∀ u, (after u).status.fault = u.status.fault) (x : Sym) (s : State) :
    FaultsOnly [3, 4] s (lookupStep after x s) := by
  obtain ⟨code, hcode, ht⟩ | ⟨-, -, -, ⟨-, ht⟩ | ⟨-, ht⟩⟩ := lookupStep_cases after x s <;> rw [ht]
  · exact .raiseFault _ _ s s (by obtain rfl | rfl := hcode <;> decide)
  · exact .inl (hafter s)
  · exact .inl rfl

/-! ### The commands -/

/-- No micro-step of a command faults with a code that R180's table does not give the command. -/
theorem exec_faultsOnly (i : Instr) {s t : State} (h : exec i s = .next t) : FaultsOnly (faultCodes i) s t := by
  cases i with
  | validateTree =>
    obtain ⟨c, -, ⟨-, rfl⟩ | ⟨st, vis, e, -, rfl⟩⟩ := execValidateTree_cases s t h
    · exact .inl rfl
    · exact checkStep_faultsOnly _ (by decide) finish_fault st vis e s
  | decodeSymbol =>
    obtain ⟨c, -, ⟨-, rfl⟩ | ⟨st, vis, e, -, rfl⟩ | ⟨cur, n, -, rfl⟩⟩ := execDecodeSymbol_cases s t h
    · exact .inl (startDecode_fault _)
    · exact checkStep_faultsOnly _ (by decide) (goTo_fault walkStart) st vis e s
    · exact walkStep_faultsOnly _ _ cur n s (fun _ => finish_fault) (.raiseFault _ _ s _ (by decide))
  | encodeSymbol sym =>
    obtain ⟨c, -, ⟨-, rfl⟩ | ⟨x, -, rfl⟩ | ⟨x, len, j, -, rfl⟩⟩ := execEncodeSymbol_cases sym s t h
    · exact .inl rfl
    · exact lookupStep_faultsOnly _ finish_fault x s
    · exact .inl (codeStep_fault _ finish_fault x len j s)
  | flush => exact .inl (execFlush_frame h).fault
  | decompress =>
    obtain ⟨c, -, ⟨-, rfl⟩ | ⟨st, vis, e, -, rfl⟩ | ⟨cur, n, -, rfl⟩ | ⟨r, k, -, rfl⟩ | ⟨-, rfl⟩⟩ := execDecompress_cases s t h
    · exact .inl (startDecode_fault _)
    · exact checkStep_faultsOnly _ (by decide) (goTo_fault walkStart) st vis e s
    · exact walkStep_faultsOnly _ _ cur n s decompressSymbol_fault (.inl rfl)
    · exact .inl (writeStep_fault _ (afterEmit_fault r k) s)
    · exact .inl (flushStep_fault s)
  | compress =>
    obtain ⟨c, -, ⟨-, rfl⟩ | ⟨-, rfl⟩ | ⟨x, -, rfl⟩ | ⟨x, len, j, -, rfl⟩ | ⟨left, -, rfl⟩ | ⟨-, rfl⟩⟩ := execCompress_cases s t h
    · exact .inl rfl
    · exact .inl (readStep_fault s)
    · exact lookupStep_faultsOnly _ (afterCodeword_fault x) x s
    · exact .inl (codeStep_fault _ (afterCodeword_fault x) x len j s)
    · exact .inl (writeStep_fault false (afterPad_fault left) s)
    · exact .inl (flushStep_fault s)

/-- Settles O45: FAULT went from 0 to 1, so the code is one of the command's list. -/
theorem faultsOfEachCommand : Obligations.FaultsOfEachCommand := by
  intro i s t h hs ht
  have hcode : t.faultInfo.toNat % 16 ∈ faultCodes i :=
    (exec_faultsOnly i h).resolve_left fun heq => Bool.false_ne_true (hs.symm.trans (heq.symm.trans ht))
  cases i with
  | flush => exact List.not_mem_nil hcode
  | validateTree | decompress => exact List.mem_singleton.mp hcode
  | decodeSymbol | encodeSymbol | compress => exact List.mem_pair.mp hcode

end Sys2Proof.Machine
end

section
/-! SUPPORT. The two resets (spec/70_reset_and_hazards.md R200, R201, spec/10_state.md R45). -/

namespace Sys2Proof.Machine

/-- The RAMs a hardware reset leaves are canonical: they list no word, and each read gives a free value (R45, log 4). -/
theorem ramsOk_hardReset (s : State) : ramsOk s.params (hardReset s).rams = true := ramsOk_resetWith s.params

/-- After a hardware reset no command runs and every flag is 0, so STATUS reads 0 (R23, R45). -/
theorem statusWord_hardReset (s : State) : statusWord (hardReset s).busy (hardReset s).status = 0#32 := by
  rw [State.busy, hardReset_current, hardReset_status]
  decide

/-- CTRL.SOFT_RESET takes precedence over the other bits of the word (R69). -/
theorem writeCtrl_of_soft_reset_bit {w : Word} (h : w.getLsbD 31 = true) (s : State) : writeCtrl w s = softReset s :=
  if_pos h

/-- No rule of R65 drops a write to CTRL with SOFT_RESET, whether or not a command runs or a fault is recorded (R69, R201). -/
theorem writeDropped_ctrl_of_soft_reset_bit {w : Word} (h : w.getLsbD 31 = true) (s : State) :
    writeDropped .ctrl w s = false := by
  simp only [writeDropped, h, Bool.not_true, Bool.and_false, Bool.false_and]

/-- Settles O6: the turn leads to `hardReset`; its registers and streams by their equations, its RAM words by the canonical form of the
RAMs. -/
theorem hardwareReset : Obligations.HardwareReset := by
  intro s rest
  have hrams : ramsOk s.params (hardReset { s with schedule := rest }).rams = true := ramsOk_hardReset _
  exact ⟨hardReset { s with schedule := rest }, step_hardReset _ rest rfl,
    hardReset_current _, hardReset_cmd _, statusWord_hardReset _, hardReset_faultInfo _, hardReset_result _, hardReset_symCount _,
    hardReset_input _, hardReset_output _, hardReset_params _, readNode_isNodeForm _ _ hrams, readCfg_isCfgForm _ _ hrams⟩

/-- Settles O7: the write is performed in any state, and it is `softReset`, whose fields are those written out. -/
theorem softResetWrite : Obligations.SoftReset := by
  intro s w h
  rw [hostAccess_write 0x014#15 .ctrl w s rfl rfl (writeDropped_ctrl_of_soft_reset_bit h s), writeReg,
    writeCtrl_of_soft_reset_bit h]
  rfl

end Sys2Proof.Machine
end
